-- ==== Sys2Proof/Word.lean ====
section
/-! DEFINITION. The words of the block: the u8 of rule R18, the bus word of rule R22 and R100, and text.
A string is its list of characters (log 21). -/

namespace Sys2Proof

/-- `u8`: an integer in 0..255 (R18); on the bus its bits are the data lines (R80). -/
abbrev Byte := BitVec 8

/-- A string argument or result: the list of its characters. -/
abbrev Text := List Char

/-- Bus word: "the `(data, mode)` pair driven in one strobe cycle" (R22). The mode is a mode code, an integer (R34);
how many of its bits reach the lines is the profile's mode width (R100). -/
structure BusWord where
  data : Byte
  mode : Nat
  deriving DecidableEq, Repr

end Sys2Proof
end

