-- ==== Sys2Proof/Config.lean ====
section
/-! DEFINITION. What a block is constructed with (R12 to R17, R32 to R35): the Hardware Profile with its Mode Table,
the Pin Map, the settle time, the selector bits and the number of callers; and the free values of the model: the order
in which waiting callers get the lock, and what profiles outside the spec's literals leave open (logs 8, 19, 32). -/

namespace Sys2Proof

/-- The eight command names a mode code can stand for (R105). `quadSel` is the spec's own name (D7). -/
inductive Command where
  | bucket | window | incPhase | decPhase | pauseTrig | laserTrigSource | ringRfSource | quadSel
  deriving DecidableEq, Repr

/-- Every command name, in the order of R105. -/
def Command.all : List Command :=
  [.bucket, .window, .incPhase, .decPhase, .pauseTrig, .laserTrigSource, .ringRfSource, .quadSel]

/-- `MODE_WIDTH`: 1 in the earliest revision, 4 in the later ones, nothing else (R9, conflict C7). -/
inductive ModeWidth where
  | one | four
  deriving DecidableEq, Repr

/-- `FINE_VARIANT` (R12): the phase sequencer's variant. -/
inductive FineVariant where
  | none | direct | quadrature
  deriving DecidableEq, Repr

/-- The three revisions whose bus words the opcode table lists (R3). -/
inductive Revision where
  | p1 | p2 | p3
  deriving DecidableEq, Repr

/-- `MODE_TABLE` / `PROFILE.MODE_CODE`: a partial map from command name to mode code (R34), `none` for an absent
command. -/
structure ModeTable where
  bucket : Option Nat
  window : Option Nat
  incPhase : Option Nat
  decPhase : Option Nat
  pauseTrig : Option Nat
  laserTrigSource : Option Nat
  ringRfSource : Option Nat
  quadSel : Option Nat
  deriving DecidableEq, Repr

/-- `PROFILE`: the record of R12; its three numbers are integers of any value, since R269 checks none of them (D1).
`BUCKET_STEP` is not stored: it is 4 exactly when `HAS_COARSE` (R11), see `Profile.bucketStep`. -/
structure Profile where
  modeWidth : ModeWidth
  modeTable : ModeTable
  hasCoarse : Bool
  hasLaser : Bool
  hasRingRf : Bool
  fineVariant : FineVariant
  fineStepBound : Int
  quadBound : Int
  quadCounts : Int
  fineResume : Bool
  deriving DecidableEq, Repr

/-- `PIN_MAP` (R13): which GPIO line carries which role; identifiers are opaque numbers. A construction may pass lists
of any length, and a wrong one is refused (R33, R269). -/
structure PinMap where
  dataPins : List Nat
  modePins : List Nat
  strobe : Nat
  deriving DecidableEq, Repr

/-- `LASER_BIT` (R230, D5): the bit written for each laser-trigger source. -/
structure LaserBits where
  coincidence : Bool
  mrf : Bool
  deriving DecidableEq, Repr

/-- `RING_BIT` (R236, D5): the bit written for each ring-RF source. -/
structure RingBits where
  revClock : Bool
  mhz100 : Bool
  deriving DecidableEq, Repr

/-- Everything fixed at construction (R290 and the open parameters of 92_eei_decisions.md). Real numbers are exact
rationals (log 1). The number of callers is stored less one, since R17 makes it any positive number: see
`Params.nCallers`. -/
structure Params where
  profile : Profile
  pins : PinMap
  tSettle : Rat
  avgInit : Rat
  laserBit : LaserBits
  ringBit : RingBits
  otherCallers : Nat
  deriving DecidableEq, Repr

/-- `N_CALLERS`: "any positive number" (R17). -/
def Params.nCallers (q : Params) : Nat := q.otherCallers + 1

/-- FREE VALUE (log 8). "The order in which waiting callers acquire `LOCK` is unspecified. The model admits every
order." (R93): the position, in the list of waiting calls, that the lock takes at the n-th choice. -/
opaque Config.lockChoice : Nat → Nat

/-- FREE VALUE (log 19). The data byte of a word whose value is past 255, which only a profile with a bound past the
spec's literals computes: the spec states no byte for it (R102 to R104). A function of the value. -/
opaque Config.wideData : Nat → Byte

/-- FREE VALUE (log 32). `t div QUAD_COUNTS` for a `QUAD_COUNTS` that is not positive, where R18 gives `div` no meaning:
a function of the two operands. -/
opaque Config.quadQuotient : Int → Int → Nat

/-- FREE VALUE (log 32). `t mod QUAD_COUNTS` for a `QUAD_COUNTS` that is not positive, where R18 gives `mod` no meaning:
a function of the two operands. -/
opaque Config.quadRemainder : Int → Int → Nat

end Sys2Proof
end

