-- ==== Sys2Proof/Machine/Profiles.lean ====
section
/-! DEFINITION. The three named profiles of R12 with the default mode codes of R105, the default selector bits of D5,
and the parameters State.reset is constructed with (logs 3 to 6). -/

namespace Sys2Proof

/-- P1, the earliest revision (R12, R105). R12's table gives P1 a dash for FINE_STEP_BOUND, QUAD_BOUND, QUAD_COUNTS and
FINE_RESUME; the model stores the literals 255, 4 and 150 and `false` there. DESIGN CHOICE (log 31), safe: P1 has no
phase sequencer and no operation of it reads them. -/
def Profile.p1 : Profile where
  modeWidth := .one
  modeTable :=
    { bucket := some 0, window := some 1, incPhase := none, decPhase := none, pauseTrig := none,
      laserTrigSource := none, ringRfSource := none, quadSel := none }
  hasCoarse := false
  hasLaser := false
  hasRingRf := false
  fineVariant := .none
  fineStepBound := 255
  quadBound := 4
  quadCounts := 150
  fineResume := false

/-- P2, the quadrature revision (R12, R105). -/
def Profile.p2 : Profile where
  modeWidth := .four
  modeTable :=
    { bucket := some 0, window := some 1, incPhase := some 2, decPhase := some 3, pauseTrig := some 4,
      laserTrigSource := some 5, ringRfSource := none, quadSel := some 7 }
  hasCoarse := false
  hasLaser := true
  hasRingRf := false
  fineVariant := .quadrature
  fineStepBound := 255
  quadBound := 4
  quadCounts := 150
  fineResume := true

/-- P3, the latest revision (R12, R105). R12's table gives P3 a dash for QUAD_BOUND and QUAD_COUNTS; the model stores the
literals 4 and 150 there. DESIGN CHOICE (log 31), safe: the DIRECT variant reads neither. -/
def Profile.p3 : Profile where
  modeWidth := .four
  modeTable :=
    { bucket := some 0, window := some 1, incPhase := some 2, decPhase := some 3, pauseTrig := some 4,
      laserTrigSource := some 5, ringRfSource := some 6, quadSel := none }
  hasCoarse := true
  hasLaser := true
  hasRingRf := true
  fineVariant := .direct
  fineStepBound := 255
  quadBound := 4
  quadCounts := 150
  fineResume := false

/-- `MODE_WIDTH` as a number (R9). -/
def ModeWidth.bits : ModeWidth → Nat
  | .one => 1
  | .four => 4

/-- `BUCKET_STEP`: 4 exactly when the revision has the coarse offset, 1 otherwise (R11). -/
def Profile.bucketStep (p : Profile) : Nat := if p.hasCoarse then 4 else 1

/-- Pin identifiers 0, 1, 2, … in the order data, mode, strobe: a choice of the model (log 4). -/
def PinMap.standard (w : ModeWidth) : PinMap where
  dataPins := [0, 1, 2, 3, 4, 5, 6, 7]
  modePins := (List.range w.bits).map (· + 8)
  strobe := 8 + w.bits

/-- The model's construction parameters for a profile (logs 4 to 6), with the spec's defaults for the selector bits
(R230, R236) and the initial phase advance (R16). -/
def Params.standard (p : Profile) : Params where
  profile := p
  pins := PinMap.standard p.modeWidth
  tSettle := 1
  avgInit := 0
  laserBit := { coincidence := true, mrf := false }
  ringBit := { revClock := true, mhz100 := false }
  otherCallers := 1

/-- The named profile of a revision (R12). -/
def Revision.profile : Revision → Profile
  | .p1 => Profile.p1
  | .p2 => Profile.p2
  | .p3 => Profile.p3

/-- Which revision's rows of the opcode table name a block's bus words: the 1-bit format is P1's (R101), and of the
4-bit formats P2's rows are the ones with the quadrature selector (R105). Log 15. -/
def Profile.revision (p : Profile) : Revision :=
  match p.modeWidth with
  | .one => .p1
  | .four => if p.fineVariant = .quadrature then .p2 else .p3

/-- All pins of the map in the order construction configures them: data, mode, strobe (R290). -/
def PinMap.all (m : PinMap) : List Nat := m.dataPins ++ m.modePins ++ [m.strobe]

/-- The pins of a level vector: data pins, then mode pins (R82). -/
def PinMap.wordPins (m : PinMap) : List Nat := m.dataPins ++ m.modePins

end Sys2Proof
end

