-- ==== Sys2Proof/Syntax.lean ====
section
/-! DEFINITION. The instruction set (R4): one constructor per row of spec/opcode_table.json, the sixteen bus commands
of the three profiles (R106) and the thirteen host operations (R110). -/

namespace Sys2Proof

/-- A number as a host passes it: a finite value, exact (log 1), or one of the non-finite values the spec names for
arguments (R160, R201, R250). -/
inductive Num where
  | fin (q : Rat)
  | nan
  | posInf
  | negInf
  deriving DecidableEq, Repr

/-- One constructor per row of the opcode table. A bus command carries the data byte of its word; a host operation
carries its argument as the host passes it, inside or outside the operation's domain. -/
inductive Instr where
  -- bus commands of P1 (BW9)
  | p1Bucket (d : Byte)
  | p1Window (d : Byte)
  -- bus commands of P2 (BW12)
  | p2Bucket (d : Byte)
  | p2Window (d : Byte)
  | p2IncPhase (d : Byte)
  | p2DecPhase (d : Byte)
  | p2PauseTrig (d : Byte)
  | p2LaserTrigSource (d : Byte)
  | p2QuadSel (d : Byte)
  -- bus commands of P3 (BW12)
  | p3Bucket (d : Byte)
  | p3Window (d : Byte)
  | p3IncPhase (d : Byte)
  | p3DecPhase (d : Byte)
  | p3PauseTrig (d : Byte)
  | p3LaserTrigSource (d : Byte)
  | p3RingRfSource (d : Byte)
  -- host operations
  | setBucket (b : Num)
  | getBucket
  | setWindow (x : Num)
  | getWindow
  | setLaserTrig (text : Text)
  | getLaserTrig
  | setRingRfSource (text : Text)
  | getRingRfSource
  | setOffsetFine (t : Num)
  | getOffsetFine
  | setOffsetCoarse (c : Num)
  | getOffsetCoarse
  | setAvgPhaseAdvance (x : Num)
  deriving DecidableEq, Repr

end Sys2Proof
end

