-- ==== Sys2Proof/WellFormed.lean ====
section
/-! DEFINITION. Which instructions are well formed. A bus command's data byte fits the pattern of its row (R106, the
`fields` of the opcode table); a host operation's argument lies in its domain (R110). An ill-formed call is still
executed by the machine: it is refused with BAD_ARG, after the presence check (R272). -/

namespace Sys2Proof

/-- The data bytes the pattern of R106 leaves room for: one bit under `pause_trig` and the selectors, two under
`quad_sel`, eight elsewhere. -/
def Command.fitsPattern (c : Command) (d : Byte) : Bool :=
  match c with
  | .pauseTrig | .laserTrigSource | .ringRfSource => d.toNat ≤ 1
  | .quadSel => d.toNat ≤ 3
  | .bucket | .window | .incPhase | .decPhase => true

/-- A u8 argument is an integer in 0..255 (R110, D12). -/
def Num.isU8 : Num → Bool
  | .fin q => q.den = 1 && 0 ≤ q.num && q.num ≤ 255
  | .nan | .posInf | .negInf => false

/-- An integer argument; a float with an integral value is that integer (R201). -/
def Num.isInteger : Num → Bool
  | .fin q => q.den = 1
  | .nan | .posInf | .negInf => false

/-- A requested delay: finite and at least 0 (R160). -/
def Num.isDelay : Num → Bool
  | .fin q => 0 ≤ q.num
  | .nan | .posInf | .negInf => false

/-- A finite real (R250). -/
def Num.isFinite : Num → Bool
  | .fin _ => true
  | .nan | .posInf | .negInf => false

/-- Well-formed instructions. -/
def Instr.wellFormed : Instr → Bool
  | .p1Bucket d => Command.bucket.fitsPattern d
  | .p1Window d => Command.window.fitsPattern d
  | .p2Bucket d => Command.bucket.fitsPattern d
  | .p2Window d => Command.window.fitsPattern d
  | .p2IncPhase d => Command.incPhase.fitsPattern d
  | .p2DecPhase d => Command.decPhase.fitsPattern d
  | .p2PauseTrig d => Command.pauseTrig.fitsPattern d
  | .p2LaserTrigSource d => Command.laserTrigSource.fitsPattern d
  | .p2QuadSel d => Command.quadSel.fitsPattern d
  | .p3Bucket d => Command.bucket.fitsPattern d
  | .p3Window d => Command.window.fitsPattern d
  | .p3IncPhase d => Command.incPhase.fitsPattern d
  | .p3DecPhase d => Command.decPhase.fitsPattern d
  | .p3PauseTrig d => Command.pauseTrig.fitsPattern d
  | .p3LaserTrigSource d => Command.laserTrigSource.fitsPattern d
  | .p3RingRfSource d => Command.ringRfSource.fitsPattern d
  | .setBucket b => b.isU8
  | .getBucket => true
  | .setWindow x => x.isDelay
  | .getWindow => true
  | .setLaserTrig _ => true
  | .getLaserTrig => true
  | .setRingRfSource _ => true
  | .getRingRfSource => true
  | .setOffsetFine t => t.isInteger
  | .getOffsetFine => true
  | .setOffsetCoarse c => c.isU8
  | .getOffsetCoarse => true
  | .setAvgPhaseAdvance x => x.isFinite

end Sys2Proof
end

