-- ==== Sys2Proof/Decode.lean ====
section
/-! DEFINITION. The encodings. First the bus words (R100 to R106): mode field, packing, the decoder (total, rejecting by
name) and the encoder, all from the profile's Mode Table. Then the textual call form of the host operations (R113),
its reader and its writer. -/

namespace Sys2Proof

/-! ### Bus words -/

/-- The code `MODE_TABLE` gives a command, if the command is present (R34). -/
def ModeTable.code (t : ModeTable) : Command → Option Nat
  | .bucket => t.bucket
  | .window => t.window
  | .incPhase => t.incPhase
  | .decPhase => t.decPhase
  | .pauseTrig => t.pauseTrig
  | .laserTrigSource => t.laserTrigSource
  | .ringRfSource => t.ringRfSource
  | .quadSel => t.quadSel

/-- `mode_field(name) = MODE_TABLE[name] mod 2^W` (R103). -/
def Profile.modeField (p : Profile) (c : Command) : Option Nat :=
  (p.modeTable.code c).map (· % 2 ^ p.modeWidth.bits)

/-- The data field of a value: "placed in bits 7..0 with no shift, scaling or sign extension" (R104). Every value the
spec's literals allow fits (R102); of a wider one the byte is free (log 19). -/
def busData (value : Nat) : Byte := if value ≤ 255 then BitVec.ofNat 8 value else Config.wideData value

/-- The bus word that carries a value under a command, if the command is present (R100, R103, R104). -/
def Profile.busWord (p : Profile) (value : Nat) (c : Command) : Option BusWord :=
  (p.modeField c).map fun m => { data := busData value, mode := m }

/-- The packed number `BW`: data in bits 7..0, mode above it (R100). -/
def BusWord.bw (w : BusWord) : Nat := w.data.toNat + 256 * w.mode

/-- The command a mode field stands for: the mode field alone decides (R106). -/
def Profile.commandOf (p : Profile) (m : Nat) : Option Command :=
  Command.all.find? fun c => p.modeField c == some m

/-- The row of the opcode table for a command of a revision (R106); `none` where the table has no such row. -/
def Revision.rowInstr (r : Revision) (c : Command) (d : Byte) : Option Instr :=
  match r, c with
  | .p1, .bucket => some (.p1Bucket d)
  | .p1, .window => some (.p1Window d)
  | .p2, .bucket => some (.p2Bucket d)
  | .p2, .window => some (.p2Window d)
  | .p2, .incPhase => some (.p2IncPhase d)
  | .p2, .decPhase => some (.p2DecPhase d)
  | .p2, .pauseTrig => some (.p2PauseTrig d)
  | .p2, .laserTrigSource => some (.p2LaserTrigSource d)
  | .p2, .quadSel => some (.p2QuadSel d)
  | .p3, .bucket => some (.p3Bucket d)
  | .p3, .window => some (.p3Window d)
  | .p3, .incPhase => some (.p3IncPhase d)
  | .p3, .decPhase => some (.p3DecPhase d)
  | .p3, .pauseTrig => some (.p3PauseTrig d)
  | .p3, .laserTrigSource => some (.p3LaserTrigSource d)
  | .p3, .ringRfSource => some (.p3RingRfSource d)
  | .p1, .incPhase | .p1, .decPhase | .p1, .pauseTrig | .p1, .laserTrigSource | .p1, .ringRfSource
  | .p1, .quadSel | .p2, .ringRfSource | .p3, .quadSel => none

/-- The row an instruction stands for: its revision, its command and its data byte; `none` for a host operation,
which is "a call, not a bit pattern" (opcode table). -/
def Instr.row : Instr → Option (Revision × Command × Byte)
  | .p1Bucket d => some (.p1, .bucket, d)
  | .p1Window d => some (.p1, .window, d)
  | .p2Bucket d => some (.p2, .bucket, d)
  | .p2Window d => some (.p2, .window, d)
  | .p2IncPhase d => some (.p2, .incPhase, d)
  | .p2DecPhase d => some (.p2, .decPhase, d)
  | .p2PauseTrig d => some (.p2, .pauseTrig, d)
  | .p2LaserTrigSource d => some (.p2, .laserTrigSource, d)
  | .p2QuadSel d => some (.p2, .quadSel, d)
  | .p3Bucket d => some (.p3, .bucket, d)
  | .p3Window d => some (.p3, .window, d)
  | .p3IncPhase d => some (.p3, .incPhase, d)
  | .p3DecPhase d => some (.p3, .decPhase, d)
  | .p3PauseTrig d => some (.p3, .pauseTrig, d)
  | .p3LaserTrigSource d => some (.p3, .laserTrigSource, d)
  | .p3RingRfSource d => some (.p3, .ringRfSource, d)
  | .setBucket _ | .getBucket | .setWindow _ | .getWindow | .setLaserTrig _ | .getLaserTrig
  | .setRingRfSource _ | .getRingRfSource | .setOffsetFine _ | .getOffsetFine | .setOffsetCoarse _
  | .getOffsetCoarse | .setAvgPhaseAdvance _ => none

/-- Whether an instruction is one of the thirteen host operations (R8, R148). -/
def Instr.isHostOp (i : Instr) : Bool := i.row.isNone

/-- Why a bus word is no instruction of a block. -/
inductive DecodeError where
  /-- fewer than the two bytes a word takes -/
  | short
  /-- a bit is set above the profile's mode lines (R101) -/
  | modeTooWide
  /-- the mode code is absent from the profile's Mode Table (R107) -/
  | modeCodeAbsent
  /-- the code is in the Mode Table, but the opcode table has no row for the command in this revision (log 15) -/
  | noRow
  deriving DecidableEq, Repr

/-- Decode one bus word: the command by the mode field alone (R106), then its row. -/
def decodeWord (p : Profile) (w : BusWord) : Except DecodeError Instr :=
  if 2 ^ p.modeWidth.bits ≤ w.mode then .error .modeTooWide
  else
    match p.commandOf w.mode with
    | none => .error .modeCodeAbsent
    | some c =>
      match p.revision.rowInstr c w.data with
      | none => .error .noRow
      | some i => .ok i

/-- A word laid out as two bytes, the data byte first and the mode bits in the low bits of the second (log 17). -/
def BusWord.bytes (w : BusWord) : List Byte := [w.data, BitVec.ofNat 8 w.mode]

/-- The decoder on bytes: one word, and the bytes after it. -/
def decode (p : Profile) : List Byte → Except DecodeError (Instr × List Byte)
  | lo :: hi :: rest =>
    match decodeWord p { data := lo, mode := hi.toNat } with
    | .ok i => .ok (i, rest)
    | .error e => .error e
  | [_] => .error .short
  | [] => .error .short

/-- The bus word of a bus command in a block of profile `p`: `none` if the row belongs to another revision, or the
command is absent, or the instruction is a host operation. -/
def encodeWord (p : Profile) (i : Instr) : Option BusWord :=
  match i.row with
  | none => none
  | some (r, c, d) => if r = p.revision then p.busWord d.toNat c else none

/-- The encoder: the bytes of a bus command. -/
def encode (p : Profile) (i : Instr) : Option (List Byte) := (encodeWord p i).map BusWord.bytes

/-- The bits of a table row as a bus word: data in bits 7..0, the mode above (R100). -/
def wordOfBits (w : Nat) : BusWord := { data := BitVec.ofNat 8 w, mode := w / 256 }

/-- The revision whose decoder reads a table word. The same bits are words of several revisions, which the word itself
cannot tell apart: nine bits are P1's format (R101); of a longer word P3's reading is taken, and P2's where P3 has
none (log 16). -/
def tableRevision (nbits w : Nat) : Option Revision :=
  (if nbits ≤ 9 then [Revision.p1] else [Revision.p3, Revision.p2]).find? fun r =>
    match decodeWord r.profile (wordOfBits w) with
    | .ok _ => true
    | .error _ => false

/-- The instruction the decoder reads from a table word, laid out as two bytes. -/
def decodeTableWord (nbits w : Nat) : Option Instr :=
  match tableRevision nbits w with
  | none => none
  | some r =>
    if w < 65536 then
      match decode r.profile [BitVec.ofNat 8 w, BitVec.ofNat 8 (w / 256)] with
      | .ok (i, _) => some i
      | .error _ => none
    else none

/-! ### The call form of the host operations (R113; log 18) -/

/-- Why a line is no host call. -/
inductive CallError where
  /-- not of the form `name(argument)` -/
  | notACall
  /-- no host operation has this name (R8) -/
  | unknownOperation
  /-- the argument is neither a decimal nor a quoted string -/
  | unreadableArgument
  /-- an argument of the wrong kind, missing, or not expected (R110) -/
  | wrongArgument
  deriving DecidableEq, Repr

/-- What stands between the parentheses. -/
inductive Arg where
  | absent
  | num (n : Num)
  | str (t : Text)
  deriving DecidableEq, Repr

/-- White space within a line. -/
def isBlankChar (c : Char) : Bool := c = ' ' || c = '\t' || c = '\r'

/-- A text without white space at its ends. -/
def trimText (t : Text) : Text := ((t.dropWhile isBlankChar).reverse.dropWhile isBlankChar).reverse

/-- The value of a decimal digit. -/
def digitVal (c : Char) : Option Nat := if '0' ≤ c ∧ c ≤ '9' then some (c.toNat - 48) else none

/-- The value of a run of digits, most significant first, after `acc`. -/
def digitsVal : Nat → Text → Option Nat
  | acc, [] => some acc
  | acc, c :: cs =>
    match digitVal c with
    | none => none
    | some d => digitsVal (10 * acc + d) cs

/-- A decimal without sign: digits, or digits, a point and digits (R113). -/
def readDecimal (t : Text) : Option Rat :=
  let whole := t.takeWhile (· != '.')
  match t.dropWhile (· != '.') with
  | [] => if whole = [] then none else (digitsVal 0 whole).map fun n => mkRat n 1
  | _ :: frac =>
    if whole = [] ∨ frac = [] then none
    else (digitsVal 0 (whole ++ frac)).map fun n => mkRat n (10 ^ frac.length)

/-- A real argument: a decimal with an optional minus sign (R113), or one of the names 95_test_vectors.md V3 uses for
the non-finite values. -/
def readNum (t : Text) : Option Num :=
  if t = ['N', 'a', 'N'] then some .nan
  else if t = ['+', '∞'] then some .posInf
  else if t = ['-', '∞'] then some .negInf
  else
    match t with
    | '-' :: u => (readDecimal u).map fun q => .fin (-q)
    | u => (readDecimal u).map .fin

/-- The argument between the parentheses: nothing, a string in double quotes, or a number. -/
def readArg (t : Text) : Except CallError Arg :=
  match trimText t with
  | [] => .ok .absent
  | '"' :: body =>
    match body.reverse with
    | '"' :: inner => if '"' ∈ inner then .error .unreadableArgument else .ok (.str inner.reverse)
    | _ => .error .unreadableArgument
  | u =>
    match readNum u with
    | some n => .ok (.num n)
    | none => .error .unreadableArgument

/-- The call an operation without argument makes. -/
def Arg.noneTo (a : Arg) (i : Instr) : Except CallError Instr :=
  match a with
  | .absent => .ok i
  | .num _ | .str _ => .error .wrongArgument

/-- The call an operation on a number makes. -/
def Arg.numTo (a : Arg) (f : Num → Instr) : Except CallError Instr :=
  match a with
  | .num n => .ok (f n)
  | .absent | .str _ => .error .wrongArgument

/-- The call an operation on a string makes. -/
def Arg.strTo (a : Arg) (f : Text → Instr) : Except CallError Instr :=
  match a with
  | .str t => .ok (f t)
  | .absent | .num _ => .error .wrongArgument

/-- The name of a host operation (R8); `none` for a bus command. -/
def Instr.opName : Instr → Option Text
  | .setBucket _ => some "set_bucket".toList
  | .getBucket => some "get_bucket".toList
  | .setWindow _ => some "set_window".toList
  | .getWindow => some "get_window".toList
  | .setLaserTrig _ => some "set_laser_trig".toList
  | .getLaserTrig => some "get_laser_trig".toList
  | .setRingRfSource _ => some "set_ring_rf_source".toList
  | .getRingRfSource => some "get_ring_rf_source".toList
  | .setOffsetFine _ => some "set_offset_fine".toList
  | .getOffsetFine => some "get_offset_fine".toList
  | .setOffsetCoarse _ => some "set_offset_coarse".toList
  | .getOffsetCoarse => some "get_offset_coarse".toList
  | .setAvgPhaseAdvance _ => some "set_avg_phase_advance".toList
  | .p1Bucket _ | .p1Window _ | .p2Bucket _ | .p2Window _ | .p2IncPhase _ | .p2DecPhase _ | .p2PauseTrig _
  | .p2LaserTrigSource _ | .p2QuadSel _ | .p3Bucket _ | .p3Window _ | .p3IncPhase _ | .p3DecPhase _
  | .p3PauseTrig _ | .p3LaserTrigSource _ | .p3RingRfSource _ => none

/-- The call of a name with an argument (R110). -/
def callOf (name : Text) (a : Arg) : Except CallError Instr :=
  if name = "set_bucket".toList then a.numTo .setBucket
  else if name = "get_bucket".toList then a.noneTo .getBucket
  else if name = "set_window".toList then a.numTo .setWindow
  else if name = "get_window".toList then a.noneTo .getWindow
  else if name = "set_laser_trig".toList then a.strTo .setLaserTrig
  else if name = "get_laser_trig".toList then a.noneTo .getLaserTrig
  else if name = "set_ring_rf_source".toList then a.strTo .setRingRfSource
  else if name = "get_ring_rf_source".toList then a.noneTo .getRingRfSource
  else if name = "set_offset_fine".toList then a.numTo .setOffsetFine
  else if name = "get_offset_fine".toList then a.noneTo .getOffsetFine
  else if name = "set_offset_coarse".toList then a.numTo .setOffsetCoarse
  else if name = "get_offset_coarse".toList then a.noneTo .getOffsetCoarse
  else if name = "set_avg_phase_advance".toList then a.numTo .setAvgPhaseAdvance
  else .error .unknownOperation

/-- A line up to its comment: `#` begins one, but not inside quotes (R113). -/
def dropComment : Bool → Text → Text
  | _, [] => []
  | quoted, c :: cs =>
    if c = '#' ∧ quoted = false then []
    else c :: dropComment (if c = '"' then !quoted else quoted) cs

/-- One call `name(argument)`. -/
def readCall (t : Text) : Except CallError Instr :=
  match t.dropWhile (· != '(') with
  | _ :: body =>
    match body.reverse with
    | ')' :: arg =>
      match readArg arg.reverse with
      | .ok a => callOf (trimText (t.takeWhile (· != '('))) a
      | .error e => .error e
    | _ => .error .notACall
  | [] => .error .notACall

/-- One line of a host program: a call, or nothing (R113). -/
def readLine (t : Text) : Except CallError (Option Instr) :=
  match trimText (dropComment false t) with
  | [] => .ok none
  | u =>
    match readCall u with
    | .ok i => .ok (some i)
    | .error e => .error e

/-- The lines of a text. -/
def linesOf : Text → List Text
  | [] => [[]]
  | c :: cs =>
    if c = '\n' then [] :: linesOf cs
    else
      match linesOf cs with
      | [] => [[c]]
      | l :: ls => (c :: l) :: ls

/-- The calls of a list of lines. -/
def readLines : List Text → Except CallError (List Instr)
  | [] => .ok []
  | l :: ls =>
    match readLine l, readLines ls with
    | .error e, _ => .error e
    | .ok _, .error e => .error e
    | .ok none, .ok is => .ok is
    | .ok (some i), .ok is => .ok (i :: is)

/-- A host-operation program, one call per line (R113). -/
def readProgram (t : Text) : Except CallError (List Instr) := readLines (linesOf t)

/-- The character of a decimal digit. -/
def digitChar (d : Nat) : Char := Char.ofNat (48 + d % 10)

/-- The decimal digits of `n` in front of `tail`; `fuel` bounds how many. -/
def writeDigits : Nat → Nat → Text → Text
  | 0, _, tail => tail
  | fuel + 1, n, tail =>
    if n < 10 then digitChar n :: tail else writeDigits fuel (n / 10) (digitChar n :: tail)

/-- A natural number in decimal. -/
def writeNat (n : Nat) : Text := writeDigits (n + 1) n []

/-- An integer in decimal. -/
def writeInt (z : Int) : Text := if z < 0 then '-' :: writeNat z.natAbs else writeNat z.natAbs

/-- Exactly `k` decimal digits of `n`, most significant first, in front of `tail`. -/
def writeFixed : Nat → Nat → Text → Text
  | 0, _, tail => tail
  | k + 1, n, tail => writeFixed k (n / 10) (digitChar n :: tail)

/-- The least number of decimal places, from `k` up and within `fuel` of it, at which a denominator divides a power
of ten. -/
def decimalPlaces : Nat → Nat → Nat → Option Nat
  | 0, _, _ => none
  | fuel + 1, k, den => if 10 ^ k % den = 0 then some k else decimalPlaces fuel (k + 1) den

/-- A number as a decimal (R113); `none` for a rational no decimal of at most 1100 places writes (every f64 has one). -/
def writeNum : Num → Option Text
  | .nan => some ['N', 'a', 'N']
  | .posInf => some ['+', '∞']
  | .negInf => some ['-', '∞']
  | .fin q =>
    match decimalPlaces 1101 0 q.den with
    | none => none
    | some 0 => some (writeInt q.num)
    | some (k + 1) =>
      let n := q.num.natAbs * (10 ^ (k + 1) / q.den)
      let body := writeNat (n / 10 ^ (k + 1)) ++ '.' :: writeFixed (k + 1) (n % 10 ^ (k + 1)) []
      some (if q.num < 0 then '-' :: body else body)

/-- A string in double quotes; one that holds a quote or a line end has no text (log 18). -/
def writeStr (t : Text) : Option Text :=
  if '"' ∈ t ∨ '\n' ∈ t then none else some ('"' :: t ++ ['"'])

/-- The argument of a call as text, empty for an operation without argument. -/
def Instr.writeArg : Instr → Option Text
  | .setBucket n | .setWindow n | .setOffsetFine n | .setOffsetCoarse n | .setAvgPhaseAdvance n => writeNum n
  | .setLaserTrig t | .setRingRfSource t => writeStr t
  | .getBucket | .getWindow | .getLaserTrig | .getRingRfSource | .getOffsetFine | .getOffsetCoarse => some []
  | .p1Bucket _ | .p1Window _ | .p2Bucket _ | .p2Window _ | .p2IncPhase _ | .p2DecPhase _ | .p2PauseTrig _
  | .p2LaserTrigSource _ | .p2QuadSel _ | .p3Bucket _ | .p3Window _ | .p3IncPhase _ | .p3DecPhase _
  | .p3PauseTrig _ | .p3LaserTrigSource _ | .p3RingRfSource _ => none

/-- The line of a host call (R113). -/
def writeCall (i : Instr) : Option Text :=
  match i.opName, i.writeArg with
  | some name, some arg => some (name ++ '(' :: arg ++ [')'])
  | _, _ => none

end Sys2Proof
end

