-- ==== Sys2Proof/Machine/DelayRom.lean ====
section
/-! DEFINITION. The delay table (R15, R70 to R74): eight taps and the 256 sums of them. -/

namespace Sys2Proof.Machine

/-- `DELAY_TAPS` in picoseconds, `DELAY_TAPS[b]` the b-th of the list (R15, D4). -/
def delayTaps : List Nat := [16, 77, 140, 166, 231, 292, 343, 424]

/-- `Σ_b i[b] * taps[b]`: the sum of the taps whose bit is set in `i` (R71). -/
def tapSum : List Nat → Nat → Nat
  | [], _ => 0
  | t :: ts, i => i % 2 * t + tapSum ts (i / 2)

/-- `DelayROM`: entry `i` is the sum of the taps selected by `i`, for `i` in 0..255 (R70, R71). -/
def DelayRom.table : List Nat := (List.range 256).map (tapSum delayTaps)

end Sys2Proof.Machine
end

