-- ==== Sys2Proof/Machine/State.lean ====
section
/-! DEFINITION. The state of the block (10_state.md), as plain data, the reasons a step can stop, and the state after
reset. -/

namespace Sys2Proof.Machine

/-- `LASER_SRC` (R39). -/
inductive LaserSrc where
  | mrf | coincidence
  deriving DecidableEq, Repr

/-- `RING_RF_SRC` (R40); `mhz100` is the spec's `100MHZ`. -/
inductive RingRfSrc where
  | revClock | mhz100
  deriving DecidableEq, Repr

/-- The causes of RangeError (R261). -/
inductive RangeCause where
  | bucket | coarse | fineNegative | fineStep | quad
  deriving DecidableEq, Repr

/-- What a call returns (R110, R261): `()`, `Ok(())`, `Ok(t)`, a value, or `Err(RangeError(cause))` with the argument
of the call. -/
inductive Reply where
  | unit
  | ok
  | okInt (t : Int)
  | byte (v : Byte)
  | int (v : Int)
  | real (q : Rat)
  | str (t : Text)
  | rangeError (cause : RangeCause) (arg : Int)
  deriving DecidableEq, Repr

/-- A register write of a transaction's `commit` set (R46). -/
inductive RegWrite where
  | bucket (v : Byte)
  | offsetCoarse (v : Byte)
  | window (v : Nat)
  | laserSrc (v : LaserSrc)
  | ringRfSrc (v : RingRfSrc)
  | phaseCnt (v : Int)
  | offsetFine (v : Int)
  | avgPhaseAdv (v : Rat)
  deriving DecidableEq, Repr

/-- The six write phases of a word, in order (R141). -/
inductive WritePhase where
  | assert | settle | strobeHi | holdHi | strobeLo | holdLo
  deriving DecidableEq, Repr

/-- `LOCK`: `FREE` or `HELD(c)` (R45). -/
inductive Lock where
  | free
  | held (c : Nat)
  deriving DecidableEq, Repr

/-- The contents of `BUSY(c, op, words, k, wph, commit, result)` (R46). `wph` is the phase that comes next. -/
structure Txn where
  caller : Nat
  op : Instr
  words : List BusWord
  k : Nat
  wph : WritePhase
  commit : List RegWrite
  result : Reply
  deriving DecidableEq, Repr

/-- `SEQ` (R46). -/
inductive Seq where
  | idle
  | busy (t : Txn)
  deriving DecidableEq, Repr

/-- `PIN_DIR[p]` (R47). -/
inductive PinDir where
  | unconfigured | output
  deriving DecidableEq, Repr

/-- The events of `TRACE` (R49). -/
inductive Event where
  | configure (pin : Nat)
  | write (pins : List Nat) (levels : List Bool)
  | sleep (time : Rat)
  deriving DecidableEq, Repr

/-- A call that waits for the lock (R270). -/
structure Call where
  caller : Nat
  op : Instr
  deriving DecidableEq, Repr

/-- The GPIO line space: the levels of the driven lines by pin identifier, strictly rising; a line that is not listed
is `UNDRIVEN` (R48). This is the block's only writable space with addresses (R88); it has no data memory (log 11). -/
abbrev Memory := List (Nat × Bool)

/-- What breaks a construction (R269, in its order). -/
inductive ConfigDefect where
  | dataPinCount | modePinCount | pinTwice | codeTooWide | codeTwice | commandMissing | negativeSettle
  deriving DecidableEq, Repr

/-- Faults: the machine stops because the model's assumptions are broken. All are safe. -/
inductive Fault where
  /-- the sequencer would have to emit a word whose mode code is absent from the Mode Table (I5, R107); raised by
  `fetch`; safe -/
  | modeCodeAbsent
  /-- the sequencer would have to emit a data value listed as never emitted under its command (I5, R108; log 33);
  raised by `fetch`; safe -/
  | dataNeverEmitted
  /-- LOCK is held but SEQ is idle: no such state outside the start of a call (R46, log 24); raised by `fetch`; safe -/
  | lockHeldWhileIdle
  deriving DecidableEq, Repr

/-- Refusals: no meaning (R266). All are safe. -/
inductive Refusal where
  /-- an instruction without a meaning in this model; raised by no arm of `exec`; safe -/
  | notModelled (mnemonic : String)
  /-- `OP_ABSENT`: the profile does not have the operation (R267); raised by the host operations; safe -/
  | opAbsent
  /-- `BAD_ARG`: the argument lies outside the operation's domain (R268); raised by the host operations; safe -/
  | badArg
  /-- `BAD_CONFIG`: the construction parameters break the data model (R269); raised by `construct`, and by a host
  operation of a block no construction made (its Mode Table lacks a command the operation emits); safe -/
  | badConfig (d : ConfigDefect)
  /-- a bus command of another revision's wire protocol, or one the block's Mode Table lacks (R3, R148, log 15);
  raised by the bus commands; safe -/
  | otherRevision
  /-- a caller called something that is no host operation (R8, R148); raised by `fetch`; safe -/
  | notAHostOperation
  deriving DecidableEq, Repr

/-- The state of the block. Groups as in R30, then the model's own fields for the host interface (logs 8 and 10). -/
structure State where
  -- (a) configuration, read-only after construction (R32 to R35)
  params : Params
  -- (b) the delay-table ROM (R70)
  delayRom : List Nat
  -- (c) Device State registers (R36 to R43)
  bucket : Byte
  offsetCoarse : Byte
  window : Nat
  laserSrc : LaserSrc
  ringRfSrc : RingRfSrc
  phaseCnt : Int
  offsetFine : Int
  avgPhaseAdv : Rat
  -- (d) infrastructure state (R45 to R49)
  lock : Lock
  seq : Seq
  pinDir : List Nat
  pinLevel : Memory
  trace : List Event
  -- the host interface
  pending : List Call
  turn : Nat
  replies : List (Nat × Reply)
  freeCount : Nat
  deriving DecidableEq, Repr

/-- A pin list with a pin added, rising and without repeats. -/
def insertPin (p : Nat) : List Nat → List Nat
  | [] => [p]
  | q :: qs => if p < q then p :: q :: qs else if p = q then q :: qs else q :: insertPin p qs

/-- The registers of R51 before the pins are configured: every value is the one R290 writes. -/
def State.unconfigured (q : Params) : State where
  params := q
  delayRom := DelayRom.table
  bucket := 0
  offsetCoarse := 0
  window := 0
  laserSrc := .mrf
  ringRfSrc := .mhz100
  phaseCnt := 0
  offsetFine := 0
  avgPhaseAdv := q.avgInit
  lock := .free
  seq := .idle
  pinDir := []
  pinLevel := []
  trace := []
  pending := []
  turn := 0
  replies := []
  freeCount := 0

/-- The state after a construction with parameters `q` (R51, R290): every pin an output, configured in the order data,
mode, strobe; no pin driven. -/
def State.constructed (q : Params) : State :=
  { State.unconfigured q with
    pinDir := q.pins.all.foldl (fun ps p => insertPin p ps) []
    trace := q.pins.all.map Event.configure }

/-- The machine right after reset: a P3 block (log 3) with the model's pins, settle time and callers (logs 4 to 6). -/
def State.reset : State := State.constructed (Params.standard Profile.p3)

end Sys2Proof.Machine
end

