-- ==== Sys2Proof/Machine/Ops.lean ====
section
/-! DEFINITION. The shared operations: the GPIO line space and the backend's calls (20_memory.md), the write-protocol
encoder with its six phases (40_write_protocol.md), the sequencer (R46), registers, and the beginning and end of a
transaction, of which raising RangeError (R262) is one. -/

namespace Sys2Proof.Machine

/-- The outcome of a step of this machine. -/
abbrev Outcome := Host.Outcome State Fault Refusal

/-! ### The GPIO line space -/

/-- The canonical form: pins strictly rising. An undriven line has no entry by type. -/
abbrev Memory.wf (m : Memory) : Prop := (m.map Prod.fst).Pairwise (· < ·)

/-- `PIN_LEVEL[p]`; `none` is `UNDRIVEN` (R48). -/
def Memory.read : Memory → Nat → Option Bool
  | [], _ => none
  | (q, b) :: m, p => if p = q then some b else Memory.read m p

/-- `PIN_LEVEL[p] <- b` (R77). -/
def Memory.write : Memory → Nat → Bool → Memory
  | [], p, b => [(p, b)]
  | (q, c) :: m, p, b =>
    if p < q then (p, b) :: (q, c) :: m
    else if p = q then (p, b) :: m
    else (q, c) :: Memory.write m p b

/-- `for j: PIN_LEVEL[pins[j]] <- levels[j]` (R77). -/
def Memory.writeAll (m : Memory) : List (Nat × Bool) → Memory
  | [] => m
  | (p, b) :: rest => Memory.writeAll (m.write p b) rest

/-- `PIN_DIR[p]` (R47): `OUTPUT` once configured. -/
def State.pinDirOf (s : State) (p : Nat) : PinDir := if p ∈ s.pinDir then .output else .unconfigured

/-- `PIN_LEVEL[p]` (R48). -/
def State.pinLevelOf (s : State) (p : Nat) : Option Bool := s.pinLevel.read p

/-! ### The GPIO backend's calls and the wait -/

/-- `gpio.configure(p, OUTPUT)` (R78). -/
def State.gpioConfigure (s : State) (p : Nat) : State :=
  { s with trace := s.trace ++ [.configure p], pinDir := insertPin p s.pinDir }

/-- `gpio.write(pins, levels)` (R77). It cannot fail (R79). -/
def State.gpioWrite (s : State) (pins : List Nat) (levels : List Bool) : State :=
  { s with trace := s.trace ++ [.write pins levels], pinLevel := s.pinLevel.writeAll (pins.zip levels) }

/-- `sleep(T_SETTLE)` (R140, R143): an event, no clock (R14). -/
def State.sleepSettle (s : State) : State :=
  { s with trace := s.trace ++ [.sleep s.params.tSettle] }

/-! ### The write-protocol encoder -/

/-- `data[0..7]`, least significant bit first (R80). -/
def dataLevels (d : Byte) : List Bool := (List.range 8).map fun b => d.getLsbD b

/-- `mode[0..W-1]`, least significant bit first (R81). -/
def modeLevels (w : ModeWidth) (m : Nat) : List Bool := (List.range w.bits).map fun k => m.testBit k

/-- The level vector: data bits, then mode bits (R82). -/
def wordLevels (w : BusWord) (width : ModeWidth) : List Bool := dataLevels w.data ++ modeLevels width w.mode

/-- The phase after a phase, within a word (R141). -/
def WritePhase.next : WritePhase → Option WritePhase
  | .assert => some .settle
  | .settle => some .strobeHi
  | .strobeHi => some .holdHi
  | .holdHi => some .strobeLo
  | .strobeLo => some .holdLo
  | .holdLo => none

/-- What one phase of a word does (R140, R141). -/
def State.writePhase (s : State) (w : BusWord) : WritePhase → State
  | .assert => s.gpioWrite s.params.pins.wordPins (wordLevels w s.params.profile.modeWidth)
  | .settle => s.sleepSettle
  | .strobeHi => s.gpioWrite [s.params.pins.strobe] [true]
  | .holdHi => s.sleepSettle
  | .strobeLo => s.gpioWrite [s.params.pins.strobe] [false]
  | .holdLo => s.sleepSettle

/-- `emit_word`: the six phases of one word, in order (R140, R141). -/
def State.emitWord (s : State) (w : BusWord) : State :=
  [WritePhase.assert, .settle, .strobeHi, .holdHi, .strobeLo, .holdLo].foldl (fun u ph => u.writePhase w ph) s

/-- Whether a pin is one of the block's lines (R88). -/
def State.mapped (s : State) (p : Nat) : Bool := p ∈ s.params.pins.all

/-! ### Registers -/

/-- `REG <- v` (R19). -/
def State.applyWrite (s : State) : RegWrite → State
  | .bucket v => { s with bucket := v }
  | .offsetCoarse v => { s with offsetCoarse := v }
  | .window v => { s with window := v }
  | .laserSrc v => { s with laserSrc := v }
  | .ringRfSrc v => { s with ringRfSrc := v }
  | .phaseCnt v => { s with phaseCnt := v }
  | .offsetFine v => { s with offsetFine := v }
  | .avgPhaseAdv v => { s with avgPhaseAdv := v }

/-- The register writes of a commit, in order (R92). -/
def State.applyWrites (s : State) (ws : List RegWrite) : State := ws.foldl State.applyWrite s

/-! ### The sequencer -/

/-- The end of a transaction: register writes, then the lock is released and the caller has its result
(R20, R45, R46). -/
def State.finish (s : State) (t : Txn) : State :=
  let u := s.applyWrites t.commit
  { u with seq := .idle, lock := .free, replies := u.replies ++ [(t.caller, t.result)] }

/-- After `HOLD_LO`: "the sequencer either emits the next planned word from `ASSERT`, or commits the transaction if
this was the last word" (R141). -/
def State.afterWord (s : State) (t : Txn) : State :=
  if t.k + 1 < t.words.length then { s with seq := .busy { t with k := t.k + 1, wph := .assert } }
  else s.finish t

/-- One step of the sequencer: one write phase (R141). Idle, it does nothing. -/
def State.seqStep (s : State) : State :=
  match s.seq with
  | .idle => s
  | .busy t =>
    match t.words[t.k]? with
    | none => s.finish t
    | some w =>
      let u := s.writePhase w t.wph
      match t.wph.next with
      | some ph => { u with seq := .busy { t with wph := ph } }
      | none => u.afterWord t

/-- `n` steps of the sequencer. -/
def State.seqSteps (s : State) : Nat → State
  | 0 => s
  | n + 1 => s.seqStep.seqSteps n

/-! ### Transactions -/

/-- What the plan part of an operation computes (R20): a refusal, an error, or the words (value and command), the
register writes and the result. -/
inductive Plan where
  | refuse (r : Refusal)
  | error (cause : RangeCause) (arg : Int)
  | perform (words : List (Nat × Command)) (commit : List RegWrite) (result : Reply)
  deriving DecidableEq, Repr

/-- The bus words of a plan; `none` if the Mode Table lacks a command of it (R103). -/
def encodeWords (p : Profile) : List (Nat × Command) → Option (List BusWord)
  | [] => some []
  | (v, c) :: rest =>
    match p.busWord v c, encodeWords p rest with
    | some w, some ws => some (w :: ws)
    | _, _ => none

/-- A caller takes the lock (R45). -/
def State.acquire (s : State) : State := { s with lock := .held s.turn }

/-- RangeError is raised (R262, R264, R273): no word, no register write, the lock released, and the caller that holds
the turn gets `Err(RangeError(cause))`. This is the block's one exception; it saves no state, and the return from it is
this same return to the caller. -/
def State.raiseRangeError (s : State) (cause : RangeCause) (arg : Int) : State :=
  { s with lock := .free, seq := .idle, replies := s.replies ++ [(s.turn, .rangeError cause arg)] }

/-- The sequencer takes a planned transaction (R46); one without words commits at once. -/
def State.startTxn (s : State) (t : Txn) : State :=
  if t.words = [] then s.finish t else { s with seq := .busy t }

/-- A planned operation is performed, under the lock: the words in order, six sequencer steps each, then the commit
(R20, R141). -/
def State.perform (s : State) (op : Instr) (plan : Plan) : Outcome :=
  match plan with
  | .refuse r => .refused r
  | .error cause arg => .next (s.raiseRangeError cause arg)
  | .perform words commit result =>
    match encodeWords s.params.profile words with
    | none => .refused (.badConfig .commandMissing)
    | some ws =>
      .next ((s.startTxn
        { caller := s.turn, op := op, words := ws, k := 0, wph := .assert, commit := commit,
          result := result }).seqSteps (6 * ws.length))

/-- A host operation: "one indivisible transaction" (R4). It takes the lock for its full duration (R45), plans, and
performs. If another call holds the lock, the call waits (R270). -/
def State.transaction (s : State) (op : Instr) (plan : State → Plan) : Outcome :=
  match s.lock, s.seq with
  | .free, .idle => s.acquire.perform op (plan s.acquire)
  | _, _ => .next { s with pending := s.pending ++ [{ caller := s.turn, op := op }] }

/-- The presence check, which comes before every other (R272). -/
def Plan.ifPresent (present : Bool) (plan : Plan) : Plan := if present then plan else .refuse .opAbsent

/-! ### Bus commands -/

/-- A bus command of the opcode table, in a block of its revision: `emit_word(d, name)` (R140). -/
def State.busCommand (s : State) (r : Revision) (c : Command) (d : Byte) : Outcome :=
  if r = s.params.profile.revision then
    match s.params.profile.modeField c with
    | none => .refused .otherRevision
    | some m => .next (s.emitWord { data := d, mode := m })
  else .refused .otherRevision

end Sys2Proof.Machine
end

