-- ==== Sys2Proof/Machine/Operands.lean ====
section
/-! DEFINITION. The operand forms of the host operations: the argument domains (R110, R268), the delay quantizer's
search (R161), the substring match of the selectors (R231) and the canonical strings (R233, R239). -/

namespace Sys2Proof.Machine

/-- A u8 argument: the integer, if it is one in 0..255 (R110, D12). -/
def argU8 : Num → Option Nat
  | .fin q => if q.den = 1 ∧ 0 ≤ q.num ∧ q.num ≤ 255 then some q.num.toNat else none
  | .nan => none
  | .posInf => none
  | .negInf => none

/-- An integer argument; "a float with an integral value is taken as that integer" (R201). -/
def argInt : Num → Option Int
  | .fin q => if q.den = 1 then some q.num else none
  | .nan => none
  | .posInf => none
  | .negInf => none

/-- A delay argument: finite and at least 0 (R160, D10). -/
def argDelay : Num → Option Rat
  | .fin q => if 0 ≤ q.num then some q else none
  | .nan => none
  | .posInf => none
  | .negInf => none

/-- A finite real argument (R250, D27). -/
def argReal : Num → Option Rat
  | .fin q => some q
  | .nan => none
  | .posInf => none
  | .negInf => none

/-- The plan of an operation on an argument in its domain, else BAD_ARG (R268). -/
def Plan.withArg {α : Type} (arg : Option α) (plan : α → Plan) : Plan :=
  match arg with
  | none => .refuse .badArg
  | some a => plan a

/-- `|v - x|` in units of `1 / x.den`: the distance of a table value from a request, exact, scaled by the request's
denominator (R18, R161; log 13). -/
def scaledDist (v : Nat) (x : Rat) : Nat := ((v : Int) * x.den - x.num).natAbs

/-- The ascending scan of R161 from index `i` on, with the best index and its value so far. The comparison is strict:
an equal distance keeps the earlier index. -/
def scanTable (x : Rat) : List Nat → Nat → Nat × Nat → Nat × Nat
  | [], _, best => best
  | v :: vs, i, best =>
    if scaledDist v x < scaledDist best.2 x then scanTable x vs (i + 1) (i, v)
    else scanTable x vs (i + 1) best

/-- `quantize(x)`: index and achieved delay (R161). -/
def quantize (rom : List Nat) (x : Rat) : Nat × Nat :=
  match rom with
  | [] => (0, 0)
  | v :: vs => scanTable x vs 1 (0, v)

/-- ASCII case folding, A–Z to a–z; every other character unchanged (R231, D20). -/
def foldChar (c : Char) : Char := if 'A' ≤ c ∧ c ≤ 'Z' then Char.ofNat (c.toNat + 32) else c

/-- Whether `t` begins with `k`. -/
def startsWith : Text → Text → Bool
  | _, [] => true
  | [], _ :: _ => false
  | c :: cs, d :: ds => c = d && startsWith cs ds

/-- Whether `k` stands in `t` as a contiguous run. -/
def containsRun (k : Text) : Text → Bool
  | [] => startsWith [] k
  | c :: cs => startsWith (c :: cs) k || containsRun k cs

/-- `contains_ci(s, k)` (R231): both strings folded. -/
def containsCi (t k : Text) : Bool := containsRun (k.map foldChar) (t.map foldChar)

/-- The source a laser-trigger string selects: COINCIDENCE on a match of "coin", else MRF (R230). -/
def laserOf (t : Text) : LaserSrc :=
  if containsCi t ['c', 'o', 'i', 'n'] then .coincidence else .mrf

/-- The source a ring-RF string selects: REV_CLOCK on a match of "REV", else 100MHZ (R236). -/
def ringOf (t : Text) : RingRfSrc :=
  if containsCi t ['R', 'E', 'V'] then .revClock else .mhz100

/-- `LASER_BIT[src]` (R230). -/
def laserBitOf (b : LaserBits) : LaserSrc → Nat
  | .coincidence => b.coincidence.toNat
  | .mrf => b.mrf.toNat

/-- `RING_BIT[src]` (R236). -/
def ringBitOf (b : RingBits) : RingRfSrc → Nat
  | .revClock => b.revClock.toNat
  | .mhz100 => b.mhz100.toNat

/-- The canonical string of a laser-trigger source (R233). -/
def LaserSrc.text : LaserSrc → Text
  | .coincidence => ['C', 'O', 'I', 'N', 'C', 'I', 'D', 'E', 'N', 'C', 'E']
  | .mrf => ['M', 'R', 'F']

/-- The canonical string of a ring-RF source (R239). -/
def RingRfSrc.text : RingRfSrc → Text
  | .revClock => ['R', 'E', 'V', '_', 'C', 'L', 'O', 'C', 'K']
  | .mhz100 => ['1', '0', '0', 'M', 'H', 'Z']

end Sys2Proof.Machine
end

