-- ==== Sys2Proof/Machine/Flags.lean ====
section
/-! DEFINITION. The conditions the block's operations test. The block has no flag or condition-code register (R31);
these are its range checks (R180, R185, R202) and the codes of their causes (R261). -/

namespace Sys2Proof.Machine

/-- The code of a RangeError cause (R261). -/
def RangeCause.code : RangeCause → Nat
  | .bucket => 1
  | .coarse => 2
  | .fineNegative => 3
  | .fineStep => 4
  | .quad => 5

/-- `bucket * BUCKET_STEP + coarse_offset`, in exact integer arithmetic (R180, R185). -/
def bucketSum (p : Profile) (bucket coarse : Nat) : Nat := bucket * p.bucketStep + coarse

/-- A value past the eight data bits (R180). -/
def exceedsByte (v : Nat) : Bool := 255 < v

/-- `|delta| > FINE_STEP_BOUND` (R202). -/
def exceedsStep (p : Profile) (delta : Int) : Bool := p.fineStepBound < (delta.natAbs : Int)

/-- `delta` in DIRECT: the target less the count, exact and signed (R204). -/
def directDelta (t count : Int) : Int := t - count

/-- `q = t div QUAD_COUNTS` (R205); a free value where QUAD_COUNTS is not positive (R18; log 32). -/
def quadrantOf (p : Profile) (t : Int) : Int :=
  if 0 < p.quadCounts then t / p.quadCounts else Config.quadQuotient t p.quadCounts

/-- `t mod QUAD_COUNTS`: the fine count (R205); a free value where QUAD_COUNTS is not positive (R18; log 32). -/
def fineCountOf (p : Profile) (t : Int) : Int :=
  if 0 < p.quadCounts then t % p.quadCounts else Config.quadRemainder t p.quadCounts

/-- `delta` in QUADRATURE, taken on the fine counts (R205, conflict C8). -/
def quadDelta (p : Profile) (t count : Int) : Int := fineCountOf p t - fineCountOf p count

/-- The checks of `set_offset_fine` in DIRECT, in the order of R202. -/
def directError (p : Profile) (t count : Int) : Option RangeCause :=
  if t < 0 then some .fineNegative
  else if exceedsStep p (directDelta t count) then some .fineStep
  else none

/-- The checks of `set_offset_fine` in QUADRATURE, in the order of R202. -/
def quadError (p : Profile) (t count : Int) : Option RangeCause :=
  if t < 0 then some .fineNegative
  else if p.quadBound ≤ quadrantOf p t then some .quad
  else if exceedsStep p (quadDelta p t count) then some .fineStep
  else none

/-- `step(delta)`: `inc_phase` for a positive delta, else `dec_phase`, with the magnitude (R203). -/
def stepWord (delta : Int) : Nat × Command :=
  if 0 < delta then (delta.natAbs, .incPhase) else (delta.natAbs, .decPhase)

end Sys2Proof.Machine
end

