-- ==== Sys2Proof/Machine/Bucket.lean ====
section
/-! DEFINITION. Bucket and coarse-offset arithmetic (42_bucket_offset.md). -/

namespace Sys2Proof.Machine

/-- The plan of `set_bucket(b)` for a u8 `b` (R180). -/
def planSetBucket (s : State) (b : Nat) : Plan :=
  let v := bucketSum s.params.profile b s.offsetCoarse.toNat
  if exceedsByte v then .error .bucket b
  else .perform [(v, .bucket)] [.bucket (BitVec.ofNat 8 b)] .ok

/-- `set_bucket(b)` (R180). -/
def execSetBucket (b : Num) (s : State) : Outcome :=
  s.transaction (.setBucket b) fun u => Plan.withArg (argU8 b) (planSetBucket u)

/-- `get_bucket()` (R183). -/
def execGetBucket (s : State) : Outcome :=
  s.transaction .getBucket fun u => .perform [] [] (.byte u.bucket)

/-- The plan of `set_offset_coarse(c)` for a u8 `c` (R185). -/
def planSetOffsetCoarse (s : State) (c : Nat) : Plan :=
  let v := bucketSum s.params.profile s.bucket.toNat c
  if exceedsByte v then .error .coarse c
  else .perform [(v, .bucket)] [.offsetCoarse (BitVec.ofNat 8 c)] .ok

/-- `set_offset_coarse(c)`, present only with HAS_COARSE (R185). -/
def execSetOffsetCoarse (c : Num) (s : State) : Outcome :=
  s.transaction (.setOffsetCoarse c) fun u =>
    Plan.ifPresent u.params.profile.hasCoarse (Plan.withArg (argU8 c) (planSetOffsetCoarse u))

/-- `get_offset_coarse()`, present only with HAS_COARSE (R188). -/
def execGetOffsetCoarse (s : State) : Outcome :=
  s.transaction .getOffsetCoarse fun u =>
    Plan.ifPresent u.params.profile.hasCoarse (.perform [] [] (.byte u.offsetCoarse))

end Sys2Proof.Machine
end

