-- ==== Sys2Proof/Machine/Bus.lean ====
section
/-! DEFINITION. The sixteen bus commands (R105, R106): each is `emit_word` of its data under its command (R140). -/

namespace Sys2Proof.Machine

/-- P1.bucket: the combined bucket byte (R180). -/
def execP1Bucket (d : Byte) (s : State) : Outcome := s.busCommand .p1 .bucket d

/-- P1.window: the delay-table index (R160). -/
def execP1Window (d : Byte) (s : State) : Outcome := s.busCommand .p1 .window d

/-- P2.bucket: the bucket byte (R180). -/
def execP2Bucket (d : Byte) (s : State) : Outcome := s.busCommand .p2 .bucket d

/-- P2.window: the delay-table index (R160). -/
def execP2Window (d : Byte) (s : State) : Outcome := s.busCommand .p2 .window d

/-- P2.inc_phase: a step up by the magnitude (R203). -/
def execP2IncPhase (d : Byte) (s : State) : Outcome := s.busCommand .p2 .incPhase d

/-- P2.dec_phase: a step down by the magnitude (R203). -/
def execP2DecPhase (d : Byte) (s : State) : Outcome := s.busCommand .p2 .decPhase d

/-- P2.pause_trig: 1 suspends triggering, 0 resumes it (R205). -/
def execP2PauseTrig (d : Byte) (s : State) : Outcome := s.busCommand .p2 .pauseTrig d

/-- P2.laser_trig_source: the selector bit (R230). -/
def execP2LaserTrigSource (d : Byte) (s : State) : Outcome := s.busCommand .p2 .laserTrigSource d

/-- P2.quad_sel: the quadrant (R205). -/
def execP2QuadSel (d : Byte) (s : State) : Outcome := s.busCommand .p2 .quadSel d

/-- P3.bucket: the combined bucket byte (R180, R185). -/
def execP3Bucket (d : Byte) (s : State) : Outcome := s.busCommand .p3 .bucket d

/-- P3.window: the delay-table index (R160). -/
def execP3Window (d : Byte) (s : State) : Outcome := s.busCommand .p3 .window d

/-- P3.inc_phase: a step up by the magnitude (R203). -/
def execP3IncPhase (d : Byte) (s : State) : Outcome := s.busCommand .p3 .incPhase d

/-- P3.dec_phase: a step down by the magnitude (R203). -/
def execP3DecPhase (d : Byte) (s : State) : Outcome := s.busCommand .p3 .decPhase d

/-- P3.pause_trig: 1 suspends triggering (R204). -/
def execP3PauseTrig (d : Byte) (s : State) : Outcome := s.busCommand .p3 .pauseTrig d

/-- P3.laser_trig_source: the selector bit (R230). -/
def execP3LaserTrigSource (d : Byte) (s : State) : Outcome := s.busCommand .p3 .laserTrigSource d

/-- P3.ring_rf_source: the selector bit (R236). -/
def execP3RingRfSource (d : Byte) (s : State) : Outcome := s.busCommand .p3 .ringRfSource d

end Sys2Proof.Machine
end

