-- ==== Sys2Proof/Machine/Configuration.lean ====
section
/-! DEFINITION. The configuration operation (45_configuration_ops.md). -/

namespace Sys2Proof.Machine

/-- The plan of `set_avg_phase_advance(x)` for a finite `x` (R250): stored as given, no word. -/
def planSetAvgPhaseAdvance (x : Rat) : Plan := .perform [] [.avgPhaseAdv x] .unit

/-- `set_avg_phase_advance(x)` (R250, R252). -/
def execSetAvgPhaseAdvance (x : Num) (s : State) : Outcome :=
  s.transaction (.setAvgPhaseAdvance x) fun _ => Plan.withArg (argReal x) planSetAvgPhaseAdvance

end Sys2Proof.Machine
end

