-- ==== Sys2Proof/Machine/Phase.lean ====
section
/-! DEFINITION. The phase-offset sequencer (43_phase_sequencer.md), its two variants kept apart. -/

namespace Sys2Proof.Machine

/-- The resume word, where the profile's sequence ends with one (R12 FINE_RESUME; log 20). -/
def resumeWords (p : Profile) : List (Nat × Command) := if p.fineResume then [(0, .pauseTrig)] else []

/-- The register writes of a successful `set_offset_fine(t)` (R200). -/
def fineCommit (t : Int) : List RegWrite := [.phaseCnt t, .offsetFine t]

/-- `set_offset_fine_direct(t)` (R204): suspend, step. -/
def planOffsetFineDirect (s : State) (t : Int) : Plan :=
  match directError s.params.profile t s.phaseCnt with
  | some cause => .error cause t
  | none =>
    .perform ([(1, .pauseTrig), stepWord (directDelta t s.phaseCnt)] ++ resumeWords s.params.profile)
      (fineCommit t) (.okInt t)

/-- `set_offset_fine_quad(t)` (R205): suspend, step, quadrant, resume. -/
def planOffsetFineQuad (s : State) (t : Int) : Plan :=
  match quadError s.params.profile t s.phaseCnt with
  | some cause => .error cause t
  | none =>
    .perform ([(1, .pauseTrig), stepWord (quadDelta s.params.profile t s.phaseCnt),
        ((quadrantOf s.params.profile t).toNat, .quadSel)] ++ resumeWords s.params.profile)
      (fineCommit t) (.okInt t)

/-- The plan of `set_offset_fine(t)` for an integer `t`: the variant decides (R200). -/
def planSetOffsetFine (s : State) (t : Int) : Plan :=
  match s.params.profile.fineVariant with
  | .none => .refuse .opAbsent
  | .direct => planOffsetFineDirect s t
  | .quadrature => planOffsetFineQuad s t

/-- Whether the fine-phase operations are present (R111). -/
def hasFine (p : Profile) : Bool := p.fineVariant ≠ .none

/-- `set_offset_fine(t)` (R200, R201). -/
def execSetOffsetFine (t : Num) (s : State) : Outcome :=
  s.transaction (.setOffsetFine t) fun u =>
    Plan.ifPresent (hasFine u.params.profile) (Plan.withArg (argInt t) (planSetOffsetFine u))

/-- `get_offset_fine()` (R210). -/
def execGetOffsetFine (s : State) : Outcome :=
  s.transaction .getOffsetFine fun u =>
    Plan.ifPresent (hasFine u.params.profile) (.perform [] [] (.int u.offsetFine))

end Sys2Proof.Machine
end

