-- ==== Sys2Proof/Machine/Selectors.lean ====
section
/-! DEFINITION. The source selectors (44_source_selectors.md). No string is ever refused (R232). -/

namespace Sys2Proof.Machine

/-- The plan of `set_laser_trig(text)` (R230). -/
def planSetLaserTrig (s : State) (text : Text) : Plan :=
  .perform [(laserBitOf s.params.laserBit (laserOf text), .laserTrigSource)] [.laserSrc (laserOf text)] .unit

/-- `set_laser_trig(text)`, present with HAS_LASER (R230). -/
def execSetLaserTrig (text : Text) (s : State) : Outcome :=
  s.transaction (.setLaserTrig text) fun u =>
    Plan.ifPresent u.params.profile.hasLaser (planSetLaserTrig u text)

/-- `get_laser_trig()`, present with HAS_LASER (R233). -/
def execGetLaserTrig (s : State) : Outcome :=
  s.transaction .getLaserTrig fun u =>
    Plan.ifPresent u.params.profile.hasLaser (.perform [] [] (.str u.laserSrc.text))

/-- The plan of `set_ring_rf_source(text)` (R236). -/
def planSetRingRfSource (s : State) (text : Text) : Plan :=
  .perform [(ringBitOf s.params.ringBit (ringOf text), .ringRfSource)] [.ringRfSrc (ringOf text)] .unit

/-- `set_ring_rf_source(text)`, present with HAS_RING_RF (R236). -/
def execSetRingRfSource (text : Text) (s : State) : Outcome :=
  s.transaction (.setRingRfSource text) fun u =>
    Plan.ifPresent u.params.profile.hasRingRf (planSetRingRfSource u text)

/-- `get_ring_rf_source()`, present with HAS_RING_RF (R239). -/
def execGetRingRfSource (s : State) : Outcome :=
  s.transaction .getRingRfSource fun u =>
    Plan.ifPresent u.params.profile.hasRingRf (.perform [] [] (.str u.ringRfSrc.text))

end Sys2Proof.Machine
end

