-- ==== Sys2Proof/Machine/Window.lean ====
section
/-! DEFINITION. The coincidence window (41_window_quantizer.md). -/

namespace Sys2Proof.Machine

/-- The plan of `set_window(x)` for a delay `x` (R160): the word carries the index, the register takes the achieved
value. -/
def planSetWindow (s : State) (x : Rat) : Plan :=
  let r := quantize s.delayRom x
  .perform [(r.1, .window)] [.window r.2] .unit

/-- `set_window(x)` (R160). -/
def execSetWindow (x : Num) (s : State) : Outcome :=
  s.transaction (.setWindow x) fun u => Plan.withArg (argDelay x) (planSetWindow u)

/-- `get_window()` (R163): the achieved value, as a real (D31). -/
def execGetWindow (s : State) : Outcome :=
  s.transaction .getWindow fun u => .perform [] [] (.real (u.window : Rat))

end Sys2Proof.Machine
end

