-- ==== Sys2Proof/Machine/Dispatch.lean ====
section
/-! DEFINITION. The dispatch: one arm per constructor of Instr, each one direct call of its meaning. -/

namespace Sys2Proof.Machine

def exec (i : Instr) (s : State) : Host.Outcome State Fault Refusal :=
  match i with
  | .p1Bucket d => Sys2Proof.Machine.execP1Bucket d s
  | .p1Window d => Sys2Proof.Machine.execP1Window d s
  | .p2Bucket d => Sys2Proof.Machine.execP2Bucket d s
  | .p2Window d => Sys2Proof.Machine.execP2Window d s
  | .p2IncPhase d => Sys2Proof.Machine.execP2IncPhase d s
  | .p2DecPhase d => Sys2Proof.Machine.execP2DecPhase d s
  | .p2PauseTrig d => Sys2Proof.Machine.execP2PauseTrig d s
  | .p2LaserTrigSource d => Sys2Proof.Machine.execP2LaserTrigSource d s
  | .p2QuadSel d => Sys2Proof.Machine.execP2QuadSel d s
  | .p3Bucket d => Sys2Proof.Machine.execP3Bucket d s
  | .p3Window d => Sys2Proof.Machine.execP3Window d s
  | .p3IncPhase d => Sys2Proof.Machine.execP3IncPhase d s
  | .p3DecPhase d => Sys2Proof.Machine.execP3DecPhase d s
  | .p3PauseTrig d => Sys2Proof.Machine.execP3PauseTrig d s
  | .p3LaserTrigSource d => Sys2Proof.Machine.execP3LaserTrigSource d s
  | .p3RingRfSource d => Sys2Proof.Machine.execP3RingRfSource d s
  | .setBucket b => Sys2Proof.Machine.execSetBucket b s
  | .getBucket => Sys2Proof.Machine.execGetBucket s
  | .setWindow x => Sys2Proof.Machine.execSetWindow x s
  | .getWindow => Sys2Proof.Machine.execGetWindow s
  | .setLaserTrig text => Sys2Proof.Machine.execSetLaserTrig text s
  | .getLaserTrig => Sys2Proof.Machine.execGetLaserTrig s
  | .setRingRfSource text => Sys2Proof.Machine.execSetRingRfSource text s
  | .getRingRfSource => Sys2Proof.Machine.execGetRingRfSource s
  | .setOffsetFine t => Sys2Proof.Machine.execSetOffsetFine t s
  | .getOffsetFine => Sys2Proof.Machine.execGetOffsetFine s
  | .setOffsetCoarse c => Sys2Proof.Machine.execSetOffsetCoarse c s
  | .getOffsetCoarse => Sys2Proof.Machine.execGetOffsetCoarse s
  | .setAvgPhaseAdvance x => Sys2Proof.Machine.execSetAvgPhaseAdvance x s

end Sys2Proof.Machine
end

