-- ==== Sys2Proof/Machine/HostInterface.lean ====
section
/-! DEFINITION. The host interface (R270): callers submit calls, and waiting calls get the lock in an order that is left
open (R93). -/

namespace Sys2Proof.Machine

/-- Whether caller `c` has an outstanding call: one that waits, or one in progress (R270). -/
def State.outstanding (s : State) (c : Nat) : Bool :=
  s.pending.any (fun w => w.caller = c) || s.lock = .held c

/-- A caller makes a call. It is one of the `N_CALLERS` callers (R17), has no other call outstanding (R270, D22), and
calls a host operation (R148); else the interaction does not exist. -/
def State.submit (s : State) (c : Nat) (i : Instr) : Option State :=
  if c < s.params.nCallers ∧ s.outstanding c = false ∧ i.isHostOp = true then
    some { s with pending := s.pending ++ [{ caller := c, op := i }] }
  else none

/-- The `n`-th element of a list and the list without it. -/
def takeAt : Nat → List Call → Option (Call × List Call)
  | _, [] => none
  | 0, c :: cs => some (c, cs)
  | n + 1, c :: cs =>
    match takeAt n cs with
    | none => none
    | some (d, ds) => some (d, c :: ds)

/-- The lock picks one of the waiting calls, any one (R93, R272): with several, the free value `Config.lockChoice` says
which (log 8). The call leaves the list and its caller has the turn. -/
def State.takeCall (s : State) : Option (Call × State) :=
  match s.pending with
  | [] => none
  | [c] => some (c, { s with pending := [], turn := c.caller })
  | c :: d :: cs =>
    match takeAt (Config.lockChoice s.freeCount % (cs.length + 2)) (c :: d :: cs) with
    | none => none
    | some (e, rest) => some (e, { s with pending := rest, turn := e.caller, freeCount := s.freeCount + 1 })

end Sys2Proof.Machine
end

