-- ==== Sys2Proof/Machine/Fetch.lean ====
section
/-! DEFINITION. What a step runs next. The block has no program counter (R31): while the sequencer is busy, the next
instruction is the bus word it is at (R46), decoded by the mode field (R106); while it is idle, it is the waiting call
that gets the lock (R90, R93). -/

namespace Sys2Proof.Machine

/-- What `fetch` finds. -/
inductive Fetched where
  /-- nothing to run: the block waits for a call (R293) -/
  | wait
  /-- a host call that gets the lock, and the state without it in the waiting list -/
  | call (i : Instr) (s : State)
  /-- the sequencer is at the start of a bus word it may run (`emitsWord`), which decodes to a bus command -/
  | word (t : Txn) (i : Instr)
  /-- the sequencer is inside a word, or at a word the opcode table has no row for: its next write phase (R141) -/
  | phase
  | stop (f : Fault)
  | refuse (r : Refusal)
  deriving DecidableEq, Repr

/-- The higher index of each of the 32 pairs of table entries with one value (R73, R108). -/
def higherDuplicates : List Nat :=
  [33, 37, 41, 45, 72, 73, 88, 89, 97, 101, 105, 109, 136, 138, 140, 142, 161, 165, 168, 169, 170, 172, 173, 174,
   200, 201, 216, 217, 225, 229, 233, 237]

/-- Whether a data value is none of those listed as never emitted under a command (R108, and R102 for the step bound): a
bit under `pause_trig` and the selectors, a quadrant below QUAD_BOUND, no higher index of a duplicate pair, no increment of
0, and no step past FINE_STEP_BOUND or, in QUADRATURE, past QUAD_COUNTS - 1. DESIGN CHOICE (log 33), safe: R108's list
decides, so `(0, pause_trig)` passes in a block with FINE_RESUME false too, although R300 says that no operation of such a
block emits it. -/
def emittable (p : Profile) (c : Command) (d : Byte) : Bool :=
  match c with
  | .bucket => true
  | .window => d.toNat ∉ higherDuplicates
  | .incPhase => d ≠ 0 ∧ (d.toNat : Int) ≤ p.fineStepBound ∧ (p.fineVariant = .quadrature → (d.toNat : Int) < p.quadCounts)
  | .decPhase => (d.toNat : Int) ≤ p.fineStepBound ∧ (p.fineVariant = .quadrature → (d.toNat : Int) < p.quadCounts)
  | .pauseTrig | .laserTrigSource | .ringRfSource => d.toNat ≤ 1
  | .quadSel => (d.toNat : Int) < p.quadBound

/-- Whether the sequencer may run a word: its mode code is in the Mode Table (R107) and its data is not listed as never
emitted under that command (R108; log 33). -/
def emitsWord (p : Profile) (w : BusWord) : Bool :=
  match p.commandOf w.mode with
  | none => false
  | some c => emittable p c w.data

/-- The instruction the sequencer is at, within transaction `t`. A word with an absent mode code, or with data listed as
never emitted, is a fault (I5, R107, R108; logs 14 and 33). -/
def State.fetchWord (s : State) (t : Txn) : Fetched :=
  match t.words[t.k]? with
  | none => .phase
  | some w =>
    if t.wph = .assert then
      match s.params.profile.commandOf w.mode with
      | none => .stop .modeCodeAbsent
      | some c =>
        if emittable s.params.profile c w.data then
          match decodeWord s.params.profile w with
          | .ok i => .word t i
          | .error _ => .phase
        else .stop .dataNeverEmitted
    else .phase

/-- The waiting call that gets the lock. -/
def State.fetchCall (s : State) : Fetched :=
  match s.takeCall with
  | none => .wait
  | some (c, u) => if c.op.isHostOp then .call c.op u else .refuse .notAHostOperation

/-- What the machine runs next. -/
def State.fetch (s : State) : Fetched :=
  match s.seq, s.lock with
  | .busy t, _ => s.fetchWord t
  | .idle, .free => s.fetchCall
  | .idle, .held _ => .stop .lockHeldWhileIdle

/-- A host operation whose transaction emits a command (R105); it stands in `SEQ` where a word is placed from outside
(log 16). -/
def emitterOf : Command → Instr
  | .bucket => .setBucket (.fin 0)
  | .window => .setWindow (.fin 0)
  | .incPhase => .setOffsetFine (.fin 0)
  | .decPhase => .setOffsetFine (.fin 0)
  | .pauseTrig => .setOffsetFine (.fin 0)
  | .quadSel => .setOffsetFine (.fin 0)
  | .laserTrigSource => .setLaserTrig []
  | .ringRfSource => .setRingRfSource []

/-- The state as a block of another profile, with the model's pins for it configured (log 16). -/
def State.asBlockOf (s : State) (p : Profile) : State :=
  { s with
    params := { s.params with profile := p, pins := PinMap.standard p.modeWidth }
    pinDir := (State.constructed (Params.standard p)).pinDir }

/-- A transaction of one word, of caller 0, with nothing to commit (log 16). -/
def oneWordTxn (p : Profile) (w : BusWord) : Txn where
  caller := 0
  op := emitterOf ((p.commandOf w.mode).getD .bucket)
  words := [w]
  k := 0
  wph := .assert
  commit := []
  result := .unit

/-- The block a table word is placed in: `s` itself if its decoder reads the word as the table's revision `r` does, else
`s` as a block of that revision, with its pins configured (log 16). -/
def State.blockFor (s : State) (r : Revision) (w : BusWord) : State :=
  match decodeWord s.params.profile w, decodeWord r.profile w with
  | .ok i, .ok j => if i = j then s else s.asBlockOf r.profile
  | _, _ => s.asBlockOf r.profile

/-- A table word placed where the sequencer emits its next word. -/
def State.placeWord (s : State) (nbits w : Nat) : State :=
  let u := match tableRevision nbits w with
    | some r => s.blockFor r (wordOfBits w)
    | none => s
  { u with lock := .held 0, seq := .busy (oneWordTxn u.params.profile (wordOfBits w)) }

end Sys2Proof.Machine
end

