-- ==== Sys2Proof/Machine/Step.lean ====
section
/-! DEFINITION. One step of the machine: one instruction of the opcode table. Idle, it is a host operation's whole
transaction (R4, R90; log 9); busy, it is the bus word the sequencer is at, after which the sequencer goes on to the next
word or commits (R141). -/

namespace Sys2Proof.Machine

/-- One step. -/
def step (s : State) : Host.Outcome State Fault Refusal :=
  match s.fetch with
  | .wait => .next s
  | .call i u => exec i u
  | .word t i =>
    match exec i s with
    | .next u => .next (u.afterWord t)
    | .fault f => .fault f
    | .refused r => .refused r
  | .phase => .next s.seqStep
  | .stop f => .fault f
  | .refuse r => .refused r

/-- `s` with the table word placed as the word the sequencer emits next (log 16). -/
def State.withFetchWord (s : State) (nbits w : Nat) : State := s.placeWord nbits w

end Sys2Proof.Machine
end

