-- ==== Sys2Proof/Machine/Construct.lean ====
section
/-! DEFINITION. Construction, the block's only reset (70_reset_and_hazards.md): the checks of R269, then the registers
and the configure calls of R290. -/

namespace Sys2Proof.Machine

/-- The codes a Mode Table gives, in the order of R105. -/
def tableCodes (t : ModeTable) : List Nat := Command.all.filterMap t.code

/-- The commands that the operations present in a profile emit (R110, R111). -/
def neededCommands (p : Profile) : List Command :=
  [.bucket, .window]
    ++ (if p.hasLaser then [.laserTrigSource] else [])
    ++ (if p.hasRingRf then [.ringRfSource] else [])
    ++ (if p.fineVariant = .none then [] else [.incPhase, .decPhase, .pauseTrig])
    ++ (if p.fineVariant = .quadrature then [.quadSel] else [])

/-- The first defect of a set of construction parameters, in the order of R269. -/
def configDefect (q : Params) : Option ConfigDefect :=
  if q.pins.dataPins.length ≠ 8 then some .dataPinCount
  else if q.pins.modePins.length ≠ q.profile.modeWidth.bits then some .modePinCount
  else if ¬ q.pins.all.Nodup then some .pinTwice
  else if ¬ ∀ m ∈ tableCodes q.profile.modeTable, m < 2 ^ q.profile.modeWidth.bits then some .codeTooWide
  else if ¬ (tableCodes q.profile.modeTable).Nodup then some .codeTwice
  else if ¬ ∀ c ∈ neededCommands q.profile, (q.profile.modeTable.code c).isSome then some .commandMissing
  else if q.tSettle < 0 then some .negativeSettle
  else none

/-- `construct(...)` (R290): refuse BAD_CONFIG, or configure every pin in the order data, mode, strobe, with the
registers at their reset values. It emits no word and drives no level. -/
def construct (q : Params) : Outcome :=
  match configDefect q with
  | some d => .refused (.badConfig d)
  | none => .next (q.pins.all.foldl State.gpioConfigure (State.unconfigured q))

end Sys2Proof.Machine
end

