-- ==== Sys2Proof/Machine/Observe.lean ====
section
/-! DEFINITION. What a run is observed by (R147): the trace, the latched words derived from it, and the lower bound on
time its waits give (R305). Nothing here changes the state. -/

namespace Sys2Proof.Machine

/-- The number whose bits, least significant first, are the levels. -/
def levelsValue : List Bool → Nat
  | [] => 0
  | b :: bs => b.toNat + 2 * levelsValue bs

/-- The levels of a list of lines, if every one of them is driven. -/
def readLevels (m : Memory) : List Nat → Option (List Bool)
  | [] => some []
  | p :: ps =>
    match m.read p, readLevels m ps with
    | some b, some bs => some (b :: bs)
    | _, _ => none

/-- The bus word on the lines (R147); `none` while a data or mode line is undriven. -/
def wordOnLines (pins : PinMap) (m : Memory) : Option BusWord :=
  match readLevels m pins.dataPins, readLevels m pins.modePins with
  | some ds, some ms => some { data := BitVec.ofNat 8 (levelsValue ds), mode := levelsValue ms }
  | _, _ => none

/-- What an event does to the line levels (R77, R78). -/
def Memory.afterEvent (m : Memory) : Event → Memory
  | .configure _ => m
  | .write pins levels => m.writeAll (pins.zip levels)
  | .sleep _ => m

/-- The line levels after a trace, from lines that nothing has driven. -/
def lineLevels (trace : List Event) : Memory := trace.foldl Memory.afterEvent []

/-- `LATCHED(TRACE)` (R147) from given line levels on: for each `write([STROBE_PIN], [1])`, the word on the lines at
that event. -/
def latchedFrom (pins : PinMap) : Memory → List Event → List (Option BusWord)
  | _, [] => []
  | m, e :: es =>
    let m' := m.afterEvent e
    if e = .write [pins.strobe] [true] then wordOnLines pins m' :: latchedFrom pins m' es
    else latchedFrom pins m' es

/-- `LATCHED(TRACE)` of a state (R147). -/
def State.latched (s : State) : List (Option BusWord) := latchedFrom s.params.pins [] s.trace

/-- The sum of the waits of a trace: a lower bound on the time it took (R305). -/
def waitTime : List Event → Rat
  | [] => 0
  | .sleep t :: es => t + waitTime es
  | .configure _ :: es => waitTime es
  | .write _ _ :: es => waitTime es

end Sys2Proof.Machine
end

