-- ==== Sys2Proof/Safety.lean ====
section
/-! DEFINITION. The terms the claims are stated in: what driving a list of words leaves, what a served call leaves, and
the invariants of the block (R38, R41, R42, R46, R48, R144, R186, R270). -/

namespace Sys2Proof.Machine

/-! ### Driving words -/

/-- The six events of one word (R140, R141). -/
def wordEvents (q : Params) (w : BusWord) : List Event :=
  [.write q.pins.wordPins (wordLevels w q.profile.modeWidth), .sleep q.tSettle,
   .write [q.pins.strobe] [true], .sleep q.tSettle,
   .write [q.pins.strobe] [false], .sleep q.tSettle]

/-- The line levels a word leaves: its bits on the data and mode lines, the strobe at 0 (R302). -/
def linesAfterWord (q : Params) (m : Memory) (w : BusWord) : Memory :=
  ((m.writeAll (q.pins.wordPins.zip (wordLevels w q.profile.modeWidth))).write q.pins.strobe true).write
    q.pins.strobe false

/-- The state after words have been driven in order (R91): only the trace and the line levels change (R140). -/
def State.driven (s : State) (ws : List BusWord) : State :=
  { s with
    trace := s.trace ++ ws.flatMap (wordEvents s.params)
    pinLevel := ws.foldl (linesAfterWord s.params) s.pinLevel }

/-- The state after the caller that has the turn got its result (R270). -/
def State.replied (s : State) (r : Reply) : State := { s with replies := s.replies ++ [(s.turn, r)] }

/-- The block is free to serve a call (R293). -/
abbrev State.ready (s : State) : Prop := s.lock = .free ∧ s.seq = .idle

/-- Two states agree on every Device State register (R36 to R43). -/
structure State.SameRegs (s t : State) : Prop where
  bucket : t.bucket = s.bucket
  offsetCoarse : t.offsetCoarse = s.offsetCoarse
  window : t.window = s.window
  laserSrc : t.laserSrc = s.laserSrc
  ringRfSrc : t.ringRfSrc = s.ringRfSrc
  phaseCnt : t.phaseCnt = s.phaseCnt
  offsetFine : t.offsetFine = s.offsetFine
  avgPhaseAdv : t.avgPhaseAdv = s.avgPhaseAdv

/-- Two states agree on what is fixed at construction (R32 to R35, R70) and on the pin directions (R47). -/
structure State.SameFixed (s t : State) : Prop where
  params : t.params = s.params
  delayRom : t.delayRom = s.delayRom
  pinDir : t.pinDir = s.pinDir

/-! ### Invariants -/

/-- The parameters passed the checks of construction (R269). -/
abbrev State.Configured (s : State) : Prop := configDefect s.params = none

/-- The delay table is the one construction builds (R291). -/
abbrev State.RomBuilt (s : State) : Prop := s.delayRom = DelayRom.table

/-- The bucket sum fits a byte, and a block without the coarse offset holds none (R186, R37). -/
structure State.BucketOk (s : State) : Prop where
  sum : bucketSum s.params.profile s.bucket.toNat s.offsetCoarse.toNat ≤ 255
  absent : s.params.profile.hasCoarse = false → s.offsetCoarse = 0

/-- `WINDOW` is a table value (R38). -/
abbrev State.WindowOk (s : State) : Prop := s.window ∈ DelayRom.table

/-- `PHASE_CNT` is never negative and equals `OFFSET_FINE`; in QUADRATURE it lies below `QUAD_BOUND * QUAD_COUNTS`
(R41, R42, R211), where both are positive (log 32). -/
structure State.FineOk (s : State) : Prop where
  same : s.offsetFine = s.phaseCnt
  nonneg : 0 ≤ s.phaseCnt
  bound : s.params.profile.fineVariant = .quadrature → 0 < s.params.profile.quadBound →
    0 < s.params.profile.quadCounts → s.phaseCnt < s.params.profile.quadBound * s.params.profile.quadCounts

/-- The state with the register writes of the transaction in progress applied, if there is one (R46 `commit`). -/
def State.settled (s : State) : State :=
  match s.seq with
  | .idle => s
  | .busy t => s.applyWrites t.commit

/-- The register invariants hold, and hold after the commit in progress. -/
structure State.RegsOk (s : State) : Prop where
  configured : s.Configured
  romBuilt : s.RomBuilt
  bucketNow : s.BucketOk
  bucketThen : s.settled.BucketOk
  windowNow : s.WindowOk
  windowThen : s.settled.WindowOk
  fineNow : s.FineOk
  fineThen : s.settled.FineOk

/-- `SEQ = BUSY(c, …)` exactly when `LOCK = HELD(c)` (R46), and then the sequencer is at one of its words. -/
def State.LockOk (s : State) : Prop :=
  match s.seq with
  | .idle => s.lock = .free
  | .busy t => s.lock = .held t.caller ∧ t.k < t.words.length

/-- The strobe line is at 1 exactly between `STROBE_HI` and `STROBE_LO` (R144). -/
def State.StrobeOk (s : State) : Prop :=
  match s.seq with
  | .idle => s.pinLevel.read s.params.pins.strobe ≠ some true
  | .busy t =>
    if t.wph = .holdHi ∨ t.wph = .strobeLo then s.pinLevel.read s.params.pins.strobe = some true
    else s.pinLevel.read s.params.pins.strobe ≠ some true

/-- The line levels are those the trace leaves (R77), in canonical form. -/
structure State.LinesOk (s : State) : Prop where
  canonical : Memory.wf s.pinLevel
  traced : lineLevels s.trace = s.pinLevel

/-- Every mapped pin is an output (R47). -/
abbrev State.PinsOut (s : State) : Prop := ∀ p ∈ s.params.pins.all, s.pinDirOf p = .output

/-- The calls outstanding are those of distinct callers of the block, each for a host operation (R270). -/
structure State.CallsOk (s : State) : Prop where
  distinct : (s.pending.map Call.caller).Nodup
  known : ∀ w ∈ s.pending, w.caller < s.params.nCallers
  hostOps : ∀ w ∈ s.pending, w.op.isHostOp = true
  holder : ∀ c, s.lock = .held c → c ∉ s.pending.map Call.caller

/-! ### Observations -/

/-- The data of the last latched word with a given mode code, if one was latched (R187, R300). -/
def State.lastLatched (s : State) (m : Nat) : Option Byte :=
  (((s.latched.filterMap id).filter fun w => w.mode = m).getLast?).map BusWord.data

/-- The last `bucket` word latched, if any, carries the sum of the bucket registers (R187). -/
def State.BucketLatched (s : State) : Prop :=
  ∀ m, s.params.profile.modeField .bucket = some m → ∀ d, s.lastLatched m = some d →
    d.toNat = bucketSum s.params.profile s.bucket.toNat s.offsetCoarse.toNat

/-- Every value the phase sequencer of a profile computes fits a word's eight data bits (R102), as the spec's literals do. -/
def ValuesFit (p : Profile) : Prop :=
  match p.fineVariant with
  | .none => True
  | .direct => p.fineStepBound ≤ 255
  | .quadrature => 0 < p.quadCounts ∧ (p.quadCounts ≤ 256 ∨ p.fineStepBound ≤ 255) ∧ p.quadBound ≤ 256

/-- How many words a successful call emits (R112), with the resume word counted where FINE_RESUME is set (R12, log 20). -/
def wordCount (p : Profile) : Instr → Nat
  | .setBucket _ | .setWindow _ | .setLaserTrig _ | .setRingRfSource _ | .setOffsetCoarse _ => 1
  | .setOffsetFine _ => (if p.fineVariant = .quadrature then 3 else 2) + (if p.fineResume then 1 else 0)
  | .getBucket | .getWindow | .getLaserTrig | .getRingRfSource | .getOffsetFine | .getOffsetCoarse
  | .setAvgPhaseAdvance _ => 0
  | .p1Bucket _ | .p1Window _ | .p2Bucket _ | .p2Window _ | .p2IncPhase _ | .p2DecPhase _ | .p2PauseTrig _
  | .p2LaserTrigSource _ | .p2QuadSel _ | .p3Bucket _ | .p3Window _ | .p3IncPhase _ | .p3DecPhase _
  | .p3PauseTrig _ | .p3LaserTrigSource _ | .p3RingRfSource _ => 1

/-- The words a successful call emits, value and command in order: the "Words" column of R110, with the words of
`set_offset_fine` as R204 and R205 list them and the resume word where FINE_RESUME is set (R12, log 20). -/
def plannedWords (s : State) : Instr → List (Nat × Command)
  | .setBucket b =>
    [(((argU8 b).getD 0) * s.params.profile.bucketStep + s.offsetCoarse.toNat, .bucket)]
  | .setOffsetCoarse c =>
    [(s.bucket.toNat * s.params.profile.bucketStep + (argU8 c).getD 0, .bucket)]
  | .setWindow x => [((quantize s.delayRom ((argDelay x).getD 0)).1, .window)]
  | .setLaserTrig text => [(laserBitOf s.params.laserBit (laserOf text), .laserTrigSource)]
  | .setRingRfSource text => [(ringBitOf s.params.ringBit (ringOf text), .ringRfSource)]
  | .setOffsetFine t =>
    [(1, .pauseTrig)]
      ++ (if s.params.profile.fineVariant = .quadrature then
            [stepWord (quadDelta s.params.profile ((argInt t).getD 0) s.phaseCnt),
             ((quadrantOf s.params.profile ((argInt t).getD 0)).toNat, .quadSel)]
          else [stepWord (directDelta ((argInt t).getD 0) s.phaseCnt)])
      ++ (if s.params.profile.fineResume then [(0, .pauseTrig)] else [])
  | .getBucket | .getWindow | .getLaserTrig | .getRingRfSource | .getOffsetFine | .getOffsetCoarse
  | .setAvgPhaseAdvance _ => []
  | .p1Bucket d | .p2Bucket d | .p3Bucket d => [(d.toNat, .bucket)]
  | .p1Window d | .p2Window d | .p3Window d => [(d.toNat, .window)]
  | .p2IncPhase d | .p3IncPhase d => [(d.toNat, .incPhase)]
  | .p2DecPhase d | .p3DecPhase d => [(d.toNat, .decPhase)]
  | .p2PauseTrig d | .p3PauseTrig d => [(d.toNat, .pauseTrig)]
  | .p2LaserTrigSource d | .p3LaserTrigSource d => [(d.toNat, .laserTrigSource)]
  | .p2QuadSel d => [(d.toNat, .quadSel)]
  | .p3RingRfSource d => [(d.toNat, .ringRfSource)]

/-- The call was answered with RangeError: it is the newest result, of the caller that has the turn (R264). -/
def State.RaisedTo (s u : State) : Prop := ∃ c a, u.replies = s.replies ++ [(s.turn, .rangeError c a)]

/-- Whether a profile has an operation (R111); a bus command is no operation of its own. -/
def hasOperation (p : Profile) : Instr → Bool
  | .setLaserTrig _ | .getLaserTrig => p.hasLaser
  | .setRingRfSource _ | .getRingRfSource => p.hasRingRf
  | .setOffsetFine _ | .getOffsetFine => p.fineVariant ≠ .none
  | .setOffsetCoarse _ | .getOffsetCoarse => p.hasCoarse
  | .setBucket _ | .getBucket | .setWindow _ | .getWindow | .setAvgPhaseAdvance _ => true
  | .p1Bucket _ | .p1Window _ | .p2Bucket _ | .p2Window _ | .p2IncPhase _ | .p2DecPhase _ | .p2PauseTrig _
  | .p2LaserTrigSource _ | .p2QuadSel _ | .p3Bucket _ | .p3Window _ | .p3IncPhase _ | .p3DecPhase _
  | .p3PauseTrig _ | .p3LaserTrigSource _ | .p3RingRfSource _ => false

end Sys2Proof.Machine
end

