-- ==== Sys2Proof/Certificates/Slice0/Obligations.lean ====
section
/-! DEFINITION. The statements for the provers, each an `Obligations.<Name> : Prop`. They cite the rules of spec/ they
formalise; `s.ready` says that the block is free to serve a call, `s.driven ws` is `s` after the words `ws` were driven,
and `s.replied r` is `s` after the caller that has the turn got `r` (Safety). -/

open Sys2Proof Sys2Proof.Machine

/-! ### Encodings -/

/-- R100, R103, R106: in a block whose Mode Table is well formed (R34), every bus command of the block's revision whose
command the table has encodes, and the decoder reads it back from its bytes, whatever follows. All sixteen bus commands,
every data byte. -/
def Obligations.BusWordsAreReadBack : Prop :=
  ∀ (p : Profile) (i : Instr) (r : Revision) (c : Command) (d : Byte) (rest : List Byte),
    (∀ m ∈ tableCodes p.modeTable, m < 2 ^ p.modeWidth.bits) → (tableCodes p.modeTable).Nodup →
    i.row = some (r, c, d) → p.revision = r → (p.modeTable.code c).isSome →
    ∃ bytes, encode p i = some bytes ∧ decode p (bytes ++ rest) = .ok (i, rest)

/-- R100, R106: whatever two bytes the decoder reads as a bus command are the bytes the encoder gives it, so no bit of a
word is dropped, in any profile. -/
def Obligations.DecodedBytesAreEncodedBack : Prop :=
  ∀ (p : Profile) (lo hi : Byte) (rest rest' : List Byte) (i : Instr),
    decode p (lo :: hi :: rest) = .ok (i, rest') → rest' = rest ∧ encode p i = some [lo, hi]

/-- R106, R114 and the vectors V1: words of the opcode map with the default codes decode to the rows they stand for. -/
def Obligations.OpcodeMapWordsDecode : Prop :=
  decodeWord Profile.p1 (wordOfBits 0x0C8) = .ok (.p1Bucket 200) ∧
  decodeWord Profile.p1 (wordOfBits 0x1C7) = .ok (.p1Window 199) ∧
  decodeWord Profile.p2 (wordOfBits 0x703) = .ok (.p2QuadSel 3) ∧
  decodeWord Profile.p2 (wordOfBits 0x264) = .ok (.p2IncPhase 100) ∧
  decodeWord Profile.p3 (wordOfBits 0x02B) = .ok (.p3Bucket 43) ∧
  decodeWord Profile.p3 (wordOfBits 0x1FF) = .ok (.p3Window 255) ∧
  decodeWord Profile.p3 (wordOfBits 0x346) = .ok (.p3DecPhase 70) ∧
  decodeWord Profile.p3 (wordOfBits 0x401) = .ok (.p3PauseTrig 1) ∧
  decodeWord Profile.p3 (wordOfBits 0x601) = .ok (.p3RingRfSource 1)

/-- R82, R81, R100: the level vector has 8 + W positions; position j is bit j of the packed number, data below mode, and the
pin it is written to is data pin j below 8 and mode pin j - 8 from there on. That mode bit k goes to mode pin k is the
spec's decision D3 (log 7), and the packing is R100's. -/
def Obligations.LevelVectorIsBitsOfPackedWord : Prop :=
  (∀ (w : BusWord) (width : ModeWidth) (j : Nat),
    (wordLevels w width)[j]? = if j < 8 + width.bits then some (w.bw.testBit j) else none) ∧
  (∀ w : BusWord, w.bw % 256 = w.data.toNat ∧ w.bw / 256 = w.mode) ∧
  (∀ (m : PinMap) (j : Nat), m.dataPins.length = 8 →
    m.wordPins[j]? = if j < 8 then m.dataPins[j]? else m.modePins[j - 8]?)

/-- R113: every host call that has a text is read back from it, with whatever argument: the six getters, the two calls with a
string and the five with a number; and each of those five has a text for every decimal of at most 1100 places. The quoting
and layout are the spec's (D32) and the model's (log 18). -/
def Obligations.HostCallTextIsReadBack : Prop :=
  (∀ (i : Instr) (t : Text), writeCall i = some t → readCall t = .ok i) ∧
  (∀ f ∈ [Instr.setBucket, Instr.setWindow, Instr.setOffsetFine, Instr.setOffsetCoarse, Instr.setAvgPhaseAdvance],
    ∀ (z : Int) (k : Nat), k ≤ 1100 → (writeCall (f (.fin (z / 10 ^ k)))).isSome = true)

/-! ### The delay table and the quantizer -/

/-- R291: construction builds the table, the same in every block, and nothing writes it afterwards. -/
def Obligations.DelayRomIsBuiltAtConstructionOnly : Prop :=
  (∀ (q : Params) (s : State), construct q = .next s → s.delayRom = DelayRom.table) ∧
  (∀ (s u : State) (i : Instr), exec i s = .next u → u.delayRom = s.delayRom) ∧
  (∀ s u : State, step s = .next u → u.delayRom = s.delayRom)

/-- R15, R70, R71: the table has exactly 256 entries, and entry i is the sum of the taps whose bit is set in i, the taps
being the eight values of R15. That bit b selects the b-th listed tap is the spec's decision D4. -/
def Obligations.DelayRomEntriesAreTapSums : Prop :=
  DelayRom.table.length = 256 ∧
  ∀ i < 256, DelayRom.table[i]? =
    some (∑ b ∈ Finset.range 8, if i.testBit b then [16, 77, 140, 166, 231, 292, 343, 424][b]?.getD 0 else 0)

/-- R161: over any non-empty table, the quantizer returns an index and the value there; no entry is nearer to the request,
and of the entries equally near it is the one with the lowest index. Distances are exact. -/
def Obligations.QuantizerReturnsLowestNearestIndex : Prop :=
  ∀ (rom : List Nat) (x : Rat), rom ≠ [] →
    rom[(quantize rom x).1]? = some (quantize rom x).2 ∧
    ∀ (j v : Nat), rom[j]? = some v →
      |((quantize rom x).2 : Rat) - x| ≤ |(v : Rat) - x| ∧
      (|(v : Rat) - x| = |((quantize rom x).2 : Rat) - x| → (quantize rom x).1 ≤ j)

/-- R73, R108: whatever the request, the index is below 256 and never the higher of a pair with one value; the 32 higher
indices are those at which an entry repeats an earlier one. -/
def Obligations.WindowIndexIsNeverTheHigherOfAPair : Prop :=
  (∀ x : Rat, (quantize DelayRom.table x).1 < 256 ∧ (quantize DelayRom.table x).1 ∉ higherDuplicates) ∧
  (higherDuplicates.length = 32 ∧
    ∀ i < 256, i ∈ higherDuplicates ↔ ∃ j < i, DelayRom.table[j]? = DelayRom.table[i]?)

/-! ### The GPIO lines -/

/-- R77: `gpio.write` appends its event and sets the level of each pin it names (of a pin named twice, the later level),
no other line; and nothing the block does depends on a line's level. -/
def Obligations.GpioWriteDrivesAndNothingReadsTheLines : Prop :=
  (∀ (s : State) (pins : List Nat) (levels : List Bool), pins.length = levels.length →
    (s.gpioWrite pins levels).trace = s.trace ++ [.write pins levels] ∧
    (∀ (j p : Nat) (b : Bool), pins[j]? = some p → levels[j]? = some b → (∀ k > j, pins[k]? ≠ some p) →
      (s.gpioWrite pins levels).pinLevelOf p = some b) ∧
    (∀ p, p ∉ pins → (s.gpioWrite pins levels).pinLevelOf p = s.pinLevelOf p)) ∧
  (∀ (s u : State) (m : Memory), step s = .next u →
    ∃ m', step { s with pinLevel := m } = .next { u with pinLevel := m' })

/-- R47, R78, R290: construction configures every pin of the map as an output, and no instruction and no step changes a pin's
direction. That construction configures every pin and nothing is configured later is the spec's decision D17 (log 7). -/
def Obligations.MappedPinsAreOutputsForGood : Prop :=
  (∀ (q : Params) (s : State), construct q = .next s →
    ∀ p ∈ q.pins.all, s.pinDirOf p = .output ∧ Event.configure p ∈ s.trace) ∧
  (∀ (s u : State) (i : Instr) (p : Nat), exec i s = .next u → u.pinDirOf p = s.pinDirOf p) ∧
  (∀ (s u : State) (p : Nat), step s = .next u → u.pinDirOf p = s.pinDirOf p)

/-! ### Bus commands -/

/-- R140, R106: in a block with P1's rows, each P1 bus command drives its word: the data byte and the command's mode field,
in six events; nothing but the trace and the line levels changes. (The third wait is the spec's decision D16.) -/
def Obligations.P1BusCommandsDriveTheirWords : Prop :=
  ∀ (s : State) (d : Byte) (m : Nat), s.params.profile.revision = .p1 →
    (s.params.profile.modeField .bucket = some m → exec (.p1Bucket d) s = .next (s.driven [⟨d, m⟩])) ∧
    (s.params.profile.modeField .window = some m → exec (.p1Window d) s = .next (s.driven [⟨d, m⟩]))

/-- R140, R106: the same for the seven P2 bus commands. -/
def Obligations.P2BusCommandsDriveTheirWords : Prop :=
  ∀ (s : State) (d : Byte) (m : Nat), s.params.profile.revision = .p2 →
    (s.params.profile.modeField .bucket = some m → exec (.p2Bucket d) s = .next (s.driven [⟨d, m⟩])) ∧
    (s.params.profile.modeField .window = some m → exec (.p2Window d) s = .next (s.driven [⟨d, m⟩])) ∧
    (s.params.profile.modeField .incPhase = some m → exec (.p2IncPhase d) s = .next (s.driven [⟨d, m⟩])) ∧
    (s.params.profile.modeField .decPhase = some m → exec (.p2DecPhase d) s = .next (s.driven [⟨d, m⟩])) ∧
    (s.params.profile.modeField .pauseTrig = some m → exec (.p2PauseTrig d) s = .next (s.driven [⟨d, m⟩])) ∧
    (s.params.profile.modeField .laserTrigSource = some m →
      exec (.p2LaserTrigSource d) s = .next (s.driven [⟨d, m⟩])) ∧
    (s.params.profile.modeField .quadSel = some m → exec (.p2QuadSel d) s = .next (s.driven [⟨d, m⟩]))

/-- R140, R106: the same for the seven P3 bus commands. -/
def Obligations.P3BusCommandsDriveTheirWords : Prop :=
  ∀ (s : State) (d : Byte) (m : Nat), s.params.profile.revision = .p3 →
    (s.params.profile.modeField .bucket = some m → exec (.p3Bucket d) s = .next (s.driven [⟨d, m⟩])) ∧
    (s.params.profile.modeField .window = some m → exec (.p3Window d) s = .next (s.driven [⟨d, m⟩])) ∧
    (s.params.profile.modeField .incPhase = some m → exec (.p3IncPhase d) s = .next (s.driven [⟨d, m⟩])) ∧
    (s.params.profile.modeField .decPhase = some m → exec (.p3DecPhase d) s = .next (s.driven [⟨d, m⟩])) ∧
    (s.params.profile.modeField .pauseTrig = some m → exec (.p3PauseTrig d) s = .next (s.driven [⟨d, m⟩])) ∧
    (s.params.profile.modeField .laserTrigSource = some m →
      exec (.p3LaserTrigSource d) s = .next (s.driven [⟨d, m⟩])) ∧
    (s.params.profile.modeField .ringRfSource = some m → exec (.p3RingRfSource d) s = .next (s.driven [⟨d, m⟩]))

/-- R80: in a configured block, after any bus command each data line j reads bit j of the data byte. -/
def Obligations.DataByteIsOnTheDataLines : Prop :=
  ∀ (s u : State) (i : Instr) (r : Revision) (c : Command) (d : Byte),
    s.Configured → i.row = some (r, c, d) → exec i s = .next u →
    ∀ j < 8, ∃ p, s.params.pins.dataPins[j]? = some p ∧ u.pinLevel.read p = some (d.getLsbD j)

/-- R81, R140, R302: and each mode line k reads bit k of the command's mode field, the strobe reads 0, and every line that
is not the block's reads as before. The order of the mode bits is the spec's decision D3. -/
def Obligations.ModeFieldIsOnTheModeLinesAndTheStrobeIsLow : Prop :=
  ∀ (s u : State) (i : Instr) (r : Revision) (c : Command) (d : Byte) (m : Nat),
    s.Configured → i.row = some (r, c, d) → s.params.profile.modeField c = some m → exec i s = .next u →
    (∀ k < s.params.profile.modeWidth.bits, ∃ p, s.params.pins.modePins[k]? = some p ∧
      u.pinLevel.read p = some (m.testBit k)) ∧
    u.pinLevel.read s.params.pins.strobe = some false ∧
    (∀ p, s.mapped p = false → u.pinLevel.read p = s.pinLevel.read p)

/-- R140 "State written", R146, R147: a bus command, any of the sixteen, leaves every register, the lock, the sequencer, the
pin directions, the configuration and the host interface as they were, appends its six events to the trace and, in a
configured block, adds its word to the latched ones. -/
def Obligations.BusCommandFrame : Prop :=
  ∀ (s u : State) (i : Instr) (r : Revision) (c : Command) (d : Byte),
    i.row = some (r, c, d) → exec i s = .next u →
    s.SameRegs u ∧ s.SameFixed u ∧ u.lock = s.lock ∧ u.seq = s.seq ∧ u.pending = s.pending ∧ u.turn = s.turn ∧
    u.replies = s.replies ∧ u.freeCount = s.freeCount ∧
    ∃ m, s.params.profile.modeField c = some m ∧
      u.trace = s.trace ++
        [.write s.params.pins.wordPins (wordLevels ⟨d, m⟩ s.params.profile.modeWidth), .sleep s.params.tSettle,
         .write [s.params.pins.strobe] [true], .sleep s.params.tSettle,
         .write [s.params.pins.strobe] [false], .sleep s.params.tSettle] ∧
      (s.Configured → u.latched = s.latched ++ [some ⟨d, m⟩])

/-- Log 15 (the model's choice; R3 calls the wire protocols incompatible): a bus command of another revision, or one the
Mode Table lacks, is refused. -/
def Obligations.BusCommandsOfOtherRevisionsAreRefused : Prop :=
  ∀ (s : State) (i : Instr) (r : Revision) (c : Command) (d : Byte), i.row = some (r, c, d) →
    s.params.profile.revision ≠ r ∨ s.params.profile.modeField c = none →
    exec i s = .refused .otherRevision

/-! ### Host operations -/

/-- R180, R181: `set_bucket(b)`, b in 0..255, exact arithmetic. Within the byte it emits the sum under `bucket`, writes
BUCKET and returns `Ok(())`; past it, it returns RangeError(RANGE_BUCKET) and nothing else changes. Every profile. -/
def Obligations.SetBucketEmitsTheSumOrRaises : Prop :=
  ∀ (s : State) (b m : Nat), s.ready → b ≤ 255 → s.params.profile.modeField .bucket = some m →
    (b * s.params.profile.bucketStep + s.offsetCoarse.toNat ≤ 255 →
      exec (.setBucket (.fin b)) s = .next (State.replied
        { s.driven [⟨BitVec.ofNat 8 (b * s.params.profile.bucketStep + s.offsetCoarse.toNat), m⟩] with
          bucket := BitVec.ofNat 8 b } .ok)) ∧
    (255 < b * s.params.profile.bucketStep + s.offsetCoarse.toNat →
      exec (.setBucket (.fin b)) s = .next (s.replied (.rangeError .bucket b)))

/-- R185: `set_offset_coarse(c)`, c in 0..255, where HAS_COARSE: the stored bucket with the new offset. -/
def Obligations.SetOffsetCoarseEmitsTheSumOrRaises : Prop :=
  ∀ (s : State) (c m : Nat), s.ready → s.params.profile.hasCoarse = true → c ≤ 255 →
    s.params.profile.modeField .bucket = some m →
    (s.bucket.toNat * s.params.profile.bucketStep + c ≤ 255 →
      exec (.setOffsetCoarse (.fin c)) s = .next (State.replied
        { s.driven [⟨BitVec.ofNat 8 (s.bucket.toNat * s.params.profile.bucketStep + c), m⟩] with
          offsetCoarse := BitVec.ofNat 8 c } .ok)) ∧
    (255 < s.bucket.toNat * s.params.profile.bucketStep + c →
      exec (.setOffsetCoarse (.fin c)) s = .next (s.replied (.rangeError .coarse c)))

/-- R160: `set_window(x)`, x at least 0, with the table built: the index under `window`, the achieved value, not the
request, into WINDOW, and `()`. It always succeeds. -/
def Obligations.SetWindowEmitsTheIndexAndStoresTheAchieved : Prop :=
  ∀ (s : State) (x : Rat) (m : Nat), s.ready → s.RomBuilt → 0 ≤ x →
    s.params.profile.modeField .window = some m →
    exec (.setWindow (.fin x)) s = .next (State.replied
      { s.driven [⟨BitVec.ofNat 8 (quantize DelayRom.table x).1, m⟩] with
        window := (quantize DelayRom.table x).2 } .unit)

/-- R200, R203, R204: `set_offset_fine(t)` in DIRECT, for a target that passes the checks: suspend, then the signed step, and
the resume word exactly where FINE_RESUME is set; both fine registers take t; `Ok(t)`. A magnitude of at most 255 is its own
data byte; of a wider one, which only a FINE_STEP_BOUND past the spec's literal lets through, the byte is free (log 19).
That P3 omits the resume is the spec's decision D8; that the flag alone decides is log 20. -/
def Obligations.SetOffsetFineDirectEmitsItsWords : Prop :=
  ∀ (s : State) (t : Int) (mp mi md : Nat), s.ready →
    s.params.profile.fineVariant = .direct →
    s.params.profile.modeField .pauseTrig = some mp → s.params.profile.modeField .incPhase = some mi →
    s.params.profile.modeField .decPhase = some md →
    0 ≤ t → ((t - s.phaseCnt).natAbs : Int) ≤ s.params.profile.fineStepBound →
    exec (.setOffsetFine (.fin t)) s = .next (State.replied
      { s.driven
          ([⟨1, mp⟩, ⟨busData (t - s.phaseCnt).natAbs, if 0 < t - s.phaseCnt then mi else md⟩]
            ++ if s.params.profile.fineResume then [⟨0, mp⟩] else []) with
        phaseCnt := t, offsetFine := t } (.okInt t)) ∧
    ((t - s.phaseCnt).natAbs ≤ 255 → busData (t - s.phaseCnt).natAbs = BitVec.ofNat 8 (t - s.phaseCnt).natAbs)

/-- R200, R203, R205: `set_offset_fine(t)` in QUADRATURE, for a target that passes the checks: suspend, the step on the fine
counts, the quadrant, and the resume word exactly where FINE_RESUME is set; both fine registers take the full t. Quadrant and
fine count are the quotient and the remainder by QUAD_COUNTS where it is positive, and free elsewhere (log 32); a value of at
most 255 is its own data byte, and of a wider one the byte is free (log 19). The decomposition and the word order are the
spec's decisions D6 and D7, the resume D8; that the flag alone decides is log 20. -/
def Obligations.SetOffsetFineQuadEmitsItsWords : Prop :=
  ∀ (s : State) (t : Int) (mp mi md mq : Nat), s.ready →
    s.params.profile.fineVariant = .quadrature →
    s.params.profile.modeField .pauseTrig = some mp → s.params.profile.modeField .incPhase = some mi →
    s.params.profile.modeField .decPhase = some md → s.params.profile.modeField .quadSel = some mq →
    0 ≤ t → quadrantOf s.params.profile t < s.params.profile.quadBound →
    ((fineCountOf s.params.profile t - fineCountOf s.params.profile s.phaseCnt).natAbs : Int)
      ≤ s.params.profile.fineStepBound →
    exec (.setOffsetFine (.fin t)) s = .next (State.replied
      { s.driven
          ([⟨1, mp⟩,
            ⟨busData (fineCountOf s.params.profile t - fineCountOf s.params.profile s.phaseCnt).natAbs,
              if 0 < fineCountOf s.params.profile t - fineCountOf s.params.profile s.phaseCnt then mi else md⟩,
            ⟨busData (quadrantOf s.params.profile t).toNat, mq⟩]
            ++ if s.params.profile.fineResume then [⟨0, mp⟩] else []) with
        phaseCnt := t, offsetFine := t } (.okInt t)) ∧
    (0 < s.params.profile.quadCounts →
      quadrantOf s.params.profile t = t / s.params.profile.quadCounts ∧
      fineCountOf s.params.profile t = t % s.params.profile.quadCounts ∧
      fineCountOf s.params.profile s.phaseCnt = s.phaseCnt % s.params.profile.quadCounts) ∧
    (∀ v ≤ 255, busData v = BitVec.ofNat 8 v)

/-- R202: the checks of `set_offset_fine` in their order, and that a failing one raises its cause with nothing else
changed: negative target, then (QUADRATURE only) the quadrant, then the step. The order is the spec's decision D24. Quadrant
and fine count are R205's quotient and remainder where QUAD_COUNTS is positive, and free elsewhere (log 32). -/
def Obligations.FineOffsetChecksRaiseInOrder : Prop :=
  ∀ (s : State) (t : Int), s.ready → s.params.profile.fineVariant ≠ .none →
    (t < 0 → exec (.setOffsetFine (.fin t)) s = .next (s.replied (.rangeError .fineNegative t))) ∧
    (0 ≤ t → s.params.profile.fineVariant = .quadrature →
      s.params.profile.quadBound ≤ quadrantOf s.params.profile t →
      exec (.setOffsetFine (.fin t)) s = .next (s.replied (.rangeError .quad t))) ∧
    (0 ≤ t → s.params.profile.fineVariant = .quadrature →
      quadrantOf s.params.profile t < s.params.profile.quadBound →
      s.params.profile.fineStepBound
        < (fineCountOf s.params.profile t - fineCountOf s.params.profile s.phaseCnt).natAbs →
      exec (.setOffsetFine (.fin t)) s = .next (s.replied (.rangeError .fineStep t))) ∧
    (0 ≤ t → s.params.profile.fineVariant = .direct →
      s.params.profile.fineStepBound < (t - s.phaseCnt).natAbs →
      exec (.setOffsetFine (.fin t)) s = .next (s.replied (.rangeError .fineStep t))) ∧
    (0 < s.params.profile.quadCounts → ∀ n : Int,
      quadrantOf s.params.profile n = n / s.params.profile.quadCounts ∧
      fineCountOf s.params.profile n = n % s.params.profile.quadCounts)

/-- R205 and V6: with the literals of the profile, RANGE_FINE_STEP cannot occur in QUADRATURE, whatever the count. -/
def Obligations.QuadratureNeverRaisesFineStep : Prop :=
  ∀ (s u : State) (t : Sys2Proof.Num), s.ready → s.params.profile.fineVariant = .quadrature →
    0 < s.params.profile.quadCounts → s.params.profile.quadCounts ≤ s.params.profile.fineStepBound + 1 →
    exec (.setOffsetFine t) s = .next u → ∀ a, u.replies ≠ s.replies ++ [(s.turn, .rangeError .fineStep a)]

/-- R203: the step word is chosen by the sign of delta, with its magnitude; a zero step is `(0, dec_phase)`. -/
def Obligations.StepWordFollowsTheSignOfDelta : Prop :=
  ∀ delta : Int,
    (0 < delta → (stepWord delta).2 = .incPhase ∧ ((stepWord delta).1 : Int) = delta) ∧
    (delta ≤ 0 → (stepWord delta).2 = .decPhase ∧ ((stepWord delta).1 : Int) = -delta)

/-- R230: `set_laser_trig(text)` with HAS_LASER: any string selects a source, its bit is emitted, LASER_SRC takes it. -/
def Obligations.SetLaserTrigEmitsTheBit : Prop :=
  ∀ (s : State) (text : Text) (m : Nat), s.ready → s.params.profile.hasLaser = true →
    s.params.profile.modeField .laserTrigSource = some m →
    exec (.setLaserTrig text) s = .next (State.replied
      { s.driven [⟨BitVec.ofNat 8 (if containsCi text ['c', 'o', 'i', 'n'] then s.params.laserBit.coincidence.toNat
          else s.params.laserBit.mrf.toNat), m⟩] with
        laserSrc := if containsCi text ['c', 'o', 'i', 'n'] then .coincidence else .mrf } .unit)

/-- R236: `set_ring_rf_source(text)` with HAS_RING_RF. -/
def Obligations.SetRingRfSourceEmitsTheBit : Prop :=
  ∀ (s : State) (text : Text) (m : Nat), s.ready → s.params.profile.hasRingRf = true →
    s.params.profile.modeField .ringRfSource = some m →
    exec (.setRingRfSource text) s = .next (State.replied
      { s.driven [⟨BitVec.ofNat 8 (if containsCi text ['R', 'E', 'V'] then s.params.ringBit.revClock.toNat
          else s.params.ringBit.mhz100.toNat), m⟩] with
        ringRfSrc := if containsCi text ['R', 'E', 'V'] then .revClock else .mhz100 } .unit)

/-- R231: the match is on a contiguous run, after folding A–Z to a–z and nothing else. -/
def Obligations.SelectorMatchIsAFoldedSubstring : Prop :=
  (∀ t k : Text, containsCi t k = true ↔
    ∃ before after, t.map foldChar = before ++ k.map foldChar ++ after) ∧
  (∀ c : Char, ('A' ≤ c ∧ c ≤ 'Z' → (foldChar c).toNat = c.toNat + 32) ∧
    (¬ ('A' ≤ c ∧ c ≤ 'Z') → foldChar c = c))

/-- R250: `set_avg_phase_advance(x)`, x finite, in every profile: stored as given, no word, nothing else. -/
def Obligations.SetAvgPhaseAdvanceStoresTheValue : Prop :=
  ∀ (s : State) (x : Rat), s.ready →
    exec (.setAvgPhaseAdvance (.fin x)) s = .next (State.replied { s with avgPhaseAdv := x } .unit)

/-- R183, R163, R188, R210, R233, R239: the getters return the register, where the profile has them, and change nothing but
the reply. R163's result is the integer as a real, and a selector's is its canonical string, whose spelling is the spec's
decision D19. -/
def Obligations.GettersReturnTheirRegister : Prop :=
  ∀ s : State, s.ready →
    exec .getBucket s = .next (s.replied (.byte s.bucket)) ∧
    exec .getWindow s = .next (s.replied (.real s.window)) ∧
    (s.params.profile.hasCoarse = true → exec .getOffsetCoarse s = .next (s.replied (.byte s.offsetCoarse))) ∧
    (s.params.profile.fineVariant ≠ .none → exec .getOffsetFine s = .next (s.replied (.int s.offsetFine))) ∧
    (s.params.profile.hasLaser = true → exec .getLaserTrig s = .next (s.replied (.str
      (match s.laserSrc with
        | .coincidence => "COINCIDENCE".toList
        | .mrf => "MRF".toList)))) ∧
    (s.params.profile.hasRingRf = true → exec .getRingRfSource s = .next (s.replied (.str
      (match s.ringRfSrc with
        | .revClock => "REV_CLOCK".toList
        | .mhz100 => "100MHZ".toList))))

/-- R267, R272: a call to an operation the profile lacks is refused with OP_ABSENT whatever its argument; R268: in a
profile that has it, an ill-formed argument is refused with BAD_ARG. (Refusals are the spec's decisions D13 and D36.) -/
def Obligations.AbsentThenIllFormedCallsAreRefused : Prop :=
  ∀ (s : State) (i : Instr), s.ready → i.isHostOp = true →
    (hasOperation s.params.profile i = false → exec i s = .refused .opAbsent) ∧
    (hasOperation s.params.profile i = true → i.wellFormed = false → exec i s = .refused .badArg)

/-- R272, R266: in a configured block, of any profile that construction takes, a well-formed call to an operation the profile
has is never refused and never faults. -/
def Obligations.PresentWellFormedCallsComplete : Prop :=
  ∀ (s : State) (i : Instr), s.ready → s.Configured → i.isHostOp = true →
    hasOperation s.params.profile i = true → i.wellFormed = true → ∃ u, exec i s = .next u

/-- R262, R264: whichever operation raises RangeError, the reply to its caller is all that changes: no word, no register
write, TRACE unchanged, LOCK free, SEQ idle. -/
def Obligations.RangeErrorLeavesEverythingElse : Prop :=
  ∀ (s u : State) (i : Instr) (c : RangeCause) (a : Int), s.ready → exec i s = .next u →
    u.replies = s.replies ++ [(s.turn, .rangeError c a)] → u = s.replied (.rangeError c a)

/-- R261: which operation can raise which cause; no other operation raises RangeError. -/
def Obligations.RangeCausesBelongToTheirOperations : Prop :=
  ∀ (s u : State) (i : Instr) (c : RangeCause) (a : Int), s.ready → exec i s = .next u →
    u.replies = s.replies ++ [(s.turn, .rangeError c a)] →
    match c with
    | .bucket => ∃ b, i = .setBucket b
    | .coarse => ∃ b, i = .setOffsetCoarse b
    | .fineNegative => ∃ t, i = .setOffsetFine t
    | .fineStep => ∃ t, i = .setOffsetFine t
    | .quad => (∃ t, i = .setOffsetFine t) ∧ s.params.profile.fineVariant = .quadrature

/-- R36 to R43: each register is written by its own setter alone; whatever the instruction, the configuration, the table
and the pin directions stay (R32 to R35, R47, R70). -/
def Obligations.EachRegisterHasOneSetter : Prop :=
  ∀ (s u : State) (i : Instr), exec i s = .next u →
    s.SameFixed u ∧
    ((∀ b, i ≠ .setBucket b) → u.bucket = s.bucket) ∧
    ((∀ c, i ≠ .setOffsetCoarse c) → u.offsetCoarse = s.offsetCoarse) ∧
    ((∀ x, i ≠ .setWindow x) → u.window = s.window) ∧
    ((∀ t, i ≠ .setLaserTrig t) → u.laserSrc = s.laserSrc) ∧
    ((∀ t, i ≠ .setRingRfSource t) → u.ringRfSrc = s.ringRfSrc) ∧
    ((∀ t, i ≠ .setOffsetFine t) → u.phaseCnt = s.phaseCnt ∧ u.offsetFine = s.offsetFine) ∧
    ((∀ x, i ≠ .setAvgPhaseAdvance x) → u.avgPhaseAdv = s.avgPhaseAdv)

/-- R77, R142, R299: no instruction changes the level of a line that is not the block's. -/
def Obligations.UnmappedLinesNeverChange : Prop :=
  ∀ (s u : State) (i : Instr) (p : Nat), exec i s = .next u → s.mapped p = false →
    u.pinLevel.read p = s.pinLevel.read p

/-- R91, R110, R112, R142, R147: in a configured block, a served call that raises RangeError adds nothing to the trace and
nothing to LATCHED; any other adds the events of its planned words and nothing else, and LATCHED grows by exactly those: the
words of R110, R204 and R205 in order, each the data field of its value under the mode field of its command, as many as R112
says. The resume word is planned exactly where FINE_RESUME is set (log 20), in either variant; a value past 255 has a free
byte (log 19). -/
def Obligations.ServedCallLatchesItsPlannedWords : Prop :=
  ∀ (s u : State) (i : Instr), s.ready → s.Configured → i.isHostOp = true → exec i s = .next u →
    (s.RaisedTo u → u.trace = s.trace ∧ u.latched = s.latched) ∧
    (¬ s.RaisedTo u → ∃ ws : List BusWord,
      ws.map (fun w => (some w.mode, w.data))
        = (plannedWords s i).map (fun e => (s.params.profile.modeField e.2, busData e.1)) ∧
      ws.length = wordCount s.params.profile i ∧
      u.trace = s.trace ++ ws.flatMap (wordEvents s.params) ∧
      u.latched = s.latched ++ ws.map some)

/-- R107, R108: no served call of a configured block emits a mode code absent from the Mode Table, or a data value that is
never emitted under its command, where the profile's values fit a byte (R102): the words are ones the sequencer runs without
a fault (I5, log 14). -/
def Obligations.ServedCallEmitsOnlyEmittableWords : Prop :=
  ∀ (s u : State) (i : Instr), s.ready → s.Configured → s.RomBuilt → ValuesFit s.params.profile →
    i.isHostOp = true → exec i s = .next u →
    ∃ ws : List BusWord, u.trace = s.trace ++ ws.flatMap (wordEvents s.params) ∧
      ∀ w ∈ ws, ∃ c, s.params.profile.modeField c = some w.mode ∧ s.params.profile.commandOf w.mode = some c ∧
        emittable s.params.profile c w.data = true

/-- R300: in DIRECT without resume, no operation emits `(0, pause_trig)`: every `pause_trig` word of a served call carries
1, so once one is latched the last one latched is always 1. -/
def Obligations.DirectNeverResumesTriggering : Prop :=
  ∀ (s u : State) (i : Instr) (m : Nat), s.ready → s.Configured → i.isHostOp = true →
    s.params.profile.fineVariant = .direct → s.params.profile.fineResume = false →
    s.params.profile.modeField .pauseTrig = some m → exec i s = .next u →
    (s.lastLatched m = some 1 → u.lastLatched m = some 1) ∧
    (∀ t, u.replies = s.replies ++ [(s.turn, .okInt t)] → u.lastLatched m = some 1)

/-- R187: every served call keeps the last latched `bucket` word equal to the sum of the bucket registers. -/
def Obligations.LastBucketWordIsTheRegisterSum : Prop :=
  ∀ (s u : State) (i : Instr), s.ready → s.Configured → i.isHostOp = true →
    s.BucketLatched → exec i s = .next u → u.BucketLatched

/-- R305, R306: a served call that raises RangeError waits none; any other waits 3 n settle times for its n words, counted with
the resume word where FINE_RESUME is set, in either variant (R112, log 20). -/
def Obligations.ServedCallWaitsThreeSettleTimesAWord : Prop :=
  ∀ (s u : State) (i : Instr), s.ready → i.isHostOp = true → exec i s = .next u →
    (s.RaisedTo u → waitTime u.trace = waitTime s.trace) ∧
    (¬ s.RaisedTo u →
      waitTime u.trace = waitTime s.trace + 3 * wordCount s.params.profile i * s.params.tSettle)

/-- R270, R304 (log 22): a call that comes while another one holds the block waits, and nothing else changes. -/
def Obligations.CallWaitsWhileTheBlockIsHeld : Prop :=
  ∀ (s : State) (i : Instr), ¬ s.ready → i.isHostOp = true →
    exec i s = .next { s with pending := s.pending ++ [⟨s.turn, i⟩] }

/-! ### The machine -/

/-- R4, R46, R90, R106: a step runs the instruction it fetches. While the sequencer is at the start of a word whose code
is in the Mode Table and whose data is not listed as never emitted (R107, R108; any other word is a fault, I5, logs 14 and
33) and that decodes to a bus command, that is this command, and then
the sequencer goes on to the next word or commits; while the block is free, it is the host operation of the waiting call that
gets the lock, run on the state in which the call has left the waiting list and its caller has the turn. (That a call is one
step is log 9.) -/
def Obligations.StepRunsTheFetchedInstruction : Prop :=
  (∀ (s : State) (t : Txn) (w : BusWord) (i : Instr), s.seq = .busy t → t.words[t.k]? = some w →
    t.wph = .assert → decodeWord s.params.profile w = .ok i → emitsWord s.params.profile w = true →
    step s = match exec i s with
      | .next u => .next (u.afterWord t)
      | .fault f => .fault f
      | .refused r => .refused r) ∧
  (∀ (s u : State) (c : Call), s.ready → s.takeCall = some (c, u) → c.op.isHostOp = true →
    step s = exec c.op u)

/-- R90, R93, R272, R293: whatever the free choice, the lock picks one of the waiting calls, which leaves the list, and its
caller has the turn; a free block that no call waits for waits. -/
def Obligations.TheLockPicksAWaitingCall : Prop :=
  (∀ s : State, s.pending ≠ [] →
    ∃ c u before after, s.takeCall = some (c, u) ∧ s.pending = before ++ c :: after ∧
      u = { s with pending := before ++ after, turn := c.caller, freeCount := u.freeCount }) ∧
  (∀ s : State, s.ready → s.pending = [] → step s = .next s)

/-- R260, R265: no instruction ends in a fault, and a free block's step does not. -/
def Obligations.NoInstructionFaults : Prop :=
  (∀ (i : Instr) (s : State) (f : Fault), exec i s ≠ .fault f) ∧
  (∀ (s : State) (f : Fault), s.ready → step s ≠ .fault f)

/-- I5, R107, R108: the sequencer stops with a fault, and nothing is driven, at a word whose mode code is absent from the Mode
Table, and at every data value R108 lists as never emitted under its command (the list decides, log 33): 2 and above under `pause_trig` and the
selectors, QUAD_BOUND and above under `quad_sel`, the higher index of a duplicate pair under `window`, 0 under `inc_phase`,
QUAD_COUNTS and above under the steps in QUADRATURE; and (R102) a step past FINE_STEP_BOUND. That the fault is raised where
the sequencer would emit the word is log 14. -/
def Obligations.WordsListedAsNeverEmittedFault : Prop :=
  ∀ (s : State) (t : Txn) (w : BusWord), s.seq = .busy t → t.words[t.k]? = some w → t.wph = .assert →
    (s.params.profile.commandOf w.mode = none → step s = .fault .modeCodeAbsent) ∧
    (∀ c, s.params.profile.commandOf w.mode = some c →
      c ∈ [Command.pauseTrig, .laserTrigSource, .ringRfSource] ∧ 1 < w.data.toNat ∨
      c = .quadSel ∧ s.params.profile.quadBound ≤ w.data.toNat ∨
      c = .window ∧ w.data.toNat ∈
        [33, 37, 41, 45, 72, 73, 88, 89, 97, 101, 105, 109, 136, 138, 140, 142, 161, 165, 168, 169, 170, 172, 173,
          174, 200, 201, 216, 217, 225, 229, 233, 237] ∨
      c = .incPhase ∧ w.data = 0 ∨
      c ∈ [Command.incPhase, .decPhase] ∧ s.params.profile.fineVariant = .quadrature ∧
        s.params.profile.quadCounts ≤ w.data.toNat ∨
      c ∈ [Command.incPhase, .decPhase] ∧ s.params.profile.fineStepBound < w.data.toNat →
      step s = .fault .dataNeverEmitted)

/-- R141: one step of the sequencer is one write phase: `ASSERT`, `STROBE_HI` and `STROBE_LO` append one write, the three
waits one sleep. -/
def Obligations.SequencerStepAppendsOneEvent : Prop :=
  ∀ (s : State) (t : Txn) (w : BusWord), s.seq = .busy t → t.words[t.k]? = some w →
    s.seqStep.trace = s.trace ++ [match t.wph with
      | .assert => .write s.params.pins.wordPins (wordLevels w s.params.profile.modeWidth)
      | .settle => .sleep s.params.tSettle
      | .strobeHi => .write [s.params.pins.strobe] [true]
      | .holdHi => .sleep s.params.tSettle
      | .strobeLo => .write [s.params.pins.strobe] [false]
      | .holdLo => .sleep s.params.tSettle]

/-- R92, R46, R141: until the last phase of the transaction's last word no register changes and the lock stays held; that
phase writes the registers of the commit, gives the reply and frees the lock in one step. That these fall together in the
HOLD_LO step is the spec's decision D16 (log 7). -/
def Obligations.RegistersChangeOnlyAtTheCommit : Prop :=
  ∀ (s : State) (t : Txn), s.seq = .busy t → t.k < t.words.length →
    ((t.wph = .holdLo → t.k + 1 < t.words.length) →
      s.SameRegs s.seqStep ∧ s.seqStep.lock = s.lock ∧ s.seqStep.replies = s.replies ∧
        ∃ t', s.seqStep.seq = .busy t' ∧ t'.caller = t.caller ∧ t'.words = t.words ∧ t'.commit = t.commit) ∧
    (t.wph = .holdLo → t.k + 1 = t.words.length →
      (s.applyWrites t.commit).SameRegs s.seqStep ∧ s.seqStep.lock = .free ∧ s.seqStep.seq = .idle ∧
        s.seqStep.replies = s.replies ++ [(t.caller, t.result)])

/-- R145: within a word, no phase but `ASSERT` changes a data or mode line of a configured block. -/
def Obligations.LinesAreStableWithinAWord : Prop :=
  ∀ (s : State) (t : Txn) (p : Nat), s.Configured → s.seq = .busy t → t.wph ≠ .assert →
    p ∈ s.params.pins.wordPins → s.seqStep.pinLevel.read p = s.pinLevel.read p

/-- R91, R141: from the start of a word on, running the machine one word a step reaches the state that the sequencer
reaches in six phases a word: every word that is left is emitted and the transaction commits. The words have a code
of the Mode Table and data not listed as never emitted (logs 14 and 33), and the opcode table has rows for (log 15). That a step of the machine is a whole word is the model's reading
(log 9). -/
def Obligations.WordStepsRefineWritePhases : Prop :=
  ∀ (n : Nat) (s : State) (t : Txn), s.seq = .busy t → t.wph = .assert → t.words.length = t.k + (n + 1) →
    (∀ w ∈ t.words.drop t.k, emitsWord s.params.profile w = true ∧ ∃ i, decodeWord s.params.profile w = .ok i) →
    Host.Core.run Sys2Proof.core (n + 1) s = .next (s.seqSteps (6 * (n + 1)))

/-- R46: `SEQ = BUSY(c, …)` exactly when `LOCK = HELD(c)`; every step keeps it. -/
def Obligations.StepKeepsLockAndSequencerTogether : Prop :=
  ∀ s u : State, s.LockOk → step s = .next u → u.LockOk

/-- R38, R41, R42, R186: every step keeps the register invariants: the bucket sum within a byte, WINDOW a table value,
PHASE_CNT equal to OFFSET_FINE, not negative and, in QUADRATURE, below QUAD_BOUND * QUAD_COUNTS (both positive, log 32). -/
def Obligations.StepKeepsRegisterInvariants : Prop :=
  ∀ s u : State, s.RegsOk → step s = .next u → u.RegsOk

/-- R144: in a configured block whose sequencer is at one of its words (R46), every step keeps the strobe at 1 exactly
between STROBE_HI and STROBE_LO. -/
def Obligations.StepKeepsTheStrobeLowBetweenWords : Prop :=
  ∀ s u : State, s.Configured → s.LockOk → s.StrobeOk → step s = .next u → u.StrobeOk

/-- R48, R77, R142: every step keeps the line levels equal to what the trace wrote, in canonical form. -/
def Obligations.StepKeepsLinesAsTraced : Prop :=
  ∀ s u : State, s.LinesOk → step s = .next u → u.LinesOk

/-- R32, R35 (and the pin map, the selector bits and the rest of what construction passes): what a block is constructed with
never changes. -/
def Obligations.ConfigurationNeverChanges : Prop :=
  (∀ (q : Params) (s : State), construct q = .next s → s.params = q) ∧
  (∀ (s u : State) (i : Instr), exec i s = .next u → u.params = s.params) ∧
  (∀ s u : State, step s = .next u → u.params = s.params)

/-- R270: steps and submitted calls keep the outstanding calls those of distinct callers of the block, for host
operations. -/
def Obligations.CallsStayOnePerCaller : Prop :=
  (∀ s u : State, s.CallsOk → s.LockOk → step s = .next u → u.CallsOk) ∧
  (∀ (s u : State) (c : Nat) (i : Instr), s.CallsOk → s.submit c i = some u → u.CallsOk)

/-! ### Construction and reset -/

/-- R269: construction succeeds exactly when the parameters meet the data model: 8 data pins, W mode pins, no pin twice,
codes below 2^W and distinct, the commands that the present operations emit in the Mode Table, T_SETTLE at least 0; else it
is refused with BAD_CONFIG. Nothing else is checked (D1). -/
def Obligations.ConstructionSucceedsExactlyOnSoundParameters : Prop :=
  ∀ q : Params,
    ((∃ s, construct q = .next s) ↔
      (q.pins.dataPins.length = 8 ∧ q.pins.modePins.length = q.profile.modeWidth.bits ∧ q.pins.all.Nodup ∧
       (∀ m ∈ tableCodes q.profile.modeTable, m < 2 ^ q.profile.modeWidth.bits) ∧
       (tableCodes q.profile.modeTable).Nodup ∧
       (∀ c ∈ neededCommands q.profile, (q.profile.modeTable.code c).isSome) ∧
       0 ≤ q.tSettle)) ∧
    ((∃ s, construct q = .next s) ∨ ∃ d, construct q = .refused (.badConfig d))

/-- R51, R290: the values after construction, of any parameters. Several are the spec's decision D18; the order of the
configure calls is D17 and the undriven lines D33 (log 7). R51 gives RING_RF_SRC only where HAS_RING_RF: that the other
profiles hold 100MHZ too is the model's choice (log 26). Which parameters State.reset has is the model's, logs 3 to 6. -/
def Obligations.ConstructionLeavesTheResetValues : Prop :=
  ∀ (q : Params) (s : State), construct q = .next s →
    s.params = q ∧ s.bucket = 0 ∧ s.offsetCoarse = 0 ∧ s.window = 0 ∧ s.laserSrc = .mrf ∧ s.ringRfSrc = .mhz100 ∧
    s.phaseCnt = 0 ∧ s.offsetFine = 0 ∧ s.avgPhaseAdv = q.avgInit ∧ s.lock = .free ∧ s.seq = .idle ∧
    (∀ p ∈ q.pins.all, s.pinDirOf p = .output) ∧ (∀ p, s.pinLevelOf p = none) ∧
    s.trace = (q.pins.dataPins ++ q.pins.modePins ++ [q.pins.strobe]).map Event.configure ∧
    s.delayRom = DelayRom.table ∧ s.latched = []

/-- The state after reset is what construction leaves for the model's parameters (logs 3 to 6), and meets every
invariant. -/
def Obligations.ResetMeetsTheInvariants : Prop :=
  construct (Params.standard Profile.p3) = .next State.reset ∧
  State.reset.RegsOk ∧ State.reset.LockOk ∧ State.reset.StrobeOk ∧ State.reset.LinesOk ∧ State.reset.PinsOut ∧
  State.reset.CallsOk ∧ State.reset.BucketLatched
end

