-- ==== Sys2Proof/Laws/CallText.lean ====
section
/-! SUPPORT. The text of a number is read back as that number (R113). -/

namespace Sys2Proof

/-! ### Digits -/

/-- The character of a decimal digit. -/
def IsDigit (c : Char) : Prop := ∃ d < 10, c = Char.ofNat (48 + d)

theorem isDigit_digitChar (d : Nat) : IsDigit (digitChar d) := ⟨d % 10, Nat.mod_lt _ (by decide), rfl⟩

/-- What a digit is not. -/
theorem IsDigit.ne {c : Char} (h : IsDigit c) : c ≠ '.' ∧ c ≠ '-' ∧ c ≠ '"' ∧ isBlankChar c = false ∧ c ≠ 'N' ∧ c ≠ '+' ∧
    c ≠ '∞' := by
  obtain ⟨d, hd, rfl⟩ := h
  revert d
  decide +kernel

theorem digitVal_digitChar (d : Nat) : digitVal (digitChar d) = some (d % 10) := by
  have h : ∀ e < 10, digitVal (Char.ofNat (48 + e)) = some e := by decide +kernel
  exact h _ (Nat.mod_lt _ (by decide))

theorem digitsVal_append (acc : Nat) (a b : Text) :
    digitsVal acc (a ++ b) = (digitsVal acc a).bind fun v => digitsVal v b := by
  induction a generalizing acc with
  | nil => rfl
  | cons c a ih =>
    simp only [List.cons_append, digitsVal]
    cases digitVal c with
    | none => rfl
    | some d => exact ih _

theorem writeDigits_eq_append (fuel n : Nat) (t : Text) : writeDigits fuel n t = writeDigits fuel n [] ++ t := by
  induction fuel generalizing n t with
  | zero => rfl
  | succ fuel ih =>
    simp only [writeDigits]
    split
    · rfl
    · rw [ih, ih (n / 10) [digitChar n]]; simp

theorem digitsVal_writeDigits (fuel n : Nat) (h : n < fuel) : digitsVal 0 (writeDigits fuel n []) = some n := by
  induction fuel generalizing n with
  | zero => omega
  | succ fuel ih =>
    simp only [writeDigits]
    split
    · next h' => simp [digitsVal, digitVal_digitChar, Nat.mod_eq_of_lt h']
    · rw [writeDigits_eq_append, digitsVal_append, ih _ (by omega)]
      simp [digitsVal, digitVal_digitChar]
      omega

/-- The digits of a natural number have its value. -/
theorem digitsVal_writeNat (n : Nat) : digitsVal 0 (writeNat n) = some n := digitsVal_writeDigits _ _ (by omega)

theorem writeNat_ne_nil (n : Nat) : writeNat n ≠ [] := by
  unfold writeNat writeDigits
  split
  · simp
  · rw [writeDigits_eq_append]; simp

theorem writeFixed_eq_append (k n : Nat) (t : Text) : writeFixed k n t = writeFixed k n [] ++ t := by
  induction k generalizing n t with
  | zero => rfl
  | succ k ih => simp only [writeFixed]; rw [ih, ih (n / 10) [digitChar n]]; simp

theorem writeFixed_length (k n : Nat) : (writeFixed k n []).length = k := by
  induction k generalizing n with
  | zero => rfl
  | succ k ih => simp only [writeFixed]; rw [writeFixed_eq_append]; simp [ih]

/-- `k` digits of `n` append `n` to a value read so far. -/
theorem digitsVal_writeFixed (k n acc : Nat) (h : n < 10 ^ k) :
    digitsVal acc (writeFixed k n []) = some (acc * 10 ^ k + n) := by
  induction k generalizing n with
  | zero => simp [writeFixed, digitsVal]; simpa using h
  | succ k ih =>
    simp only [writeFixed]
    rw [writeFixed_eq_append, digitsVal_append, ih _ (by rw [pow_succ] at h; omega)]
    simp [digitsVal, digitVal_digitChar, pow_succ]
    have := Nat.div_add_mod n 10
    nlinarith

/-- One digit more keeps a text of digits one. -/
theorem isDigit_cons {n : Nat} {t : Text} (ht : ∀ c ∈ t, IsDigit c) : ∀ c ∈ digitChar n :: t, IsDigit c := by
  intro c hc
  rcases List.mem_cons.1 hc with rfl | hc
  · exact isDigit_digitChar n
  · exact ht c hc

theorem isDigit_writeDigits (fuel n : Nat) (t : Text) (ht : ∀ c ∈ t, IsDigit c) :
    ∀ c ∈ writeDigits fuel n t, IsDigit c := by
  induction fuel generalizing n t with
  | zero => exact ht
  | succ fuel ih =>
    simp only [writeDigits]
    split
    · exact isDigit_cons ht
    · exact ih _ _ (isDigit_cons ht)

theorem isDigit_writeNat (n : Nat) : ∀ c ∈ writeNat n, IsDigit c := isDigit_writeDigits _ _ _ (by simp)

theorem isDigit_writeFixed (k n : Nat) (t : Text) (ht : ∀ c ∈ t, IsDigit c) : ∀ c ∈ writeFixed k n t, IsDigit c := by
  induction k generalizing n t with
  | zero => exact ht
  | succ k ih => exact ih _ _ (isDigit_cons ht)

/-! ### Decimals -/

/-- A whole number is read back. -/
theorem readDecimal_writeNat (n : Nat) : readDecimal (writeNat n) = some (n : Rat) := by
  have h : ∀ c ∈ writeNat n, (c != '.') = true := fun c hc => by simp [(isDigit_writeNat n c hc).ne.1]
  simp only [readDecimal, List.takeWhile_eq_self_iff.2 h, List.dropWhile_eq_nil_iff.2 h, writeNat_ne_nil, if_false,
    digitsVal_writeNat]
  simp [Rat.mkRat_one]

/-- A whole part and `k` places are read back. -/
theorem readDecimal_fraction (a b k : Nat) (hk : 0 < k) (hb : b < 10 ^ k) :
    readDecimal (writeNat a ++ '.' :: writeFixed k b []) = some (mkRat (a * 10 ^ k + b) (10 ^ k)) := by
  have h : ∀ c ∈ writeNat a, (c != '.') = true := fun c hc => by simp [(isDigit_writeNat a c hc).ne.1]
  have h1 : (writeNat a ++ '.' :: writeFixed k b []).takeWhile (· != '.') = writeNat a := by
    rw [List.takeWhile_append_of_pos h]; simp
  have h2 : (writeNat a ++ '.' :: writeFixed k b []).dropWhile (· != '.') = '.' :: writeFixed k b [] := by
    rw [List.dropWhile_append_of_pos h]; simp
  have h3 : writeFixed k b [] ≠ [] := by
    intro h; have := writeFixed_length k b; rw [h] at this; simp at this; omega
  simp only [readDecimal, h1, h2, writeNat_ne_nil, h3, or_self, if_false, digitsVal_append, digitsVal_writeNat,
    Option.bind_some, digitsVal_writeFixed k b a hb, writeFixed_length]
  rfl

/-- A text of digits and points that reads as a decimal reads as that number, and with a minus sign as its negative. -/
theorem readNum_of_readDecimal {t : Text} {q : Rat} (hc : ∀ c ∈ t, IsDigit c ∨ c = '.') (hn : t ≠ [])
    (h : readDecimal t = some q) : readNum t = some (.fin q) ∧ readNum ('-' :: t) = some (.fin (-q)) := by
  cases t with
  | nil => contradiction
  | cons c t =>
    have hc' : c ≠ 'N' ∧ c ≠ '+' ∧ c ≠ '-' ∧ c ≠ '∞' := by
      rcases hc c List.mem_cons_self with h | rfl
      · obtain ⟨-, hm, -, -, hN, hp, hi⟩ := h.ne
        exact ⟨hN, hp, hm, hi⟩
      · decide
    exact ⟨by simp [readNum, hc', h], by simp [readNum, hc', h]⟩

/-! ### Decimal places -/

theorem decimalPlaces_eq_some {fuel k den r : Nat} (h : decimalPlaces fuel k den = some r) : 10 ^ r % den = 0 := by
  induction fuel generalizing k with
  | zero => cases h
  | succ fuel ih =>
    simp only [decimalPlaces] at h
    split at h
    · cases h; assumption
    · exact ih h

theorem decimalPlaces_isSome {fuel k den j : Nat} (hj : k ≤ j) (hf : j < k + fuel) (h : 10 ^ j % den = 0) :
    (decimalPlaces fuel k den).isSome := by
  induction fuel generalizing k with
  | zero => omega
  | succ fuel ih =>
    simp only [decimalPlaces]
    split
    · rfl
    · next hne =>
      have : k ≠ j := fun he => hne (he ▸ h)
      exact ih (by omega) (by omega)

/-- The magnitude of a number is its value up to the sign. -/
theorem rat_eq_signed (q a : Rat) (h : a = q.num.natAbs / q.den) : q = if q.num < 0 then -a else a := by
  have hz : ((q.num.natAbs : Int) : Rat) = |(q.num : Rat)| := by rw [← Int.cast_abs, Int.abs_eq_natAbs]
  rw [Int.cast_natCast] at hz
  rw [h, hz]
  conv_lhs => rw [← Rat.num_div_den q]
  split
  · next hneg => rw [abs_of_neg (by exact_mod_cast hneg)]; ring
  · next hneg => rw [abs_of_nonneg (by exact_mod_cast not_lt.1 hneg)]

/-- A number's text is not empty, has neither blank nor quote in it, and is read back as the number. -/
theorem readNum_writeNum {n : Num} {t : Text} (h : writeNum n = some t) :
    readNum t = some n ∧ t ≠ [] ∧ ∀ c ∈ t, isBlankChar c = false ∧ c ≠ '"' := by
  have good : ∀ c, IsDigit c ∨ c = '.' → isBlankChar c = false ∧ c ≠ '"' := by
    rintro c (h | rfl)
    · exact ⟨h.ne.2.2.2.1, h.ne.2.2.1⟩
    · decide
  have signed : ∀ (q : Rat) (body : Text) (a : Rat), (∀ c ∈ body, IsDigit c ∨ c = '.') → body ≠ [] →
      readDecimal body = some a → a = q.num.natAbs / q.den →
      readNum (if q.num < 0 then '-' :: body else body) = some (.fin q) ∧
        (if q.num < 0 then '-' :: body else body) ≠ [] ∧
        ∀ c ∈ (if q.num < 0 then '-' :: body else body), isBlankChar c = false ∧ c ≠ '"' := by
    intro q body a hc hn hd ha
    obtain ⟨h1, h2⟩ := readNum_of_readDecimal hc hn hd
    have hq := rat_eq_signed q a ha
    split
    · next hneg =>
      rw [if_pos hneg] at hq
      refine ⟨by rw [hq]; exact h2, by simp, fun c hm => ?_⟩
      rcases List.mem_cons.1 hm with rfl | hm
      · decide
      · exact good c (hc c hm)
    · next hneg =>
      rw [if_neg hneg] at hq
      exact ⟨by rw [hq]; exact h1, hn, fun c hm => good c (hc c hm)⟩
  cases n with
  | nan => cases h; exact ⟨by simp [readNum], by simp, by simp [isBlankChar]⟩
  | posInf => cases h; exact ⟨by simp [readNum], by simp, by simp [isBlankChar]⟩
  | negInf => cases h; exact ⟨by simp [readNum], by simp, by simp [isBlankChar]⟩
  | fin q =>
    simp only [writeNum] at h
    cases hp : decimalPlaces 1101 0 q.den with
    | none => simp [hp] at h
    | some k =>
      have hdiv := decimalPlaces_eq_some hp
      cases k with
      | zero =>
        simp only [hp, Option.some.injEq] at h
        have hd : q.den = 1 := by simpa [Nat.one_mod_eq_zero_iff] using hdiv
        subst h
        exact signed q (writeNat q.num.natAbs) _ (fun c hc => .inl (isDigit_writeNat _ c hc)) (writeNat_ne_nil _)
          (readDecimal_writeNat _) (by simp [hd])
      | succ k =>
        simp only [hp, Option.some.injEq] at h
        subst h
        obtain ⟨e, he⟩ := Nat.dvd_of_mod_eq_zero hdiv
        have hd := q.den_pos
        have hpow : 0 < 10 ^ (k + 1) := Nat.pow_pos (by decide)
        have he0 : e ≠ 0 := by rintro rfl; rw [he] at hpow; simp at hpow
        rw [show 10 ^ (k + 1) / q.den = e by rw [he, Nat.mul_div_cancel_left _ hd]]
        generalize hn : q.num.natAbs * e = n
        have hr := readDecimal_fraction (n / 10 ^ (k + 1)) (n % 10 ^ (k + 1)) (k + 1) (Nat.succ_pos k) (Nat.mod_lt _ hpow)
        have hsum : ((n / 10 ^ (k + 1) : Nat) : Int) * 10 ^ (k + 1) + ((n % 10 ^ (k + 1) : Nat) : Int) = n := by
          exact_mod_cast Nat.div_add_mod' n (10 ^ (k + 1))
        rw [hsum] at hr
        refine signed q _ _ (fun c hc => ?_) (by simp) hr ?_
        · rcases List.mem_append.1 hc with hc | hc
          · exact .inl (isDigit_writeNat _ c hc)
          · rcases List.mem_cons.1 hc with rfl | hc
            · exact .inr rfl
            · exact .inl (isDigit_writeFixed _ _ _ (by simp) c hc)
        · have hpe : ((10 ^ (k + 1) : Nat) : Rat) = q.den * e := by exact_mod_cast congrArg (Nat.cast (R := Rat)) he
          have h1 : (e : Rat) ≠ 0 := by exact_mod_cast he0
          rw [Rat.mkRat_eq_div, hpe, Int.cast_natCast, ← hn, Nat.cast_mul]
          exact mul_div_mul_right _ _ h1

end Sys2Proof
end

