-- ==== Sys2Proof/Laws/Encoding.lean ====
section
/-! SUPPORT. What a data field and a bus word of a value are (R100, R104). -/

namespace Sys2Proof

/-- A value that fits the byte is its own data field. -/
theorem busData_of_le {v : Nat} (h : v ≤ 255) : busData v = BitVec.ofNat 8 v := if_pos h

@[simp] theorem busData_toNat (d : Byte) : busData d.toNat = d := by
  rw [busData_of_le (by have := d.isLt; omega), BitVec.ofNat_toNat, BitVec.setWidth_eq]

/-- A value under a command of the table is a bus word. -/
theorem busWord_eq {p : Profile} {v m : Nat} {c : Command} (hm : p.modeField c = some m) :
    p.busWord v c = some ⟨busData v, m⟩ := by
  simp [Profile.busWord, hm]

/-- A value that fits the byte, under a command of the table, is a bus word of that value. -/
theorem busWord_eq_of_le {p : Profile} {v m : Nat} {c : Command} (hm : p.modeField c = some m) (hv : v ≤ 255) :
    p.busWord v c = some ⟨BitVec.ofNat 8 v, m⟩ := by
  rw [busWord_eq hm, busData_of_le hv]

/-- What a bus word of a value under a command is. -/
theorem busWord_eq_some {p : Profile} {v : Nat} {c : Command} {w : BusWord} :
    p.busWord v c = some w ↔ p.modeField c = some w.mode ∧ w.data = busData v := by
  unfold Profile.busWord
  cases h : p.modeField c with
  | none => simp
  | some m =>
    obtain ⟨d, m'⟩ := w
    simp only [Option.map_some, Option.some.injEq, BusWord.mk.injEq]
    tauto

end Sys2Proof
end

