-- ==== Sys2Proof/Laws/Memory.lean ====
section
/-! SUPPORT. The laws of the GPIO line space: a read after a write, and the canonical form that every operation keeps. -/

namespace Sys2Proof.Machine

theorem memory_read_write_same (m : Memory) (p : Nat) (b : Bool) : (m.write p b).read p = some b := by
  induction m with
  | nil => simp [Memory.write, Memory.read]
  | cons e m ih =>
    obtain ⟨q, c⟩ := e
    simp only [Memory.write]
    split
    · simp [Memory.read]
    · split
      · simp [Memory.read]
      · next h => simp [Memory.read, h, ih]

theorem memory_read_write_other (m : Memory) {p r : Nat} (b : Bool) (h : r ≠ p) :
    (m.write p b).read r = m.read r := by
  induction m with
  | nil => simp [Memory.write, Memory.read, h]
  | cons e m ih =>
    obtain ⟨q, c⟩ := e
    simp only [Memory.write]
    split
    · simp [Memory.read, h]
    · split
      · next h' => subst h'; simp [Memory.read, h]
      · simp [Memory.read, ih]

theorem memory_read_write (m : Memory) (p r : Nat) (b : Bool) :
    (m.write p b).read r = if r = p then some b else m.read r := by
  split
  · next h => rw [h, memory_read_write_same]
  · next h => exact memory_read_write_other m b h

/-- The pins of a written space: the one written, and the ones that were there. -/
theorem memory_write_keys (m : Memory) (p : Nat) (b : Bool) (r : Nat) :
    r ∈ (m.write p b).map Prod.fst → r = p ∨ r ∈ m.map Prod.fst := by
  induction m with
  | nil => simp [Memory.write]
  | cons e m ih =>
    obtain ⟨q, c⟩ := e
    simp only [Memory.write]
    split
    · simp
    · split
      · simp; tauto
      · simp only [List.map_cons, List.mem_cons]
        rintro (h | h)
        · exact .inr (.inl h)
        · exact (ih h).imp id .inr

theorem memory_wf_nil : Memory.wf [] := List.Pairwise.nil

theorem memory_wf_write {m : Memory} (h : m.wf) (p : Nat) (b : Bool) : (m.write p b).wf := by
  induction m with
  | nil => simp [Memory.write, Memory.wf]
  | cons e m ih =>
    obtain ⟨q, c⟩ := e
    have h' : (∀ r ∈ m.map Prod.fst, q < r) ∧ Memory.wf m := List.pairwise_cons.1 h
    simp only [Memory.write]
    split
    · next hpq =>
      refine List.pairwise_cons.2 ⟨?_, h⟩
      intro r hr
      rcases List.mem_cons.1 hr with rfl | hr
      · exact hpq
      · exact hpq.trans (h'.1 r hr)
    · split
      · next hpq => subst hpq; exact List.pairwise_cons.2 h'
      · next hlt hne =>
        refine List.pairwise_cons.2 ⟨?_, ih h'.2⟩
        intro r hr
        rcases memory_write_keys m p b r hr with rfl | hr
        · simp only; omega
        · exact h'.1 r hr

theorem memory_wf_writeAll {m : Memory} (h : m.wf) (ps : List (Nat × Bool)) : (m.writeAll ps).wf := by
  induction ps generalizing m with
  | nil => exact h
  | cons e ps ih => exact ih (memory_wf_write h e.1 e.2)

theorem memory_read_writeAll_other (m : Memory) (ps : List (Nat × Bool)) {r : Nat}
    (h : r ∉ ps.map Prod.fst) : (m.writeAll ps).read r = m.read r := by
  induction ps generalizing m with
  | nil => rfl
  | cons e ps ih =>
    simp only [List.map_cons, List.mem_cons, not_or] at h
    exact (ih (m.write e.1 e.2) h.2).trans (memory_read_write_other m e.2 h.1)

/-- After writing distinct pins, each of them reads as the level written. -/
theorem memory_read_writeAll_mem (m : Memory) (ps : List (Nat × Bool)) (hn : (ps.map Prod.fst).Nodup)
    {r : Nat} {b : Bool} (h : (r, b) ∈ ps) : (m.writeAll ps).read r = some b := by
  induction ps generalizing m with
  | nil => cases h
  | cons e ps ih =>
    have hn' := List.nodup_cons.1 hn
    rcases List.mem_cons.1 h with rfl | h
    · exact (memory_read_writeAll_other (m.write r b) ps hn'.1).trans (memory_read_write_same m r b)
    · exact ih (m.write e.1 e.2) hn'.2 h

theorem memory_wf_linesAfterWord {m : Memory} (h : m.wf) (q : Params) (w : BusWord) :
    (linesAfterWord q m w).wf :=
  memory_wf_write (memory_wf_write (memory_wf_writeAll h _) _ _) _ _

theorem memory_wf_afterEvent {m : Memory} (h : m.wf) (e : Event) : (m.afterEvent e).wf := by
  cases e with
  | configure p => exact h
  | write ps ls => exact memory_wf_writeAll h _
  | sleep t => exact h

/-- The memory right after reset lists nothing, so it is canonical. -/
theorem reset_memory_wf : Memory.wf State.reset.pinLevel := memory_wf_nil

end Sys2Proof.Machine
end

