-- ==== Sys2Proof/Laws/State.lean ====
section
/-! SUPPORT. One lemma per field per update of the state, so that no later proof unfolds a record update. -/

namespace Sys2Proof.Machine

/-! ### gpio.configure -/

@[simp] theorem gpioConfigure_params (s : State) (p : Nat) : (s.gpioConfigure p).params = s.params := rfl
@[simp] theorem gpioConfigure_delayRom (s : State) (p : Nat) : (s.gpioConfigure p).delayRom = s.delayRom := rfl
@[simp] theorem gpioConfigure_bucket (s : State) (p : Nat) : (s.gpioConfigure p).bucket = s.bucket := rfl
@[simp] theorem gpioConfigure_offsetCoarse (s : State) (p : Nat) : (s.gpioConfigure p).offsetCoarse = s.offsetCoarse := rfl
@[simp] theorem gpioConfigure_window (s : State) (p : Nat) : (s.gpioConfigure p).window = s.window := rfl
@[simp] theorem gpioConfigure_laserSrc (s : State) (p : Nat) : (s.gpioConfigure p).laserSrc = s.laserSrc := rfl
@[simp] theorem gpioConfigure_ringRfSrc (s : State) (p : Nat) : (s.gpioConfigure p).ringRfSrc = s.ringRfSrc := rfl
@[simp] theorem gpioConfigure_phaseCnt (s : State) (p : Nat) : (s.gpioConfigure p).phaseCnt = s.phaseCnt := rfl
@[simp] theorem gpioConfigure_offsetFine (s : State) (p : Nat) : (s.gpioConfigure p).offsetFine = s.offsetFine := rfl
@[simp] theorem gpioConfigure_avgPhaseAdv (s : State) (p : Nat) : (s.gpioConfigure p).avgPhaseAdv = s.avgPhaseAdv := rfl
@[simp] theorem gpioConfigure_lock (s : State) (p : Nat) : (s.gpioConfigure p).lock = s.lock := rfl
@[simp] theorem gpioConfigure_seq (s : State) (p : Nat) : (s.gpioConfigure p).seq = s.seq := rfl
@[simp] theorem gpioConfigure_pinDir (s : State) (p : Nat) : (s.gpioConfigure p).pinDir = insertPin p s.pinDir := rfl
@[simp] theorem gpioConfigure_pinLevel (s : State) (p : Nat) : (s.gpioConfigure p).pinLevel = s.pinLevel := rfl
@[simp] theorem gpioConfigure_trace (s : State) (p : Nat) : (s.gpioConfigure p).trace = s.trace ++ [.configure p] := rfl
@[simp] theorem gpioConfigure_pending (s : State) (p : Nat) : (s.gpioConfigure p).pending = s.pending := rfl
@[simp] theorem gpioConfigure_turn (s : State) (p : Nat) : (s.gpioConfigure p).turn = s.turn := rfl
@[simp] theorem gpioConfigure_replies (s : State) (p : Nat) : (s.gpioConfigure p).replies = s.replies := rfl
@[simp] theorem gpioConfigure_freeCount (s : State) (p : Nat) : (s.gpioConfigure p).freeCount = s.freeCount := rfl

/-! ### gpio.write -/

@[simp] theorem gpioWrite_params (s : State) (ps : List Nat) (ls : List Bool) : (s.gpioWrite ps ls).params = s.params := rfl
@[simp] theorem gpioWrite_delayRom (s : State) (ps : List Nat) (ls : List Bool) : (s.gpioWrite ps ls).delayRom = s.delayRom := rfl
@[simp] theorem gpioWrite_bucket (s : State) (ps : List Nat) (ls : List Bool) : (s.gpioWrite ps ls).bucket = s.bucket := rfl
@[simp] theorem gpioWrite_offsetCoarse (s : State) (ps : List Nat) (ls : List Bool) : (s.gpioWrite ps ls).offsetCoarse = s.offsetCoarse := rfl
@[simp] theorem gpioWrite_window (s : State) (ps : List Nat) (ls : List Bool) : (s.gpioWrite ps ls).window = s.window := rfl
@[simp] theorem gpioWrite_laserSrc (s : State) (ps : List Nat) (ls : List Bool) : (s.gpioWrite ps ls).laserSrc = s.laserSrc := rfl
@[simp] theorem gpioWrite_ringRfSrc (s : State) (ps : List Nat) (ls : List Bool) : (s.gpioWrite ps ls).ringRfSrc = s.ringRfSrc := rfl
@[simp] theorem gpioWrite_phaseCnt (s : State) (ps : List Nat) (ls : List Bool) : (s.gpioWrite ps ls).phaseCnt = s.phaseCnt := rfl
@[simp] theorem gpioWrite_offsetFine (s : State) (ps : List Nat) (ls : List Bool) : (s.gpioWrite ps ls).offsetFine = s.offsetFine := rfl
@[simp] theorem gpioWrite_avgPhaseAdv (s : State) (ps : List Nat) (ls : List Bool) : (s.gpioWrite ps ls).avgPhaseAdv = s.avgPhaseAdv := rfl
@[simp] theorem gpioWrite_lock (s : State) (ps : List Nat) (ls : List Bool) : (s.gpioWrite ps ls).lock = s.lock := rfl
@[simp] theorem gpioWrite_seq (s : State) (ps : List Nat) (ls : List Bool) : (s.gpioWrite ps ls).seq = s.seq := rfl
@[simp] theorem gpioWrite_pinDir (s : State) (ps : List Nat) (ls : List Bool) : (s.gpioWrite ps ls).pinDir = s.pinDir := rfl
@[simp] theorem gpioWrite_pinLevel (s : State) (ps : List Nat) (ls : List Bool) : (s.gpioWrite ps ls).pinLevel = s.pinLevel.writeAll (ps.zip ls) := rfl
@[simp] theorem gpioWrite_trace (s : State) (ps : List Nat) (ls : List Bool) : (s.gpioWrite ps ls).trace = s.trace ++ [.write ps ls] := rfl
@[simp] theorem gpioWrite_pending (s : State) (ps : List Nat) (ls : List Bool) : (s.gpioWrite ps ls).pending = s.pending := rfl
@[simp] theorem gpioWrite_turn (s : State) (ps : List Nat) (ls : List Bool) : (s.gpioWrite ps ls).turn = s.turn := rfl
@[simp] theorem gpioWrite_replies (s : State) (ps : List Nat) (ls : List Bool) : (s.gpioWrite ps ls).replies = s.replies := rfl
@[simp] theorem gpioWrite_freeCount (s : State) (ps : List Nat) (ls : List Bool) : (s.gpioWrite ps ls).freeCount = s.freeCount := rfl

/-! ### sleep -/

@[simp] theorem sleepSettle_params (s : State) : (s.sleepSettle).params = s.params := rfl
@[simp] theorem sleepSettle_delayRom (s : State) : (s.sleepSettle).delayRom = s.delayRom := rfl
@[simp] theorem sleepSettle_bucket (s : State) : (s.sleepSettle).bucket = s.bucket := rfl
@[simp] theorem sleepSettle_offsetCoarse (s : State) : (s.sleepSettle).offsetCoarse = s.offsetCoarse := rfl
@[simp] theorem sleepSettle_window (s : State) : (s.sleepSettle).window = s.window := rfl
@[simp] theorem sleepSettle_laserSrc (s : State) : (s.sleepSettle).laserSrc = s.laserSrc := rfl
@[simp] theorem sleepSettle_ringRfSrc (s : State) : (s.sleepSettle).ringRfSrc = s.ringRfSrc := rfl
@[simp] theorem sleepSettle_phaseCnt (s : State) : (s.sleepSettle).phaseCnt = s.phaseCnt := rfl
@[simp] theorem sleepSettle_offsetFine (s : State) : (s.sleepSettle).offsetFine = s.offsetFine := rfl
@[simp] theorem sleepSettle_avgPhaseAdv (s : State) : (s.sleepSettle).avgPhaseAdv = s.avgPhaseAdv := rfl
@[simp] theorem sleepSettle_lock (s : State) : (s.sleepSettle).lock = s.lock := rfl
@[simp] theorem sleepSettle_seq (s : State) : (s.sleepSettle).seq = s.seq := rfl
@[simp] theorem sleepSettle_pinDir (s : State) : (s.sleepSettle).pinDir = s.pinDir := rfl
@[simp] theorem sleepSettle_pinLevel (s : State) : (s.sleepSettle).pinLevel = s.pinLevel := rfl
@[simp] theorem sleepSettle_trace (s : State) : (s.sleepSettle).trace = s.trace ++ [.sleep s.params.tSettle] := rfl
@[simp] theorem sleepSettle_pending (s : State) : (s.sleepSettle).pending = s.pending := rfl
@[simp] theorem sleepSettle_turn (s : State) : (s.sleepSettle).turn = s.turn := rfl
@[simp] theorem sleepSettle_replies (s : State) : (s.sleepSettle).replies = s.replies := rfl
@[simp] theorem sleepSettle_freeCount (s : State) : (s.sleepSettle).freeCount = s.freeCount := rfl

/-! ### taking the lock -/

@[simp] theorem acquire_params (s : State) : (s.acquire).params = s.params := rfl
@[simp] theorem acquire_delayRom (s : State) : (s.acquire).delayRom = s.delayRom := rfl
@[simp] theorem acquire_bucket (s : State) : (s.acquire).bucket = s.bucket := rfl
@[simp] theorem acquire_offsetCoarse (s : State) : (s.acquire).offsetCoarse = s.offsetCoarse := rfl
@[simp] theorem acquire_window (s : State) : (s.acquire).window = s.window := rfl
@[simp] theorem acquire_laserSrc (s : State) : (s.acquire).laserSrc = s.laserSrc := rfl
@[simp] theorem acquire_ringRfSrc (s : State) : (s.acquire).ringRfSrc = s.ringRfSrc := rfl
@[simp] theorem acquire_phaseCnt (s : State) : (s.acquire).phaseCnt = s.phaseCnt := rfl
@[simp] theorem acquire_offsetFine (s : State) : (s.acquire).offsetFine = s.offsetFine := rfl
@[simp] theorem acquire_avgPhaseAdv (s : State) : (s.acquire).avgPhaseAdv = s.avgPhaseAdv := rfl
@[simp] theorem acquire_lock (s : State) : (s.acquire).lock = .held s.turn := rfl
@[simp] theorem acquire_seq (s : State) : (s.acquire).seq = s.seq := rfl
@[simp] theorem acquire_pinDir (s : State) : (s.acquire).pinDir = s.pinDir := rfl
@[simp] theorem acquire_pinLevel (s : State) : (s.acquire).pinLevel = s.pinLevel := rfl
@[simp] theorem acquire_trace (s : State) : (s.acquire).trace = s.trace := rfl
@[simp] theorem acquire_pending (s : State) : (s.acquire).pending = s.pending := rfl
@[simp] theorem acquire_turn (s : State) : (s.acquire).turn = s.turn := rfl
@[simp] theorem acquire_replies (s : State) : (s.acquire).replies = s.replies := rfl
@[simp] theorem acquire_freeCount (s : State) : (s.acquire).freeCount = s.freeCount := rfl

/-! ### raising RangeError -/

@[simp] theorem raiseRangeError_params (s : State) (c : RangeCause) (a : Int) : (s.raiseRangeError c a).params = s.params := rfl
@[simp] theorem raiseRangeError_delayRom (s : State) (c : RangeCause) (a : Int) : (s.raiseRangeError c a).delayRom = s.delayRom := rfl
@[simp] theorem raiseRangeError_bucket (s : State) (c : RangeCause) (a : Int) : (s.raiseRangeError c a).bucket = s.bucket := rfl
@[simp] theorem raiseRangeError_offsetCoarse (s : State) (c : RangeCause) (a : Int) : (s.raiseRangeError c a).offsetCoarse = s.offsetCoarse := rfl
@[simp] theorem raiseRangeError_window (s : State) (c : RangeCause) (a : Int) : (s.raiseRangeError c a).window = s.window := rfl
@[simp] theorem raiseRangeError_laserSrc (s : State) (c : RangeCause) (a : Int) : (s.raiseRangeError c a).laserSrc = s.laserSrc := rfl
@[simp] theorem raiseRangeError_ringRfSrc (s : State) (c : RangeCause) (a : Int) : (s.raiseRangeError c a).ringRfSrc = s.ringRfSrc := rfl
@[simp] theorem raiseRangeError_phaseCnt (s : State) (c : RangeCause) (a : Int) : (s.raiseRangeError c a).phaseCnt = s.phaseCnt := rfl
@[simp] theorem raiseRangeError_offsetFine (s : State) (c : RangeCause) (a : Int) : (s.raiseRangeError c a).offsetFine = s.offsetFine := rfl
@[simp] theorem raiseRangeError_avgPhaseAdv (s : State) (c : RangeCause) (a : Int) : (s.raiseRangeError c a).avgPhaseAdv = s.avgPhaseAdv := rfl
@[simp] theorem raiseRangeError_lock (s : State) (c : RangeCause) (a : Int) : (s.raiseRangeError c a).lock = .free := rfl
@[simp] theorem raiseRangeError_seq (s : State) (c : RangeCause) (a : Int) : (s.raiseRangeError c a).seq = .idle := rfl
@[simp] theorem raiseRangeError_pinDir (s : State) (c : RangeCause) (a : Int) : (s.raiseRangeError c a).pinDir = s.pinDir := rfl
@[simp] theorem raiseRangeError_pinLevel (s : State) (c : RangeCause) (a : Int) : (s.raiseRangeError c a).pinLevel = s.pinLevel := rfl
@[simp] theorem raiseRangeError_trace (s : State) (c : RangeCause) (a : Int) : (s.raiseRangeError c a).trace = s.trace := rfl
@[simp] theorem raiseRangeError_pending (s : State) (c : RangeCause) (a : Int) : (s.raiseRangeError c a).pending = s.pending := rfl
@[simp] theorem raiseRangeError_turn (s : State) (c : RangeCause) (a : Int) : (s.raiseRangeError c a).turn = s.turn := rfl
@[simp] theorem raiseRangeError_replies (s : State) (c : RangeCause) (a : Int) : (s.raiseRangeError c a).replies = s.replies ++ [(s.turn, .rangeError c a)] := rfl
@[simp] theorem raiseRangeError_freeCount (s : State) (c : RangeCause) (a : Int) : (s.raiseRangeError c a).freeCount = s.freeCount := rfl

/-! ### a reply -/

@[simp] theorem replied_params (s : State) (r : Reply) : (s.replied r).params = s.params := rfl
@[simp] theorem replied_delayRom (s : State) (r : Reply) : (s.replied r).delayRom = s.delayRom := rfl
@[simp] theorem replied_bucket (s : State) (r : Reply) : (s.replied r).bucket = s.bucket := rfl
@[simp] theorem replied_offsetCoarse (s : State) (r : Reply) : (s.replied r).offsetCoarse = s.offsetCoarse := rfl
@[simp] theorem replied_window (s : State) (r : Reply) : (s.replied r).window = s.window := rfl
@[simp] theorem replied_laserSrc (s : State) (r : Reply) : (s.replied r).laserSrc = s.laserSrc := rfl
@[simp] theorem replied_ringRfSrc (s : State) (r : Reply) : (s.replied r).ringRfSrc = s.ringRfSrc := rfl
@[simp] theorem replied_phaseCnt (s : State) (r : Reply) : (s.replied r).phaseCnt = s.phaseCnt := rfl
@[simp] theorem replied_offsetFine (s : State) (r : Reply) : (s.replied r).offsetFine = s.offsetFine := rfl
@[simp] theorem replied_avgPhaseAdv (s : State) (r : Reply) : (s.replied r).avgPhaseAdv = s.avgPhaseAdv := rfl
@[simp] theorem replied_lock (s : State) (r : Reply) : (s.replied r).lock = s.lock := rfl
@[simp] theorem replied_seq (s : State) (r : Reply) : (s.replied r).seq = s.seq := rfl
@[simp] theorem replied_pinDir (s : State) (r : Reply) : (s.replied r).pinDir = s.pinDir := rfl
@[simp] theorem replied_pinLevel (s : State) (r : Reply) : (s.replied r).pinLevel = s.pinLevel := rfl
@[simp] theorem replied_trace (s : State) (r : Reply) : (s.replied r).trace = s.trace := rfl
@[simp] theorem replied_pending (s : State) (r : Reply) : (s.replied r).pending = s.pending := rfl
@[simp] theorem replied_turn (s : State) (r : Reply) : (s.replied r).turn = s.turn := rfl
@[simp] theorem replied_replies (s : State) (r : Reply) : (s.replied r).replies = s.replies ++ [(s.turn, r)] := rfl
@[simp] theorem replied_freeCount (s : State) (r : Reply) : (s.replied r).freeCount = s.freeCount := rfl

/-! ### driven words -/

@[simp] theorem driven_params (s : State) (ws : List BusWord) : (s.driven ws).params = s.params := rfl
@[simp] theorem driven_delayRom (s : State) (ws : List BusWord) : (s.driven ws).delayRom = s.delayRom := rfl
@[simp] theorem driven_bucket (s : State) (ws : List BusWord) : (s.driven ws).bucket = s.bucket := rfl
@[simp] theorem driven_offsetCoarse (s : State) (ws : List BusWord) : (s.driven ws).offsetCoarse = s.offsetCoarse := rfl
@[simp] theorem driven_window (s : State) (ws : List BusWord) : (s.driven ws).window = s.window := rfl
@[simp] theorem driven_laserSrc (s : State) (ws : List BusWord) : (s.driven ws).laserSrc = s.laserSrc := rfl
@[simp] theorem driven_ringRfSrc (s : State) (ws : List BusWord) : (s.driven ws).ringRfSrc = s.ringRfSrc := rfl
@[simp] theorem driven_phaseCnt (s : State) (ws : List BusWord) : (s.driven ws).phaseCnt = s.phaseCnt := rfl
@[simp] theorem driven_offsetFine (s : State) (ws : List BusWord) : (s.driven ws).offsetFine = s.offsetFine := rfl
@[simp] theorem driven_avgPhaseAdv (s : State) (ws : List BusWord) : (s.driven ws).avgPhaseAdv = s.avgPhaseAdv := rfl
@[simp] theorem driven_lock (s : State) (ws : List BusWord) : (s.driven ws).lock = s.lock := rfl
@[simp] theorem driven_seq (s : State) (ws : List BusWord) : (s.driven ws).seq = s.seq := rfl
@[simp] theorem driven_pinDir (s : State) (ws : List BusWord) : (s.driven ws).pinDir = s.pinDir := rfl
@[simp] theorem driven_pinLevel (s : State) (ws : List BusWord) : (s.driven ws).pinLevel = ws.foldl (linesAfterWord s.params) s.pinLevel := rfl
@[simp] theorem driven_trace (s : State) (ws : List BusWord) : (s.driven ws).trace = s.trace ++ ws.flatMap (wordEvents s.params) := rfl
@[simp] theorem driven_pending (s : State) (ws : List BusWord) : (s.driven ws).pending = s.pending := rfl
@[simp] theorem driven_turn (s : State) (ws : List BusWord) : (s.driven ws).turn = s.turn := rfl
@[simp] theorem driven_replies (s : State) (ws : List BusWord) : (s.driven ws).replies = s.replies := rfl
@[simp] theorem driven_freeCount (s : State) (ws : List BusWord) : (s.driven ws).freeCount = s.freeCount := rfl

/-! ### another block -/

@[simp] theorem asBlockOf_params (s : State) (p : Profile) : (s.asBlockOf p).params = { s.params with profile := p, pins := PinMap.standard p.modeWidth } := rfl
@[simp] theorem asBlockOf_delayRom (s : State) (p : Profile) : (s.asBlockOf p).delayRom = s.delayRom := rfl
@[simp] theorem asBlockOf_bucket (s : State) (p : Profile) : (s.asBlockOf p).bucket = s.bucket := rfl
@[simp] theorem asBlockOf_offsetCoarse (s : State) (p : Profile) : (s.asBlockOf p).offsetCoarse = s.offsetCoarse := rfl
@[simp] theorem asBlockOf_window (s : State) (p : Profile) : (s.asBlockOf p).window = s.window := rfl
@[simp] theorem asBlockOf_laserSrc (s : State) (p : Profile) : (s.asBlockOf p).laserSrc = s.laserSrc := rfl
@[simp] theorem asBlockOf_ringRfSrc (s : State) (p : Profile) : (s.asBlockOf p).ringRfSrc = s.ringRfSrc := rfl
@[simp] theorem asBlockOf_phaseCnt (s : State) (p : Profile) : (s.asBlockOf p).phaseCnt = s.phaseCnt := rfl
@[simp] theorem asBlockOf_offsetFine (s : State) (p : Profile) : (s.asBlockOf p).offsetFine = s.offsetFine := rfl
@[simp] theorem asBlockOf_avgPhaseAdv (s : State) (p : Profile) : (s.asBlockOf p).avgPhaseAdv = s.avgPhaseAdv := rfl
@[simp] theorem asBlockOf_lock (s : State) (p : Profile) : (s.asBlockOf p).lock = s.lock := rfl
@[simp] theorem asBlockOf_seq (s : State) (p : Profile) : (s.asBlockOf p).seq = s.seq := rfl
@[simp] theorem asBlockOf_pinDir (s : State) (p : Profile) : (s.asBlockOf p).pinDir = (State.constructed (Params.standard p)).pinDir := rfl
@[simp] theorem asBlockOf_pinLevel (s : State) (p : Profile) : (s.asBlockOf p).pinLevel = s.pinLevel := rfl
@[simp] theorem asBlockOf_trace (s : State) (p : Profile) : (s.asBlockOf p).trace = s.trace := rfl
@[simp] theorem asBlockOf_pending (s : State) (p : Profile) : (s.asBlockOf p).pending = s.pending := rfl
@[simp] theorem asBlockOf_turn (s : State) (p : Profile) : (s.asBlockOf p).turn = s.turn := rfl
@[simp] theorem asBlockOf_replies (s : State) (p : Profile) : (s.asBlockOf p).replies = s.replies := rfl
@[simp] theorem asBlockOf_freeCount (s : State) (p : Profile) : (s.asBlockOf p).freeCount = s.freeCount := rfl

/-! ### register writes: what no register write touches -/

@[simp] theorem applyWrite_params (s : State) (w : RegWrite) : (s.applyWrite w).params = s.params := by cases w <;> rfl
@[simp] theorem applyWrite_delayRom (s : State) (w : RegWrite) : (s.applyWrite w).delayRom = s.delayRom := by cases w <;> rfl
@[simp] theorem applyWrite_lock (s : State) (w : RegWrite) : (s.applyWrite w).lock = s.lock := by cases w <;> rfl
@[simp] theorem applyWrite_seq (s : State) (w : RegWrite) : (s.applyWrite w).seq = s.seq := by cases w <;> rfl
@[simp] theorem applyWrite_pinDir (s : State) (w : RegWrite) : (s.applyWrite w).pinDir = s.pinDir := by cases w <;> rfl
@[simp] theorem applyWrite_pinLevel (s : State) (w : RegWrite) : (s.applyWrite w).pinLevel = s.pinLevel := by cases w <;> rfl
@[simp] theorem applyWrite_trace (s : State) (w : RegWrite) : (s.applyWrite w).trace = s.trace := by cases w <;> rfl
@[simp] theorem applyWrite_pending (s : State) (w : RegWrite) : (s.applyWrite w).pending = s.pending := by cases w <;> rfl
@[simp] theorem applyWrite_turn (s : State) (w : RegWrite) : (s.applyWrite w).turn = s.turn := by cases w <;> rfl
@[simp] theorem applyWrite_replies (s : State) (w : RegWrite) : (s.applyWrite w).replies = s.replies := by cases w <;> rfl
@[simp] theorem applyWrite_freeCount (s : State) (w : RegWrite) : (s.applyWrite w).freeCount = s.freeCount := by cases w <;> rfl

@[simp] theorem applyWrites_params (s : State) (ws : List RegWrite) : (s.applyWrites ws).params = s.params := by
  induction ws generalizing s with
  | nil => rfl
  | cons w ws ih => exact (ih (s.applyWrite w)).trans (applyWrite_params s w)
@[simp] theorem applyWrites_delayRom (s : State) (ws : List RegWrite) : (s.applyWrites ws).delayRom = s.delayRom := by
  induction ws generalizing s with
  | nil => rfl
  | cons w ws ih => exact (ih (s.applyWrite w)).trans (applyWrite_delayRom s w)
@[simp] theorem applyWrites_lock (s : State) (ws : List RegWrite) : (s.applyWrites ws).lock = s.lock := by
  induction ws generalizing s with
  | nil => rfl
  | cons w ws ih => exact (ih (s.applyWrite w)).trans (applyWrite_lock s w)
@[simp] theorem applyWrites_seq (s : State) (ws : List RegWrite) : (s.applyWrites ws).seq = s.seq := by
  induction ws generalizing s with
  | nil => rfl
  | cons w ws ih => exact (ih (s.applyWrite w)).trans (applyWrite_seq s w)
@[simp] theorem applyWrites_pinDir (s : State) (ws : List RegWrite) : (s.applyWrites ws).pinDir = s.pinDir := by
  induction ws generalizing s with
  | nil => rfl
  | cons w ws ih => exact (ih (s.applyWrite w)).trans (applyWrite_pinDir s w)
@[simp] theorem applyWrites_pinLevel (s : State) (ws : List RegWrite) : (s.applyWrites ws).pinLevel = s.pinLevel := by
  induction ws generalizing s with
  | nil => rfl
  | cons w ws ih => exact (ih (s.applyWrite w)).trans (applyWrite_pinLevel s w)
@[simp] theorem applyWrites_trace (s : State) (ws : List RegWrite) : (s.applyWrites ws).trace = s.trace := by
  induction ws generalizing s with
  | nil => rfl
  | cons w ws ih => exact (ih (s.applyWrite w)).trans (applyWrite_trace s w)
@[simp] theorem applyWrites_pending (s : State) (ws : List RegWrite) : (s.applyWrites ws).pending = s.pending := by
  induction ws generalizing s with
  | nil => rfl
  | cons w ws ih => exact (ih (s.applyWrite w)).trans (applyWrite_pending s w)
@[simp] theorem applyWrites_turn (s : State) (ws : List RegWrite) : (s.applyWrites ws).turn = s.turn := by
  induction ws generalizing s with
  | nil => rfl
  | cons w ws ih => exact (ih (s.applyWrite w)).trans (applyWrite_turn s w)
@[simp] theorem applyWrites_replies (s : State) (ws : List RegWrite) : (s.applyWrites ws).replies = s.replies := by
  induction ws generalizing s with
  | nil => rfl
  | cons w ws ih => exact (ih (s.applyWrite w)).trans (applyWrite_replies s w)
@[simp] theorem applyWrites_freeCount (s : State) (ws : List RegWrite) : (s.applyWrites ws).freeCount = s.freeCount := by
  induction ws generalizing s with
  | nil => rfl
  | cons w ws ih => exact (ih (s.applyWrite w)).trans (applyWrite_freeCount s w)

@[simp] theorem applyWrites_nil (s : State) : s.applyWrites [] = s := rfl

@[simp] theorem applyWrites_cons (s : State) (w : RegWrite) (ws : List RegWrite) :
    s.applyWrites (w :: ws) = (s.applyWrite w).applyWrites ws := rfl

/-! ### the end of a transaction -/

@[simp] theorem finish_params (s : State) (t : Txn) : (s.finish t).params = s.params := by simp [State.finish]
@[simp] theorem finish_delayRom (s : State) (t : Txn) : (s.finish t).delayRom = s.delayRom := by simp [State.finish]
@[simp] theorem finish_bucket (s : State) (t : Txn) : (s.finish t).bucket = (s.applyWrites t.commit).bucket := rfl
@[simp] theorem finish_offsetCoarse (s : State) (t : Txn) : (s.finish t).offsetCoarse = (s.applyWrites t.commit).offsetCoarse := rfl
@[simp] theorem finish_window (s : State) (t : Txn) : (s.finish t).window = (s.applyWrites t.commit).window := rfl
@[simp] theorem finish_laserSrc (s : State) (t : Txn) : (s.finish t).laserSrc = (s.applyWrites t.commit).laserSrc := rfl
@[simp] theorem finish_ringRfSrc (s : State) (t : Txn) : (s.finish t).ringRfSrc = (s.applyWrites t.commit).ringRfSrc := rfl
@[simp] theorem finish_phaseCnt (s : State) (t : Txn) : (s.finish t).phaseCnt = (s.applyWrites t.commit).phaseCnt := rfl
@[simp] theorem finish_offsetFine (s : State) (t : Txn) : (s.finish t).offsetFine = (s.applyWrites t.commit).offsetFine := rfl
@[simp] theorem finish_avgPhaseAdv (s : State) (t : Txn) : (s.finish t).avgPhaseAdv = (s.applyWrites t.commit).avgPhaseAdv := rfl
@[simp] theorem finish_lock (s : State) (t : Txn) : (s.finish t).lock = .free := rfl
@[simp] theorem finish_seq (s : State) (t : Txn) : (s.finish t).seq = .idle := rfl
@[simp] theorem finish_pinDir (s : State) (t : Txn) : (s.finish t).pinDir = s.pinDir := by simp [State.finish]
@[simp] theorem finish_pinLevel (s : State) (t : Txn) : (s.finish t).pinLevel = s.pinLevel := by simp [State.finish]
@[simp] theorem finish_trace (s : State) (t : Txn) : (s.finish t).trace = s.trace := by simp [State.finish]
@[simp] theorem finish_pending (s : State) (t : Txn) : (s.finish t).pending = s.pending := by simp [State.finish]
@[simp] theorem finish_turn (s : State) (t : Txn) : (s.finish t).turn = s.turn := by simp [State.finish]
@[simp] theorem finish_replies (s : State) (t : Txn) : (s.finish t).replies = s.replies ++ [(t.caller, t.result)] := by simp [State.finish]
@[simp] theorem finish_freeCount (s : State) (t : Txn) : (s.finish t).freeCount = s.freeCount := by simp [State.finish]

/-! ### one write phase: the registers and everything else it leaves alone -/

@[simp] theorem writePhase_params (s : State) (w : BusWord) (ph : WritePhase) : (s.writePhase w ph).params = s.params := by cases ph <;> rfl
@[simp] theorem writePhase_delayRom (s : State) (w : BusWord) (ph : WritePhase) : (s.writePhase w ph).delayRom = s.delayRom := by cases ph <;> rfl
@[simp] theorem writePhase_bucket (s : State) (w : BusWord) (ph : WritePhase) : (s.writePhase w ph).bucket = s.bucket := by cases ph <;> rfl
@[simp] theorem writePhase_offsetCoarse (s : State) (w : BusWord) (ph : WritePhase) : (s.writePhase w ph).offsetCoarse = s.offsetCoarse := by cases ph <;> rfl
@[simp] theorem writePhase_window (s : State) (w : BusWord) (ph : WritePhase) : (s.writePhase w ph).window = s.window := by cases ph <;> rfl
@[simp] theorem writePhase_laserSrc (s : State) (w : BusWord) (ph : WritePhase) : (s.writePhase w ph).laserSrc = s.laserSrc := by cases ph <;> rfl
@[simp] theorem writePhase_ringRfSrc (s : State) (w : BusWord) (ph : WritePhase) : (s.writePhase w ph).ringRfSrc = s.ringRfSrc := by cases ph <;> rfl
@[simp] theorem writePhase_phaseCnt (s : State) (w : BusWord) (ph : WritePhase) : (s.writePhase w ph).phaseCnt = s.phaseCnt := by cases ph <;> rfl
@[simp] theorem writePhase_offsetFine (s : State) (w : BusWord) (ph : WritePhase) : (s.writePhase w ph).offsetFine = s.offsetFine := by cases ph <;> rfl
@[simp] theorem writePhase_avgPhaseAdv (s : State) (w : BusWord) (ph : WritePhase) : (s.writePhase w ph).avgPhaseAdv = s.avgPhaseAdv := by cases ph <;> rfl
@[simp] theorem writePhase_lock (s : State) (w : BusWord) (ph : WritePhase) : (s.writePhase w ph).lock = s.lock := by cases ph <;> rfl
@[simp] theorem writePhase_seq (s : State) (w : BusWord) (ph : WritePhase) : (s.writePhase w ph).seq = s.seq := by cases ph <;> rfl
@[simp] theorem writePhase_pinDir (s : State) (w : BusWord) (ph : WritePhase) : (s.writePhase w ph).pinDir = s.pinDir := by cases ph <;> rfl
@[simp] theorem writePhase_pending (s : State) (w : BusWord) (ph : WritePhase) : (s.writePhase w ph).pending = s.pending := by cases ph <;> rfl
@[simp] theorem writePhase_turn (s : State) (w : BusWord) (ph : WritePhase) : (s.writePhase w ph).turn = s.turn := by cases ph <;> rfl
@[simp] theorem writePhase_replies (s : State) (w : BusWord) (ph : WritePhase) : (s.writePhase w ph).replies = s.replies := by cases ph <;> rfl
@[simp] theorem writePhase_freeCount (s : State) (w : BusWord) (ph : WritePhase) : (s.writePhase w ph).freeCount = s.freeCount := by cases ph <;> rfl

/-! ### one word -/

@[simp] theorem emitWord_params (s : State) (w : BusWord) : (s.emitWord w).params = s.params := by simp [State.emitWord]
@[simp] theorem emitWord_delayRom (s : State) (w : BusWord) : (s.emitWord w).delayRom = s.delayRom := by simp [State.emitWord]
@[simp] theorem emitWord_bucket (s : State) (w : BusWord) : (s.emitWord w).bucket = s.bucket := by simp [State.emitWord]
@[simp] theorem emitWord_offsetCoarse (s : State) (w : BusWord) : (s.emitWord w).offsetCoarse = s.offsetCoarse := by simp [State.emitWord]
@[simp] theorem emitWord_window (s : State) (w : BusWord) : (s.emitWord w).window = s.window := by simp [State.emitWord]
@[simp] theorem emitWord_laserSrc (s : State) (w : BusWord) : (s.emitWord w).laserSrc = s.laserSrc := by simp [State.emitWord]
@[simp] theorem emitWord_ringRfSrc (s : State) (w : BusWord) : (s.emitWord w).ringRfSrc = s.ringRfSrc := by simp [State.emitWord]
@[simp] theorem emitWord_phaseCnt (s : State) (w : BusWord) : (s.emitWord w).phaseCnt = s.phaseCnt := by simp [State.emitWord]
@[simp] theorem emitWord_offsetFine (s : State) (w : BusWord) : (s.emitWord w).offsetFine = s.offsetFine := by simp [State.emitWord]
@[simp] theorem emitWord_avgPhaseAdv (s : State) (w : BusWord) : (s.emitWord w).avgPhaseAdv = s.avgPhaseAdv := by simp [State.emitWord]
@[simp] theorem emitWord_lock (s : State) (w : BusWord) : (s.emitWord w).lock = s.lock := by simp [State.emitWord]
@[simp] theorem emitWord_seq (s : State) (w : BusWord) : (s.emitWord w).seq = s.seq := by simp [State.emitWord]
@[simp] theorem emitWord_pinDir (s : State) (w : BusWord) : (s.emitWord w).pinDir = s.pinDir := by simp [State.emitWord]
@[simp] theorem emitWord_pending (s : State) (w : BusWord) : (s.emitWord w).pending = s.pending := by simp [State.emitWord]
@[simp] theorem emitWord_turn (s : State) (w : BusWord) : (s.emitWord w).turn = s.turn := by simp [State.emitWord]
@[simp] theorem emitWord_replies (s : State) (w : BusWord) : (s.emitWord w).replies = s.replies := by simp [State.emitWord]
@[simp] theorem emitWord_freeCount (s : State) (w : BusWord) : (s.emitWord w).freeCount = s.freeCount := by simp [State.emitWord]

end Sys2Proof.Machine
end

