-- ==== Sys2Proof/Laws/Sequencer.lean ====
section
/-! SUPPORT. What emitting a word does, what the sequencer does with a transaction, and what a served host call can do:
one lemma each, to cite instead of unfolding. -/

namespace Sys2Proof.Machine

/-- Emitting a word drives it: six events, the lines at its bits, the strobe at 0. -/
theorem emitWord_eq_driven (s : State) (w : BusWord) : s.emitWord w = s.driven [w] := by
  simp [State.emitWord, State.driven, State.writePhase, State.gpioWrite, State.sleepSettle, wordEvents,
    linesAfterWord, Memory.writeAll, List.foldl]

@[simp] theorem driven_nil (s : State) : s.driven [] = s := by simp [State.driven]

theorem driven_append (s : State) (us ws : List BusWord) : (s.driven us).driven ws = s.driven (us ++ ws) := by
  simp [State.driven, List.append_assoc]

@[simp] theorem driven_with_seq (s : State) (ws : List BusWord) (q : Seq) :
    State.driven { s with seq := q } ws = { s.driven ws with seq := q } := rfl

theorem seqSteps_add (s : State) (m n : Nat) : s.seqSteps (m + n) = (s.seqSteps m).seqSteps n := by
  induction m generalizing s with
  | zero => simp [State.seqSteps]
  | succ m ih => rw [Nat.succ_add]; exact ih s.seqStep

@[simp] theorem seqSteps_idle (s : State) (h : s.seq = .idle) (n : Nat) : s.seqSteps n = s := by
  induction n with
  | zero => rfl
  | succ n ih => simpa [State.seqSteps, State.seqStep, h] using ih

/-- One step of the sequencer, in the middle of a word. -/
theorem seqStep_phase {s : State} {t : Txn} {w : BusWord} {ph : WritePhase} (hs : s.seq = .busy t)
    (hw : t.words[t.k]? = some w) (hp : t.wph.next = some ph) :
    s.seqStep = { s.writePhase w t.wph with seq := .busy { t with wph := ph } } := by
  simp [State.seqStep, hs, hw, hp]

/-- One step of the sequencer, at the last phase of a word. -/
theorem seqStep_last {s : State} {t : Txn} {w : BusWord} (hs : s.seq = .busy t)
    (hw : t.words[t.k]? = some w) (hp : t.wph.next = none) :
    s.seqStep = (s.writePhase w t.wph).afterWord t := by
  simp [State.seqStep, hs, hw, hp]

/-- Register writes do not look at the sequencer. -/
theorem applyWrites_with_seq (s : State) (q : Seq) (ws : List RegWrite) :
    State.applyWrites { s with seq := q } ws = { s.applyWrites ws with seq := q } := by
  induction ws generalizing s with
  | nil => rfl
  | cons w ws ih =>
    rw [applyWrites_cons, applyWrites_cons, ← ih]
    cases w <;> rfl

/-- `afterWord` does not look at the sequencer's old state, nor at the phase in the transaction it is given. -/
theorem afterWord_congr (s : State) (t : Txn) (q : Seq) (ph : WritePhase) :
    State.afterWord { s with seq := q } { t with wph := ph } = s.afterWord t := by
  simp only [State.afterWord, State.finish, applyWrites_with_seq]

/-- A write phase does not look at the sequencer. -/
theorem writePhase_with_seq (s : State) (q : Seq) (w : BusWord) (ph : WritePhase) :
    State.writePhase { s with seq := q } w ph = { s.writePhase w ph with seq := q } := by
  cases ph <;> rfl

/-- Six steps of the sequencer emit the word it is at, and then go on to the next word or commit (R141). -/
theorem seqSteps_word {s : State} {t : Txn} {w : BusWord} (hs : s.seq = .busy t) (ha : t.wph = .assert)
    (hw : t.words[t.k]? = some w) : s.seqSteps 6 = (s.driven [w]).afterWord t := by
  obtain ⟨c, op, ws, k, ph, cm, r⟩ := t
  subst ha
  simp only at hw
  have h1 : s.seqStep = { s.writePhase w .assert with seq := .busy ⟨c, op, ws, k, .settle, cm, r⟩ } :=
    seqStep_phase hs hw rfl
  have at_phase (u : State) (ph ph' : WritePhase) (hp : ph.next = some ph') :
      State.seqStep { u with seq := .busy ⟨c, op, ws, k, ph, cm, r⟩ } =
        { u.writePhase w ph with seq := .busy ⟨c, op, ws, k, ph', cm, r⟩ } := by
    rw [seqStep_phase (t := ⟨c, op, ws, k, ph, cm, r⟩) rfl hw hp, writePhase_with_seq]
  rw [← emitWord_eq_driven]
  simp only [State.seqSteps]
  rw [h1, at_phase _ _ .strobeHi rfl, at_phase _ _ .holdHi rfl, at_phase _ _ .strobeLo rfl,
    at_phase _ _ .holdLo rfl, seqStep_last (t := ⟨c, op, ws, k, .holdLo, cm, r⟩) rfl hw rfl,
    writePhase_with_seq]
  exact afterWord_congr (s.emitWord w) ⟨c, op, ws, k, .assert, cm, r⟩ _ .holdLo

/-- The end of a transaction does not look at the sequencer's old state, nor at where in the transaction it is. -/
theorem finish_congr (s : State) (t : Txn) (q : Seq) (k : Nat) (ph : WritePhase) :
    State.finish { s with seq := q } { t with k := k, wph := ph } = s.finish t := by
  simp only [State.finish, applyWrites_with_seq]

/-- From the start of a word, six steps a word emit every word that is left, in order, and then commit (R91, R92). -/
theorem seqSteps_rest (n : Nat) {s : State} {t : Txn} (hs : s.seq = .busy t) (ha : t.wph = .assert)
    (hn : t.words.length = t.k + (n + 1)) :
    s.seqSteps (6 * (n + 1)) = (s.driven (t.words.drop t.k)).finish t := by
  induction n generalizing s t with
  | zero =>
    have hk : t.k < t.words.length := by omega
    have hd : t.words.drop t.k = [t.words[t.k]] := by
      rw [List.drop_eq_getElem_cons hk, List.drop_eq_nil_of_le (by omega)]
    rw [seqSteps_word hs ha (List.getElem?_eq_getElem hk), hd, State.afterWord, if_neg (by omega)]
  | succ n ih =>
    have hk : t.k < t.words.length := by omega
    rw [show 6 * (n + 1 + 1) = 6 + 6 * (n + 1) by ring, seqSteps_add,
      seqSteps_word hs ha (List.getElem?_eq_getElem hk), State.afterWord, if_pos (by omega)]
    rw [ih (t := { t with k := t.k + 1, wph := .assert }) rfl rfl (by simp only; omega)]
    simp only [driven_with_seq, driven_append]
    rw [List.drop_eq_getElem_cons hk, List.singleton_append]
    exact finish_congr _ t _ (t.k + 1) .assert

/-- A transaction taken from its start emits all its words and commits. -/
theorem startTxn_run (s : State) (t : Txn) (hk : t.k = 0) (ha : t.wph = .assert) :
    (s.startTxn t).seqSteps (6 * t.words.length) = (s.driven t.words).finish t := by
  unfold State.startTxn
  split
  · next h => rw [h, seqSteps_idle _ (finish_seq s t), driven_nil]
  · next h =>
    obtain ⟨n, hn⟩ : ∃ n, t.words.length = n + 1 :=
      Nat.exists_eq_succ_of_ne_zero (by simpa using h)
    have hrun := seqSteps_rest n (s := { s with seq := .busy t }) rfl ha (by omega)
    rw [hn, hrun, hk, List.drop_zero, driven_with_seq]
    exact finish_congr _ t _ t.k t.wph

/-- Performing a plan with words: they are driven in order, then the commit and the reply (R20). -/
theorem perform_eq (s : State) (op : Instr) (words : List (Nat × Command)) (commit : List RegWrite)
    (result : Reply) {ws : List BusWord} (h : encodeWords s.params.profile words = some ws) :
    s.perform op (.perform words commit result) =
      .next ((s.driven ws).finish ⟨s.turn, op, ws, 0, .assert, commit, result⟩) := by
  simp only [State.perform, h]
  rw [startTxn_run s ⟨s.turn, op, ws, 0, .assert, commit, result⟩ rfl rfl]

/-- Register writes do not look at the lock. -/
theorem applyWrites_with_lock (s : State) (l : Lock) (ws : List RegWrite) :
    State.applyWrites { s with lock := l } ws = { s.applyWrites ws with lock := l } := by
  induction ws generalizing s with
  | nil => rfl
  | cons w ws ih =>
    rw [applyWrites_cons, applyWrites_cons, ← ih]
    cases w <;> rfl

/-- Driving words does not look at the lock. -/
theorem driven_acquire (s : State) (ws : List BusWord) : s.acquire.driven ws = (s.driven ws).acquire := rfl

/-- The end of a transaction on a state that was ready and took the lock. -/
theorem finish_acquire {s : State} (h : s.ready) (t : Txn) (ht : t.caller = s.turn) :
    s.acquire.finish t = (s.applyWrites t.commit).replied t.result := by
  obtain ⟨hl, hq⟩ := h
  have h1 : s.acquire.applyWrites t.commit = { s.applyWrites t.commit with lock := .held s.turn } :=
    applyWrites_with_lock s _ _
  simp only [State.finish, h1, State.replied, ht]
  have hl' : (s.applyWrites t.commit).lock = .free := by simp [hl]
  have hq' : (s.applyWrites t.commit).seq = .idle := by simp [hq]
  have ht' : (s.applyWrites t.commit).turn = s.turn := by simp
  rw [← hl', ← hq', ht']

/-- Raising RangeError on a state that was ready and took the lock: only the reply is left (R262). -/
theorem raise_acquire {s : State} (h : s.ready) (c : RangeCause) (a : Int) :
    s.acquire.raiseRangeError c a = s.replied (.rangeError c a) := by
  obtain ⟨hl, hq⟩ := h
  simp only [State.raiseRangeError, State.acquire, State.replied]
  rw [← hl, ← hq]

/-- A served call that performs: the words driven in order, the registers written, the result returned. -/
theorem transaction_performs {s : State} (hr : s.ready) {op : Instr} {plan : State → Plan}
    {words : List (Nat × Command)} {commit : List RegWrite} {result : Reply} {ws : List BusWord}
    (hp : plan s.acquire = .perform words commit result) (he : encodeWords s.params.profile words = some ws) :
    s.transaction op plan = .next (((s.driven ws).applyWrites commit).replied result) := by
  have hd : (s.driven ws).ready := hr
  rw [State.transaction, hr.1, hr.2]
  simp only [hp]
  rw [perform_eq s.acquire op words commit result he, driven_acquire, finish_acquire hd _ rfl]

/-- A served call that raises RangeError: only the reply is added (R262). -/
theorem transaction_raises {s : State} (hr : s.ready) {op : Instr} {plan : State → Plan} {c : RangeCause}
    {a : Int} (hp : plan s.acquire = .error c a) :
    s.transaction op plan = .next (s.replied (.rangeError c a)) := by
  rw [State.transaction, hr.1, hr.2]
  simp only [hp, State.perform, raise_acquire hr]

/-- A served call that is refused. -/
theorem transaction_refuses {s : State} (hr : s.ready) {op : Instr} {plan : State → Plan} {r : Refusal}
    (hp : plan s.acquire = .refuse r) : s.transaction op plan = .refused r := by
  rw [State.transaction, hr.1, hr.2]
  simp only [hp, State.perform]

/-- A call made while another one holds the block waits (R270). -/
theorem transaction_waits {s : State} (hr : ¬ s.ready) (op : Instr) (plan : State → Plan) :
    s.transaction op plan = .next { s with pending := s.pending ++ [{ caller := s.turn, op := op }] } := by
  unfold State.transaction
  split
  · next hl hq => exact absurd ⟨hl, hq⟩ hr
  · rfl

/-- Everything a host operation can do when it answers a next state. -/
theorem transaction_cases {s u : State} {op : Instr} {plan : State → Plan}
    (h : s.transaction op plan = .next u) :
    (¬ s.ready ∧ u = { s with pending := s.pending ++ [{ caller := s.turn, op := op }] })
    ∨ (s.ready ∧ ∃ c a, plan s.acquire = .error c a ∧ u = s.replied (.rangeError c a))
    ∨ (s.ready ∧ ∃ words commit result ws, plan s.acquire = .perform words commit result
        ∧ encodeWords s.params.profile words = some ws
        ∧ u = ((s.driven ws).applyWrites commit).replied result) := by
  by_cases hr : s.ready
  · right
    cases hp : plan s.acquire with
    | refuse r => rw [transaction_refuses hr hp] at h; cases h
    | error c a =>
      rw [transaction_raises hr hp] at h
      exact .inl ⟨hr, c, a, rfl, by cases h; rfl⟩
    | perform words commit result =>
      cases he : encodeWords s.params.profile words with
      | some ws =>
        rw [transaction_performs hr hp he] at h
        exact .inr ⟨hr, words, commit, result, ws, rfl, he, by cases h; rfl⟩
      | none =>
        rw [State.transaction, hr.1, hr.2] at h
        simp [hp, State.perform, he] at h
  · exact .inl ⟨hr, by rw [transaction_waits hr] at h; cases h; rfl⟩

/-- Everything a bus command can do when it answers a next state: it drives its word. -/
theorem busCommand_cases {s u : State} {r : Revision} {c : Command} {d : Byte}
    (h : s.busCommand r c d = .next u) :
    r = s.params.profile.revision ∧ ∃ m, s.params.profile.modeField c = some m ∧ u = s.driven [⟨d, m⟩] := by
  unfold State.busCommand at h
  split at h
  · next hr =>
    split at h
    · cases h
    · next m hm => exact ⟨hr, m, hm, by cases h; exact emitWord_eq_driven s _⟩
  · cases h

/-- A bus command of the block's revision whose command is in the Mode Table drives its word. -/
theorem busCommand_drives {s : State} {r : Revision} {c : Command} {m : Nat} (d : Byte)
    (hr : s.params.profile.revision = r) (hm : s.params.profile.modeField c = some m) :
    s.busCommand r c d = .next (s.driven [⟨d, m⟩]) := by
  simp [State.busCommand, hr, hm, emitWord_eq_driven]

end Sys2Proof.Machine
end

