-- ==== Sys2Proof/Laws/Operations.lean ====
section
/-! SUPPORT. What each instruction comes to: a bus command is `emit_word` of its row, a host operation a transaction of a
plan; which arguments are in an operation's domain; and everything a plan can perform or raise. -/

namespace Sys2Proof.Machine

/-! ### Bus commands -/

/-- A bus command emits the word of its row. -/
theorem exec_busCommand {i : Instr} {r : Revision} {c : Command} {d : Byte} (h : i.row = some (r, c, d))
    (s : State) : exec i s = s.busCommand r c d := by
  cases i <;> simp only [Instr.row, Option.some.injEq, Prod.mk.injEq, reduceCtorEq] at h <;>
    obtain ⟨rfl, rfl, rfl⟩ := h <;> rfl

/-- Everything a bus command can do when it answers a next state: it drives its word. -/
theorem exec_busCommand_cases {i : Instr} {r : Revision} {c : Command} {d : Byte} {s u : State}
    (h : i.row = some (r, c, d)) (he : exec i s = .next u) :
    r = s.params.profile.revision ∧ ∃ m, s.params.profile.modeField c = some m ∧ u = s.driven [⟨d, m⟩] := by
  rw [exec_busCommand h] at he
  exact busCommand_cases he

/-! ### Host operations -/

/-- The plan a host operation makes (R20). A bus command makes none. -/
def hostPlan (i : Instr) (s : State) : Plan :=
  match i with
  | .setBucket b => Plan.withArg (argU8 b) (planSetBucket s)
  | .getBucket => .perform [] [] (.byte s.bucket)
  | .setWindow x => Plan.withArg (argDelay x) (planSetWindow s)
  | .getWindow => .perform [] [] (.real s.window)
  | .setLaserTrig t => Plan.ifPresent s.params.profile.hasLaser (planSetLaserTrig s t)
  | .getLaserTrig => Plan.ifPresent s.params.profile.hasLaser (.perform [] [] (.str s.laserSrc.text))
  | .setRingRfSource t => Plan.ifPresent s.params.profile.hasRingRf (planSetRingRfSource s t)
  | .getRingRfSource => Plan.ifPresent s.params.profile.hasRingRf (.perform [] [] (.str s.ringRfSrc.text))
  | .setOffsetFine t => Plan.ifPresent (hasFine s.params.profile) (Plan.withArg (argInt t) (planSetOffsetFine s))
  | .getOffsetFine => Plan.ifPresent (hasFine s.params.profile) (.perform [] [] (.int s.offsetFine))
  | .setOffsetCoarse c =>
    Plan.ifPresent s.params.profile.hasCoarse (Plan.withArg (argU8 c) (planSetOffsetCoarse s))
  | .getOffsetCoarse => Plan.ifPresent s.params.profile.hasCoarse (.perform [] [] (.byte s.offsetCoarse))
  | .setAvgPhaseAdvance x => Plan.withArg (argReal x) planSetAvgPhaseAdvance
  | .p1Bucket _ | .p1Window _ | .p2Bucket _ | .p2Window _ | .p2IncPhase _ | .p2DecPhase _ | .p2PauseTrig _
  | .p2LaserTrigSource _ | .p2QuadSel _ | .p3Bucket _ | .p3Window _ | .p3IncPhase _ | .p3DecPhase _
  | .p3PauseTrig _ | .p3LaserTrigSource _ | .p3RingRfSource _ => .refuse .otherRevision

/-- A host operation is a transaction of its plan. -/
theorem exec_host {i : Instr} (h : i.isHostOp = true) (s : State) : exec i s = s.transaction i (hostPlan i) := by
  cases i <;> first | rfl | cases h

/-- An instruction is a host operation, or stands in a row of the bus words. -/
theorem host_or_row (i : Instr) : i.isHostOp = true ∨ ∃ r c d, i.row = some (r, c, d) := by
  cases i <;> first | exact .inl rfl | exact .inr ⟨_, _, _, rfl⟩

/-- A plan does not look at the lock. -/
@[simp] theorem hostPlan_acquire (i : Instr) (s : State) : hostPlan i s.acquire = hostPlan i s := by
  cases i <;> rfl

/-- Everything any instruction can do when it answers a next state. -/
theorem exec_cases {i : Instr} {s u : State} (h : exec i s = .next u) :
    (∃ r c d m, i.row = some (r, c, d) ∧ s.params.profile.modeField c = some m ∧ u = s.driven [⟨d, m⟩])
    ∨ (i.isHostOp = true ∧ ¬ s.ready ∧ u = { s with pending := s.pending ++ [{ caller := s.turn, op := i }] })
    ∨ (i.isHostOp = true ∧ s.ready ∧ ∃ c a, hostPlan i s = .error c a ∧ u = s.replied (.rangeError c a))
    ∨ (i.isHostOp = true ∧ s.ready ∧ ∃ words commit result ws, hostPlan i s = .perform words commit result
        ∧ encodeWords s.params.profile words = some ws
        ∧ u = ((s.driven ws).applyWrites commit).replied result) := by
  rcases host_or_row i with hi | ⟨r, c, d, hi⟩
  · rw [exec_host hi] at h
    rcases transaction_cases h with h | ⟨hr, c, a, hp, hu⟩ | ⟨hr, words, commit, result, ws, hp, he, hu⟩
    · exact .inr (.inl ⟨hi, h⟩)
    · exact .inr (.inr (.inl ⟨hi, hr, c, a, by simpa using hp, hu⟩))
    · exact .inr (.inr (.inr ⟨hi, hr, words, commit, result, ws, by simpa using hp, he, hu⟩))
  · obtain ⟨-, m, hm, hu⟩ := exec_busCommand_cases hi h
    exact .inl ⟨r, c, d, m, hi, hm, hu⟩

/-- A served host operation that performs its plan. -/
theorem exec_performs {i : Instr} {s : State} (hi : i.isHostOp = true) (hr : s.ready)
    {words : List (Nat × Command)} {commit : List RegWrite} {result : Reply} {ws : List BusWord}
    (hp : hostPlan i s = .perform words commit result) (he : encodeWords s.params.profile words = some ws) :
    exec i s = .next (((s.driven ws).applyWrites commit).replied result) := by
  rw [exec_host hi]
  exact transaction_performs hr (by simpa using hp) he

/-- A served host operation that raises RangeError. -/
theorem exec_raises {i : Instr} {s : State} (hi : i.isHostOp = true) (hr : s.ready) {c : RangeCause} {a : Int}
    (hp : hostPlan i s = .error c a) : exec i s = .next (s.replied (.rangeError c a)) := by
  rw [exec_host hi]
  exact transaction_raises hr (by simpa using hp)

/-- A served host operation that is refused. -/
theorem exec_refuses {i : Instr} {s : State} (hi : i.isHostOp = true) (hr : s.ready) {r : Refusal}
    (hp : hostPlan i s = .refuse r) : exec i s = .refused r := by
  rw [exec_host hi]
  exact transaction_refuses hr (by simpa using hp)

/-! ### Arguments -/

@[simp] theorem argU8_natCast (b : Nat) : argU8 (.fin b) = if b ≤ 255 then some b else none := by
  simp [argU8]

@[simp] theorem argInt_intCast (t : Int) : argInt (.fin t) = some t := by simp [argInt]

/-- What a u8 argument is. -/
theorem argU8_eq_some {n : Num} {b : Nat} : argU8 n = some b ↔ n = .fin b ∧ b ≤ 255 := by
  cases n with
  | fin q =>
    constructor
    · intro h
      simp only [argU8, Option.ite_none_right_eq_some, Option.some.injEq] at h
      obtain ⟨⟨hd, h0, h1⟩, rfl⟩ := h
      have hz : ((q.num.toNat : Int) : Rat) = q := by
        rw [Int.toNat_of_nonneg h0]; exact Rat.coe_int_num_of_den_eq_one hd
      exact ⟨by rw [← hz]; rfl, by omega⟩
    · rintro ⟨h, hb⟩
      rw [h]; simp [hb]
  | nan => simp [argU8]
  | posInf => simp [argU8]
  | negInf => simp [argU8]

/-- What an integer argument is. -/
theorem argInt_eq_some {n : Num} {t : Int} : argInt n = some t ↔ n = .fin t := by
  cases n with
  | fin q =>
    simp only [argInt, Option.ite_none_right_eq_some, Option.some.injEq, Num.fin.injEq]
    constructor
    · rintro ⟨hd, rfl⟩; exact (Rat.coe_int_num_of_den_eq_one hd).symm
    · rintro rfl; simp
  | nan => simp [argInt]
  | posInf => simp [argInt]
  | negInf => simp [argInt]

/-- What a delay argument is. -/
theorem argDelay_eq_some {n : Num} {x : Rat} : argDelay n = some x ↔ n = .fin x ∧ 0 ≤ x := by
  cases n with
  | fin q =>
    simp only [argDelay, Option.ite_none_right_eq_some, Option.some.injEq, Num.fin.injEq, Rat.num_nonneg]
    constructor
    · rintro ⟨h, rfl⟩; exact ⟨rfl, h⟩
    · rintro ⟨rfl, h⟩; exact ⟨h, rfl⟩
  | nan => simp [argDelay]
  | posInf => simp [argDelay]
  | negInf => simp [argDelay]

/-- What a finite real argument is. -/
theorem argReal_eq_some {n : Num} {x : Rat} : argReal n = some x ↔ n = .fin x := by
  cases n <;> simp [argReal]

/-- The domain of a u8 argument is the one WellFormed checks. -/
@[simp] theorem argU8_isSome (n : Num) : (argU8 n).isSome = n.isU8 := by
  cases n with
  | fin q =>
    simp only [argU8, Num.isU8]
    by_cases h : q.den = 1 ∧ 0 ≤ q.num ∧ q.num ≤ 255
    · obtain ⟨h1, h2, h3⟩ := h
      simp only [h1, h2, h3, and_self, if_true, Option.isSome_some, decide_true, Bool.and_self]
    · rw [if_neg h]
      simp only [← Bool.decide_and, and_assoc]
      exact (decide_eq_false h).symm
  | nan => rfl
  | posInf => rfl
  | negInf => rfl

/-- The domain of an integer argument is the one WellFormed checks. -/
@[simp] theorem argInt_isSome (n : Num) : (argInt n).isSome = n.isInteger := by
  cases n with
  | fin q => simp only [argInt, Num.isInteger]; split <;> simp_all
  | nan => rfl
  | posInf => rfl
  | negInf => rfl

/-- The domain of a delay argument is the one WellFormed checks. -/
@[simp] theorem argDelay_isSome (n : Num) : (argDelay n).isSome = n.isDelay := by
  cases n with
  | fin q => simp only [argDelay, Num.isDelay]; split <;> simp_all
  | nan => rfl
  | posInf => rfl
  | negInf => rfl

/-- The domain of a real argument is the one WellFormed checks. -/
@[simp] theorem argReal_isSome (n : Num) : (argReal n).isSome = n.isFinite := by cases n <;> rfl

/-! ### Encoding a plan's words -/

@[simp] theorem encodeWords_nil (p : Profile) : encodeWords p [] = some [] := rfl

/-- Words are encoded one by one. -/
theorem encodeWords_cons_eq_some {p : Profile} {v : Nat} {c : Command} {rest : List (Nat × Command)}
    {ws : List BusWord} :
    encodeWords p ((v, c) :: rest) = some ws ↔
      ∃ w ws', p.busWord v c = some w ∧ encodeWords p rest = some ws' ∧ ws = w :: ws' := by
  simp only [encodeWords]
  cases h : p.busWord v c with
  | none => simp
  | some w =>
    cases h' : encodeWords p rest with
    | none => simp
    | some ws' =>
      simp only [Option.some.injEq]
      constructor
      · rintro rfl; exact ⟨w, ws', rfl, rfl, rfl⟩
      · rintro ⟨_, _, rfl, rfl, rfl⟩; rfl

/-- Encoding keeps the number of words. -/
theorem encodeWords_length {p : Profile} {words : List (Nat × Command)} {ws : List BusWord}
    (h : encodeWords p words = some ws) : ws.length = words.length := by
  induction words generalizing ws with
  | nil => cases h; rfl
  | cons e words ih =>
    obtain ⟨w, ws', -, h', rfl⟩ := encodeWords_cons_eq_some.1 h
    simp [ih h']

/-- A plan's words encode exactly to their data fields under their mode fields, in order. -/
theorem encodeWords_eq_some {p : Profile} {words : List (Nat × Command)} {ws : List BusWord} :
    encodeWords p words = some ws ↔
      ws.map (fun w => (some w.mode, w.data)) = words.map fun e => (p.modeField e.2, busData e.1) := by
  induction words generalizing ws with
  | nil => cases ws <;> simp
  | cons e words ih =>
    rw [encodeWords_cons_eq_some]
    constructor
    · rintro ⟨w, ws', hw, h', rfl⟩
      obtain ⟨hm, hd⟩ := busWord_eq_some.1 hw
      rw [List.map_cons, List.map_cons, ih.1 h', hm, hd]
    · intro h
      cases ws with
      | nil => simp at h
      | cons w ws =>
        rw [List.map_cons, List.map_cons, List.cons.injEq, Prod.mk.injEq] at h
        exact ⟨w, ws, busWord_eq_some.2 ⟨h.1.1.symm, h.1.2⟩, ih.2 h.2, rfl⟩

/-- A plan encodes where the Mode Table has every command of it. -/
theorem encodeWords_isSome {p : Profile} {words : List (Nat × Command)}
    (h : ∀ e ∈ words, (p.modeField e.2).isSome = true) : ∃ ws, encodeWords p words = some ws := by
  induction words with
  | nil => exact ⟨[], rfl⟩
  | cons e words ih =>
    obtain ⟨m, hm⟩ := Option.isSome_iff_exists.1 (h e List.mem_cons_self)
    obtain ⟨ws, hws⟩ := ih fun e' he' => h e' (List.mem_cons_of_mem _ he')
    exact ⟨_, encodeWords_cons_eq_some.2 ⟨_, ws, busWord_eq hm, hws, rfl⟩⟩

/-- Every encoded word stands for a planned one. -/
theorem encodeWords_mem {p : Profile} {words : List (Nat × Command)} {ws : List BusWord}
    (h : encodeWords p words = some ws) {w : BusWord} (hw : w ∈ ws) :
    ∃ e ∈ words, p.modeField e.2 = some w.mode ∧ w.data = busData e.1 := by
  induction words generalizing ws with
  | nil => cases h; cases hw
  | cons e words ih =>
    obtain ⟨w', ws', h1, h2, rfl⟩ := encodeWords_cons_eq_some.1 h
    rcases List.mem_cons.1 hw with rfl | hw
    · exact ⟨e, List.mem_cons_self, busWord_eq_some.1 h1⟩
    · obtain ⟨e', he', h'⟩ := ih h2 hw
      exact ⟨e', List.mem_cons_of_mem _ he', h'⟩

/-! ### The phase step -/

/-- The two step words. -/
theorem stepWord_cases (delta : Int) :
    (0 < delta ∧ stepWord delta = (delta.natAbs, .incPhase)) ∨ (delta ≤ 0 ∧ stepWord delta = (delta.natAbs, .decPhase)) := by
  by_cases h : 0 < delta
  · exact .inl ⟨h, if_pos h⟩
  · exact .inr ⟨not_lt.1 h, if_neg h⟩

/-- What the DIRECT checks let through. -/
theorem directError_eq_none {p : Profile} {t count : Int} :
    directError p t count = none ↔ 0 ≤ t ∧ ((directDelta t count).natAbs : Int) ≤ p.fineStepBound := by
  unfold directError exceedsStep
  split
  · simp only [reduceCtorEq, false_iff]; omega
  · split <;> simp_all

/-- What the QUADRATURE checks let through. -/
theorem quadError_eq_none {p : Profile} {t count : Int} :
    quadError p t count = none ↔
      0 ≤ t ∧ quadrantOf p t < p.quadBound ∧ ((quadDelta p t count).natAbs : Int) ≤ p.fineStepBound := by
  unfold quadError exceedsStep
  split
  · simp only [reduceCtorEq, false_iff]; omega
  · split
    · simp only [reduceCtorEq, false_iff]; omega
    · split <;> simp_all

/-- With a positive `QUAD_COUNTS` the quadrant is the quotient (R205). -/
theorem quadrantOf_of_pos {p : Profile} (h : 0 < p.quadCounts) (t : Int) : quadrantOf p t = t / p.quadCounts := if_pos h

/-- With a positive `QUAD_COUNTS` the fine count is the remainder (R205). -/
theorem fineCountOf_of_pos {p : Profile} (h : 0 < p.quadCounts) (t : Int) : fineCountOf p t = t % p.quadCounts := if_pos h

/-- The quadrant of a target of at least 0 is at least 0. -/
theorem quadrantOf_nonneg (p : Profile) {t : Int} (ht : 0 ≤ t) : 0 ≤ quadrantOf p t := by
  unfold quadrantOf
  split
  · next h => exact Int.ediv_nonneg ht h.le
  · exact Int.natCast_nonneg _

/-- A step between fine counts is below `QUAD_COUNTS` (R205). -/
theorem quadDelta_lt {p : Profile} (h : 0 < p.quadCounts) (t count : Int) :
    ((quadDelta p t count).natAbs : Int) < p.quadCounts := by
  have h1 := Int.emod_nonneg t h.ne'
  have h2 := Int.emod_nonneg count h.ne'
  have h3 := Int.emod_lt_of_pos t h
  have h4 := Int.emod_lt_of_pos count h
  rw [quadDelta, fineCountOf_of_pos h, fineCountOf_of_pos h]
  omega

/-! ### What a plan can raise -/

/-- Everything a plan can raise (R261). -/
theorem hostPlan_error {i : Instr} {s : State} {c : RangeCause} {a : Int} (h : hostPlan i s = .error c a) :
    (∃ b, i = .setBucket b ∧ c = .bucket ∧ argU8 b = some a.toNat)
    ∨ (∃ b, i = .setOffsetCoarse b ∧ c = .coarse ∧ argU8 b = some a.toNat ∧ s.params.profile.hasCoarse = true)
    ∨ (∃ n, i = .setOffsetFine n ∧ argInt n = some a ∧
        ((s.params.profile.fineVariant = .direct ∧ directError s.params.profile a s.phaseCnt = some c)
          ∨ (s.params.profile.fineVariant = .quadrature ∧ quadError s.params.profile a s.phaseCnt = some c))) := by
  cases i <;> simp only [hostPlan, Plan.withArg, Plan.ifPresent, planSetLaserTrig, planSetRingRfSource,
    planSetAvgPhaseAdvance, reduceCtorEq] at h
  case setBucket n =>
    split at h <;> [cases h; skip]
    next b hb =>
      simp only [planSetBucket] at h
      split at h <;> cases h
      exact .inl ⟨n, rfl, rfl, by simpa using hb⟩
  case setOffsetCoarse n =>
    split at h <;> [skip; cases h]
    next hp =>
      split at h <;> [cases h; skip]
      next b hb =>
        simp only [planSetOffsetCoarse] at h
        split at h <;> cases h
        exact .inr (.inl ⟨n, rfl, rfl, by simpa using hb, hp⟩)
  case setOffsetFine n =>
    split at h <;> [skip; cases h]
    split at h <;> [cases h; skip]
    next t ht =>
      simp only [planSetOffsetFine] at h
      split at h
      · cases h
      · next hv =>
        simp only [planOffsetFineDirect] at h
        split at h <;> cases h
        next he => exact .inr (.inr ⟨n, rfl, ht, .inl ⟨hv, he⟩⟩)
      · next hv =>
        simp only [planOffsetFineQuad] at h
        split at h <;> cases h
        next he => exact .inr (.inr ⟨n, rfl, ht, .inr ⟨hv, he⟩⟩)
  all_goals
    split at h <;> cases h

/-! ### What a plan can perform -/

/-- What a transaction of one operation writes and emits, when its plan is performed. -/
theorem hostPlan_perform {i : Instr} {s : State} {words : List (Nat × Command)} {commit : List RegWrite}
    {result : Reply} (h : hostPlan i s = .perform words commit result) :
    (∃ b : Nat, i = .setBucket (.fin b) ∧ b ≤ 255 ∧
        bucketSum s.params.profile b s.offsetCoarse.toNat ≤ 255 ∧
        words = [(bucketSum s.params.profile b s.offsetCoarse.toNat, .bucket)] ∧
        commit = [.bucket (BitVec.ofNat 8 b)] ∧ result = .ok)
    ∨ (∃ c : Nat, i = .setOffsetCoarse (.fin c) ∧ c ≤ 255 ∧ s.params.profile.hasCoarse = true ∧
        bucketSum s.params.profile s.bucket.toNat c ≤ 255 ∧
        words = [(bucketSum s.params.profile s.bucket.toNat c, .bucket)] ∧
        commit = [.offsetCoarse (BitVec.ofNat 8 c)] ∧ result = .ok)
    ∨ (∃ x : Rat, i = .setWindow (.fin x) ∧ 0 ≤ x ∧ words = [((quantize s.delayRom x).1, .window)] ∧
        commit = [.window (quantize s.delayRom x).2] ∧ result = .unit)
    ∨ (∃ t, i = .setLaserTrig t ∧ s.params.profile.hasLaser = true ∧
        words = [(laserBitOf s.params.laserBit (laserOf t), .laserTrigSource)] ∧
        commit = [.laserSrc (laserOf t)] ∧ result = .unit)
    ∨ (∃ t, i = .setRingRfSource t ∧ s.params.profile.hasRingRf = true ∧
        words = [(ringBitOf s.params.ringBit (ringOf t), .ringRfSource)] ∧
        commit = [.ringRfSrc (ringOf t)] ∧ result = .unit)
    ∨ (∃ t : Int, i = .setOffsetFine (.fin t) ∧ commit = fineCommit t ∧ result = .okInt t ∧
        ((s.params.profile.fineVariant = .direct ∧ directError s.params.profile t s.phaseCnt = none ∧
            words = [(1, .pauseTrig), stepWord (directDelta t s.phaseCnt)] ++ resumeWords s.params.profile)
          ∨ (s.params.profile.fineVariant = .quadrature ∧ quadError s.params.profile t s.phaseCnt = none ∧
            words = [(1, .pauseTrig), stepWord (quadDelta s.params.profile t s.phaseCnt),
              ((quadrantOf s.params.profile t).toNat, .quadSel)] ++ resumeWords s.params.profile)))
    ∨ (∃ x : Rat, i = .setAvgPhaseAdvance (.fin x) ∧ words = [] ∧ commit = [.avgPhaseAdv x] ∧ result = .unit)
    ∨ (words = [] ∧ commit = [] ∧
        ((i = .getBucket ∧ result = .byte s.bucket) ∨ (i = .getWindow ∧ result = .real s.window)
          ∨ (i = .getLaserTrig ∧ result = .str s.laserSrc.text)
          ∨ (i = .getRingRfSource ∧ result = .str s.ringRfSrc.text)
          ∨ (i = .getOffsetFine ∧ result = .int s.offsetFine)
          ∨ (i = .getOffsetCoarse ∧ result = .byte s.offsetCoarse))) := by
  cases i <;> simp only [hostPlan, Plan.withArg, Plan.ifPresent, planSetLaserTrig, planSetRingRfSource,
    planSetAvgPhaseAdvance, reduceCtorEq] at h
  case setBucket n =>
    left
    split at h <;> [cases h; skip]
    next b hb =>
      obtain ⟨rfl, hb'⟩ := argU8_eq_some.1 hb
      simp only [planSetBucket] at h
      split at h <;> cases h
      next he => exact ⟨b, rfl, hb', by simpa [exceedsByte] using he, rfl, rfl, rfl⟩
  case setOffsetCoarse n =>
    right; left
    split at h <;> [skip; cases h]
    next hp =>
      split at h <;> [cases h; skip]
      next b hb =>
        obtain ⟨rfl, hb'⟩ := argU8_eq_some.1 hb
        simp only [planSetOffsetCoarse] at h
        split at h <;> cases h
        next he => exact ⟨b, rfl, hb', hp, by simpa [exceedsByte] using he, rfl, rfl, rfl⟩
  case setWindow n =>
    right; right; left
    split at h <;> [cases h; skip]
    next x hx =>
      obtain ⟨rfl, hx'⟩ := argDelay_eq_some.1 hx
      cases h
      exact ⟨x, rfl, hx', rfl, rfl, rfl⟩
  case setLaserTrig t =>
    right; right; right; left
    split at h <;> cases h
    next hp => exact ⟨t, rfl, hp, rfl, rfl, rfl⟩
  case setRingRfSource t =>
    right; right; right; right; left
    split at h <;> cases h
    next hp => exact ⟨t, rfl, hp, rfl, rfl, rfl⟩
  case setOffsetFine n =>
    right; right; right; right; right; left
    split at h <;> [skip; cases h]
    split at h <;> [cases h; skip]
    next t ht =>
      obtain rfl := argInt_eq_some.1 ht
      simp only [planSetOffsetFine] at h
      split at h
      · cases h
      · next hv =>
        simp only [planOffsetFineDirect] at h
        split at h <;> cases h
        next he => exact ⟨t, rfl, rfl, rfl, .inl ⟨hv, he, rfl⟩⟩
      · next hv =>
        simp only [planOffsetFineQuad] at h
        split at h <;> cases h
        next he => exact ⟨t, rfl, rfl, rfl, .inr ⟨hv, he, rfl⟩⟩
  case setAvgPhaseAdvance n =>
    right; right; right; right; right; right; left
    split at h <;> [cases h; skip]
    next x hx =>
      obtain rfl := argReal_eq_some.1 hx
      cases h
      exact ⟨x, rfl, rfl, rfl, rfl⟩
  case getBucket => cases h; simp
  case getWindow => cases h; simp
  all_goals
    split at h <;> cases h
    simp

/-- A performed plan's words are the planned ones, as many as R112 says; and its result is no RangeError. -/
theorem hostPlan_words {i : Instr} {s : State} {words : List (Nat × Command)} {commit : List RegWrite}
    {result : Reply} (h : hostPlan i s = .perform words commit result) :
    words = plannedWords s i ∧ words.length = wordCount s.params.profile i ∧ ∀ c a, result ≠ .rangeError c a := by
  rcases hostPlan_perform h with ⟨b, hi, hb, _, hw, _, hr⟩ | ⟨c, hi, hc, _, _, hw, _, hr⟩ | ⟨x, hi, hx, hw, _, hr⟩ |
    ⟨_, hi, _, hw, _, hr⟩ | ⟨_, hi, _, hw, _, hr⟩ | ⟨t, hi, _, hr, ⟨hv, _, hw⟩ | ⟨hv, _, hw⟩⟩ | ⟨_, hi, hw, _, hr⟩ |
    ⟨hw, _, hg⟩
  · subst hw hi hr; simp [plannedWords, wordCount, hb, bucketSum]
  · subst hw hi hr; simp [plannedWords, wordCount, hc, bucketSum]
  · subst hw hi hr; simp [plannedWords, wordCount, argDelay_eq_some.2 ⟨rfl, hx⟩]
  · subst hw hi hr; simp [plannedWords, wordCount]
  · subst hw hi hr; simp [plannedWords, wordCount]
  · subst hw hi hr; cases hf : s.params.profile.fineResume <;> simp [plannedWords, wordCount, resumeWords, hv, hf]
  · subst hw hi hr; cases hf : s.params.profile.fineResume <;> simp [plannedWords, wordCount, resumeWords, hv, hf]
  · subst hw hi hr; simp [plannedWords, wordCount]
  · subst hw
    rcases hg with ⟨rfl, rfl⟩ | ⟨rfl, rfl⟩ | ⟨rfl, rfl⟩ | ⟨rfl, rfl⟩ | ⟨rfl, rfl⟩ | ⟨rfl, rfl⟩ <;>
      simp [plannedWords, wordCount]

end Sys2Proof.Machine
end

