-- ==== Sys2Proof/Laws/Observe.lean ====
section
/-! SUPPORT. What sound parameters give, and the words a receiver latches from the trace: driving words latches exactly
those words (R147). -/

namespace Sys2Proof.Machine

/-! ### Sound parameters -/

/-- The first check that fails in a chain is not the last word of a chain that answers nothing. -/
theorem ite_some_eq_none {α : Type} {p : Prop} [Decidable p] {a : α} {r : Option α} :
    (if p then some a else r) = none ↔ ¬ p ∧ r = none := by
  split <;> simp_all

theorem configured_dataPins {q : Params} (h : configDefect q = none) : q.pins.dataPins.length = 8 := by
  simp only [configDefect, ite_some_eq_none, not_not] at h
  exact h.1

theorem configured_modePins {q : Params} (h : configDefect q = none) :
    q.pins.modePins.length = q.profile.modeWidth.bits := by
  simp only [configDefect, ite_some_eq_none, not_not] at h
  exact h.2.1

theorem configured_nodup {q : Params} (h : configDefect q = none) : q.pins.all.Nodup := by
  simp only [configDefect, ite_some_eq_none, not_not] at h
  exact h.2.2.1

theorem configured_codes {q : Params} (h : configDefect q = none) :
    ∀ m ∈ tableCodes q.profile.modeTable, m < 2 ^ q.profile.modeWidth.bits := by
  simp only [configDefect, ite_some_eq_none, not_not] at h
  exact h.2.2.2.1

theorem configured_codes_nodup {q : Params} (h : configDefect q = none) :
    (tableCodes q.profile.modeTable).Nodup := by
  simp only [configDefect, ite_some_eq_none, not_not] at h
  exact h.2.2.2.2.1

theorem configured_needed {q : Params} (h : configDefect q = none) :
    ∀ c ∈ neededCommands q.profile, (q.profile.modeTable.code c).isSome := by
  simp only [configDefect, ite_some_eq_none, not_not] at h
  exact h.2.2.2.2.2.1

theorem configured_settle {q : Params} (h : configDefect q = none) : 0 ≤ q.tSettle := by
  simp only [configDefect, ite_some_eq_none, not_not] at h
  exact not_lt.1 h.2.2.2.2.2.2.1

/-- A command the profile needs has a mode field. -/
theorem configured_modeField {q : Params} (h : configDefect q = none) {c : Command}
    (hc : c ∈ neededCommands q.profile) : ∃ m, q.profile.modeField c = some m := by
  obtain ⟨m, hm⟩ := Option.isSome_iff_exists.1 (configured_needed h c hc)
  exact ⟨_, by rw [Profile.modeField, hm]; rfl⟩

/-- The word pins of sound parameters: as many as a level vector has positions, distinct, the strobe not among them. -/
theorem configured_wordPins {q : Params} (h : configDefect q = none) :
    q.pins.wordPins.length = 8 + q.profile.modeWidth.bits ∧ q.pins.wordPins.Nodup ∧
      q.pins.strobe ∉ q.pins.wordPins := by
  have hn := configured_nodup h
  rw [PinMap.all, List.nodup_append] at hn
  refine ⟨?_, hn.1, fun hm => hn.2.2 _ hm _ (List.mem_singleton.2 rfl) rfl⟩
  rw [PinMap.wordPins, List.length_append, configured_dataPins h, configured_modePins h]

theorem mem_commandAll (c : Command) : c ∈ Command.all := by cases c <;> decide

/-- A code the table gives stands in its list of codes. -/
theorem mem_tableCodes {t : ModeTable} {c : Command} {m : Nat} (h : t.code c = some m) : m ∈ tableCodes t :=
  List.mem_filterMap.2 ⟨c, mem_commandAll c, h⟩

/-- Of a list without repeats whose images under a partial map have no repeats, two members with one image are one. -/
theorem filterMap_nodup_inj {α β : Type} {f : α → Option β} {l : List α} (hl : l.Nodup)
    (hf : (l.filterMap f).Nodup) {a b : α} (ha : a ∈ l) (hb : b ∈ l) {x : β} (hax : f a = some x)
    (hbx : f b = some x) : a = b := by
  induction l with
  | nil => cases ha
  | cons c l ih =>
    rw [List.nodup_cons] at hl
    have image {d : α} (hd : d ∈ l) (hdx : f d = some x) : x ∈ l.filterMap f := List.mem_filterMap.2 ⟨d, hd, hdx⟩
    rcases List.mem_cons.1 ha with rfl | ha' <;> rcases List.mem_cons.1 hb with rfl | hb'
    · rfl
    · rw [List.filterMap_cons_some hax, List.nodup_cons] at hf
      exact absurd (image hb' hbx) hf.1
    · rw [List.filterMap_cons_some hbx, List.nodup_cons] at hf
      exact absurd (image ha' hax) hf.1
    · refine ih hl.2 ?_ ha' hb'
      cases hc : f c with
      | none => rwa [List.filterMap_cons_none hc] at hf
      | some y => rw [List.filterMap_cons_some hc, List.nodup_cons] at hf; exact hf.2

/-- Two commands of a table without repeated codes have different codes (R34). -/
theorem code_injective {t : ModeTable} (h : (tableCodes t).Nodup) {c d : Command} {m : Nat}
    (hc : t.code c = some m) (hd : t.code d = some m) : c = d :=
  filterMap_nodup_inj (by decide) h (mem_commandAll c) (mem_commandAll d) hc hd

/-- With sound parameters the mode field is the code itself (R103). -/
theorem configured_modeField_eq {q : Params} (h : configDefect q = none) (c : Command) :
    q.profile.modeField c = q.profile.modeTable.code c := by
  unfold Profile.modeField
  cases hc : q.profile.modeTable.code c with
  | none => rfl
  | some m => simp [Nat.mod_eq_of_lt (configured_codes h m (mem_tableCodes hc))]

/-- With sound parameters two commands have different mode fields. -/
theorem configured_modeField_inj {q : Params} (h : configDefect q = none) {c d : Command} {m : Nat}
    (hc : q.profile.modeField c = some m) (hd : q.profile.modeField d = some m) : c = d := by
  rw [configured_modeField_eq h] at hc hd
  exact code_injective (configured_codes_nodup h) hc hd

/-- With sound parameters a mode field stands for its command (R106). -/
theorem configured_commandOf {q : Params} (h : configDefect q = none) {c : Command} {m : Nat}
    (hm : q.profile.modeField c = some m) : q.profile.commandOf m = some c := by
  unfold Profile.commandOf
  cases hf : Command.all.find? fun c => q.profile.modeField c == some m with
  | none => simpa [hm] using List.find?_eq_none.1 hf c (mem_commandAll c)
  | some d =>
    have hd : q.profile.modeField d = some m := by simpa using List.find?_some hf
    rw [configured_modeField_inj h hd hm]

/-- A mode field fits the mode lines. -/
theorem modeField_lt {p : Profile} {c : Command} {m : Nat} (h : p.modeField c = some m) :
    m < 2 ^ p.modeWidth.bits := by
  obtain ⟨k, -, rfl⟩ := Option.map_eq_some_iff.1 h
  exact Nat.mod_lt _ (Nat.two_pow_pos _)

/-- Every encoded word's mode fits the mode lines. -/
theorem encodeWords_mode_lt {p : Profile} {words : List (Nat × Command)} {ws : List BusWord}
    (h : encodeWords p words = some ws) : ∀ w ∈ ws, w.mode < 2 ^ p.modeWidth.bits := by
  intro w hw
  obtain ⟨e, -, hm, -⟩ := encodeWords_mem h hw
  exact modeField_lt hm

/-! ### Levels -/

@[simp] theorem dataLevels_length (d : Byte) : (dataLevels d).length = 8 := by simp [dataLevels]

@[simp] theorem modeLevels_length (w : ModeWidth) (m : Nat) : (modeLevels w m).length = w.bits := by
  simp [modeLevels]

@[simp] theorem wordLevels_length (w : BusWord) (width : ModeWidth) :
    (wordLevels w width).length = 8 + width.bits := by simp [wordLevels]

/-- The levels of the low `n` bits of a number have its remainder as value. -/
theorem levelsValue_testBit (n m : Nat) :
    levelsValue ((List.range n).map fun k => m.testBit k) = m % 2 ^ n := by
  induction n generalizing m with
  | zero => simp [levelsValue, Nat.mod_one]
  | succ n ih =>
    have hs : (fun k => m.testBit k) ∘ Nat.succ = fun k => (m / 2).testBit k := by
      funext k; simp [Nat.testBit_succ]
    have h2 := Nat.mod_two_eq_one_iff_testBit_zero (x := m)
    rw [List.range_succ_eq_map, List.map_cons, List.map_map, hs, levelsValue, ih, pow_succ',
      Nat.mod_mul]
    cases hb : m.testBit 0 <;> simp_all

theorem levelsValue_dataLevels (d : Byte) : BitVec.ofNat 8 (levelsValue (dataLevels d)) = d := by
  have h : dataLevels d = (List.range 8).map fun k => d.toNat.testBit k := rfl
  rw [h, levelsValue_testBit, Nat.mod_eq_of_lt d.isLt, BitVec.ofNat_toNat, BitVec.setWidth_eq]

theorem levelsValue_modeLevels {w : ModeWidth} {m : Nat} (h : m < 2 ^ w.bits) :
    levelsValue (modeLevels w m) = m := by
  rw [modeLevels, levelsValue_testBit, Nat.mod_eq_of_lt h]

/-- Reading lines that hold given levels gives those levels. -/
theorem readLevels_eq_some {m : Memory} {ps : List Nat} {ls : List Bool} (hl : ps.length = ls.length)
    (h : ∀ p b, (p, b) ∈ ps.zip ls → m.read p = some b) : readLevels m ps = some ls := by
  induction ps generalizing ls with
  | nil => cases ls <;> simp_all [readLevels]
  | cons p ps ih =>
    cases ls with
    | nil => simp at hl
    | cons b ls =>
      rw [readLevels, h p b (by simp), ih (by simpa using hl) fun q c hq => h q c (by simp [hq])]

/-- Level vectors pair with the pins group by group. -/
theorem wordPins_zip {q : Params} (h : configDefect q = none) (w : BusWord) (width : ModeWidth) :
    q.pins.wordPins.zip (wordLevels w width)
      = q.pins.dataPins.zip (dataLevels w.data) ++ q.pins.modePins.zip (modeLevels width w.mode) :=
  List.zip_append (by rw [configured_dataPins h, dataLevels_length])

/-- After driving a level vector, a line of the word reads as its level. -/
theorem read_wordLevels {q : Params} (h : configDefect q = none) (m : Memory) (w : BusWord) {p : Nat} {b : Bool}
    (hp : (p, b) ∈ q.pins.wordPins.zip (wordLevels w q.profile.modeWidth)) :
    (m.writeAll (q.pins.wordPins.zip (wordLevels w q.profile.modeWidth))).read p = some b := by
  obtain ⟨hl, hn, -⟩ := configured_wordPins h
  refine memory_read_writeAll_mem m _ ?_ hp
  rw [List.map_fst_zip (by rw [hl, wordLevels_length])]
  exact hn

/-- The word on the lines while the strobe rises is the one that was driven (R147). -/
theorem wordOnLines_driven {q : Params} (h : configDefect q = none) (m : Memory) {w : BusWord}
    (hw : w.mode < 2 ^ q.profile.modeWidth.bits) :
    wordOnLines q.pins
      ((m.writeAll (q.pins.wordPins.zip (wordLevels w q.profile.modeWidth))).write q.pins.strobe true) = some w := by
  have hs := (configured_wordPins h).2.2
  have hread : ∀ p b, (p, b) ∈ q.pins.wordPins.zip (wordLevels w q.profile.modeWidth) →
      ((m.writeAll (q.pins.wordPins.zip (wordLevels w q.profile.modeWidth))).write q.pins.strobe true).read p
        = some b := by
    intro p b hp
    have hne : p ≠ q.pins.strobe := fun he => hs (he ▸ (List.of_mem_zip hp).1)
    rw [memory_read_write_other _ _ hne]
    exact read_wordLevels h m w hp
  have hd : readLevels ((m.writeAll (q.pins.wordPins.zip (wordLevels w q.profile.modeWidth))).write
      q.pins.strobe true) q.pins.dataPins = some (dataLevels w.data) :=
    readLevels_eq_some (by rw [configured_dataPins h, dataLevels_length]) fun p b hp =>
      hread p b (by rw [wordPins_zip h]; exact List.mem_append_left _ hp)
  have hm : readLevels ((m.writeAll (q.pins.wordPins.zip (wordLevels w q.profile.modeWidth))).write
      q.pins.strobe true) q.pins.modePins = some (modeLevels q.profile.modeWidth w.mode) :=
    readLevels_eq_some (by rw [configured_modePins h, modeLevels_length]) fun p b hp =>
      hread p b (by rw [wordPins_zip h]; exact List.mem_append_right _ hp)
  simp only [wordOnLines, hd, hm, levelsValue_dataLevels, levelsValue_modeLevels hw]

/-- A pin that is paired with a level is one of the pins. -/
theorem mem_fst_zip {ps : List Nat} {ls : List Bool} {p : Nat} (h : p ∈ (ps.zip ls).map Prod.fst) : p ∈ ps := by
  obtain ⟨e, he, rfl⟩ := List.mem_map.1 h
  exact (List.of_mem_zip (a := e.1) (b := e.2) he).1

/-- A line that is not the block's is none of its pins. -/
theorem mapped_eq_false {s : State} {p : Nat} :
    s.mapped p = false ↔ p ∉ s.params.pins.wordPins ∧ p ≠ s.params.pins.strobe := by
  simp [State.mapped, PinMap.all, PinMap.wordPins, not_or, and_assoc]

/-- One word leaves every line that is not the block's (R299). -/
theorem read_linesAfterWord_unmapped {q : Params} (m : Memory) (w : BusWord) {p : Nat}
    (hp : p ∉ q.pins.wordPins ∧ p ≠ q.pins.strobe) : (linesAfterWord q m w).read p = m.read p := by
  rw [linesAfterWord, memory_read_write_other _ _ hp.2, memory_read_write_other _ _ hp.2,
    memory_read_writeAll_other _ _ fun h => hp.1 (mem_fst_zip h)]

/-- Driving words leaves every line that is not the block's (R299). -/
theorem read_driven_unmapped {s : State} (ws : List BusWord) {p : Nat} (hp : s.mapped p = false) :
    (s.driven ws).pinLevel.read p = s.pinLevel.read p := by
  simp only [State.driven]
  generalize s.pinLevel = m
  induction ws generalizing m with
  | nil => rfl
  | cons w ws ih => rw [List.foldl_cons, ih, read_linesAfterWord_unmapped m w (mapped_eq_false.1 hp)]

/-! ### Traces -/

theorem lineLevels_append (es fs : List Event) : lineLevels (es ++ fs) = fs.foldl Memory.afterEvent (lineLevels es) := by
  rw [lineLevels, List.foldl_append]; rfl

theorem latchedFrom_append (pins : PinMap) (m : Memory) (es fs : List Event) :
    latchedFrom pins m (es ++ fs)
      = latchedFrom pins m es ++ latchedFrom pins (es.foldl Memory.afterEvent m) fs := by
  induction es generalizing m with
  | nil => rfl
  | cons e es ih =>
    simp only [List.cons_append, latchedFrom, List.foldl_cons]
    split
    · rw [ih, List.cons_append]
    · rw [ih]

/-- The events of a word leave the lines as driving it does. -/
theorem afterEvent_wordEvents (q : Params) (m : Memory) (w : BusWord) :
    (wordEvents q w).foldl Memory.afterEvent m = linesAfterWord q m w := rfl

/-- The events of words leave the lines as driving them does. -/
theorem afterEvent_flatMap (q : Params) (m : Memory) (ws : List BusWord) :
    (ws.flatMap (wordEvents q)).foldl Memory.afterEvent m = ws.foldl (linesAfterWord q) m := by
  induction ws generalizing m with
  | nil => rfl
  | cons w ws ih => rw [List.flatMap_cons, List.foldl_append, afterEvent_wordEvents, ih, List.foldl_cons]

/-- The events of one word latch that word. -/
theorem latchedFrom_wordEvents {q : Params} (h : configDefect q = none) (m : Memory) {w : BusWord}
    (hw : w.mode < 2 ^ q.profile.modeWidth.bits) : latchedFrom q.pins m (wordEvents q w) = [some w] := by
  have hne : Event.write q.pins.wordPins (wordLevels w q.profile.modeWidth) ≠ .write [q.pins.strobe] [true] := by
    intro he
    have hl := (configured_wordPins h).1
    simp only [Event.write.injEq] at he
    rw [he.1] at hl
    simp only [List.length_singleton] at hl
    omega
  simp only [wordEvents, latchedFrom, hne, if_false, reduceCtorEq, if_true, Event.write.injEq, List.cons.injEq,
    and_true, true_and, Bool.false_eq_true]
  rw [← wordOnLines_driven h m hw]
  rfl

/-- The events of words latch exactly those words, in order (R147). -/
theorem latchedFrom_flatMap {q : Params} (h : configDefect q = none) (m : Memory) {ws : List BusWord}
    (hw : ∀ w ∈ ws, w.mode < 2 ^ q.profile.modeWidth.bits) :
    latchedFrom q.pins m (ws.flatMap (wordEvents q)) = ws.map some := by
  induction ws generalizing m with
  | nil => rfl
  | cons w ws ih =>
    rw [List.flatMap_cons, latchedFrom_append, latchedFrom_wordEvents h m (hw w List.mem_cons_self),
      ih _ fun w' hw' => hw w' (List.mem_cons_of_mem _ hw')]
    rfl

/-- Driving words latches exactly those words, in order. -/
theorem latched_driven {s : State} (h : s.Configured) {ws : List BusWord}
    (hw : ∀ w ∈ ws, w.mode < 2 ^ s.params.profile.modeWidth.bits) :
    (s.driven ws).latched = s.latched ++ ws.map some := by
  rw [State.latched, State.latched, State.driven]
  simp only
  rw [latchedFrom_append, latchedFrom_flatMap h _ hw]

theorem waitTime_append (es fs : List Event) : waitTime (es ++ fs) = waitTime es + waitTime fs := by
  induction es with
  | nil => simp [waitTime]
  | cons e es ih => cases e <;> simp [waitTime, ih, add_assoc]

/-- The waits of words: three settle times each (R306). -/
theorem waitTime_flatMap (q : Params) (ws : List BusWord) :
    waitTime (ws.flatMap (wordEvents q)) = 3 * ws.length * q.tSettle := by
  induction ws with
  | nil => simp [waitTime]
  | cons w ws ih =>
    rw [List.flatMap_cons, waitTime_append, ih]
    simp [wordEvents, waitTime]
    ring

end Sys2Proof.Machine
end

