-- ==== Sys2Proof/Laws/PerInstr.lean ====
section
/-! SUPPORT. One statement about every instruction as syntax, proved per constructor: it is either a bus word, whose two
bytes begin with its data byte, or a call by name, which has no bytes (R4, R100, R110). -/

namespace Sys2Proof.Laws.OneForm

/-- A bus word's bytes begin with its data byte; a host operation is a name and has no bytes. -/
def Statement (i : Instr) : Prop :=
  match i.row with
  | some (_, _, d) => i.opName = none ∧ ∀ p bytes, encode p i = some bytes → ∃ hi, bytes = [d, hi]
  | none => i.opName.isSome = true ∧ ∀ p, encode p i = none

/-- What encoding a bus word gives. -/
theorem encode_row {p : Profile} {i : Instr} {r : Revision} {c : Command} {d : Byte} {bytes : List Byte}
    (hi : i.row = some (r, c, d)) (h : encode p i = some bytes) : ∃ hi, bytes = [d, hi] := by
  simp only [encode, encodeWord, hi, Option.map_eq_some_iff] at h
  obtain ⟨w, hw, rfl⟩ := h
  split at hw <;> [skip; cases hw]
  exact ⟨_, by rw [BusWord.bytes, (busWord_eq_some.1 hw).2, busData_toNat]⟩

theorem p1Bucket (d : Byte) : Statement (.p1Bucket d) := ⟨rfl, fun _ _ h => encode_row rfl h⟩
theorem p1Window (d : Byte) : Statement (.p1Window d) := ⟨rfl, fun _ _ h => encode_row rfl h⟩
theorem p2Bucket (d : Byte) : Statement (.p2Bucket d) := ⟨rfl, fun _ _ h => encode_row rfl h⟩
theorem p2Window (d : Byte) : Statement (.p2Window d) := ⟨rfl, fun _ _ h => encode_row rfl h⟩
theorem p2IncPhase (d : Byte) : Statement (.p2IncPhase d) := ⟨rfl, fun _ _ h => encode_row rfl h⟩
theorem p2DecPhase (d : Byte) : Statement (.p2DecPhase d) := ⟨rfl, fun _ _ h => encode_row rfl h⟩
theorem p2PauseTrig (d : Byte) : Statement (.p2PauseTrig d) := ⟨rfl, fun _ _ h => encode_row rfl h⟩
theorem p2LaserTrigSource (d : Byte) : Statement (.p2LaserTrigSource d) := ⟨rfl, fun _ _ h => encode_row rfl h⟩
theorem p2QuadSel (d : Byte) : Statement (.p2QuadSel d) := ⟨rfl, fun _ _ h => encode_row rfl h⟩
theorem p3Bucket (d : Byte) : Statement (.p3Bucket d) := ⟨rfl, fun _ _ h => encode_row rfl h⟩
theorem p3Window (d : Byte) : Statement (.p3Window d) := ⟨rfl, fun _ _ h => encode_row rfl h⟩
theorem p3IncPhase (d : Byte) : Statement (.p3IncPhase d) := ⟨rfl, fun _ _ h => encode_row rfl h⟩
theorem p3DecPhase (d : Byte) : Statement (.p3DecPhase d) := ⟨rfl, fun _ _ h => encode_row rfl h⟩
theorem p3PauseTrig (d : Byte) : Statement (.p3PauseTrig d) := ⟨rfl, fun _ _ h => encode_row rfl h⟩
theorem p3LaserTrigSource (d : Byte) : Statement (.p3LaserTrigSource d) := ⟨rfl, fun _ _ h => encode_row rfl h⟩
theorem p3RingRfSource (d : Byte) : Statement (.p3RingRfSource d) := ⟨rfl, fun _ _ h => encode_row rfl h⟩
theorem setBucket (b : Num) : Statement (.setBucket b) := ⟨rfl, fun _ => rfl⟩
theorem getBucket : Statement .getBucket := ⟨rfl, fun _ => rfl⟩
theorem setWindow (x : Num) : Statement (.setWindow x) := ⟨rfl, fun _ => rfl⟩
theorem getWindow : Statement .getWindow := ⟨rfl, fun _ => rfl⟩
theorem setLaserTrig (text : Text) : Statement (.setLaserTrig text) := ⟨rfl, fun _ => rfl⟩
theorem getLaserTrig : Statement .getLaserTrig := ⟨rfl, fun _ => rfl⟩
theorem setRingRfSource (text : Text) : Statement (.setRingRfSource text) := ⟨rfl, fun _ => rfl⟩
theorem getRingRfSource : Statement .getRingRfSource := ⟨rfl, fun _ => rfl⟩
theorem setOffsetFine (t : Num) : Statement (.setOffsetFine t) := ⟨rfl, fun _ => rfl⟩
theorem getOffsetFine : Statement .getOffsetFine := ⟨rfl, fun _ => rfl⟩
theorem setOffsetCoarse (c : Num) : Statement (.setOffsetCoarse c) := ⟨rfl, fun _ => rfl⟩
theorem getOffsetCoarse : Statement .getOffsetCoarse := ⟨rfl, fun _ => rfl⟩
theorem setAvgPhaseAdvance (x : Num) : Statement (.setAvgPhaseAdvance x) := ⟨rfl, fun _ => rfl⟩

end Sys2Proof.Laws.OneForm
end

