-- ==== Sys2Proof/Laws/Step.lean ====
section
/-! SUPPORT. Everything a step can do, one lemma for the machine, with the lemmas about fetching it rests on. -/

namespace Sys2Proof.Machine

/-! ### The waiting calls -/

theorem takeAt_eq_some {n : Nat} {cs : List Call} {c : Call} {rest : List Call} (h : takeAt n cs = some (c, rest)) :
    ∃ before after, cs = before ++ c :: after ∧ rest = before ++ after := by
  induction cs generalizing n rest with
  | nil => cases n <;> cases h
  | cons a cs ih =>
    cases n with
    | zero => cases h; exact ⟨[], cs, rfl, rfl⟩
    | succ n =>
      rw [takeAt] at h
      split at h <;> [cases h; skip]
      next d ds hd =>
        cases h
        obtain ⟨before, after, h1, h2⟩ := ih hd
        exact ⟨a :: before, after, by rw [h1]; rfl, by rw [h2]; rfl⟩

theorem takeAt_isSome {n : Nat} {cs : List Call} (h : n < cs.length) : (takeAt n cs).isSome := by
  induction cs generalizing n with
  | nil => cases h
  | cons a cs ih =>
    cases n with
    | zero => rfl
    | succ n =>
      obtain ⟨e, he⟩ := Option.isSome_iff_exists.1 (ih (n := n) (by simpa using h))
      simp [takeAt, he]

/-- What the lock can pick: one of the waiting calls, which leaves the list, its caller with the turn (R93). -/
theorem takeCall_eq_some {s u : State} {c : Call} (h : s.takeCall = some (c, u)) :
    ∃ before after n, s.pending = before ++ c :: after ∧
      u = { s with pending := before ++ after, turn := c.caller, freeCount := n } := by
  unfold State.takeCall at h
  split at h
  · cases h
  · next d hd => cases h; exact ⟨[], [], s.freeCount, hd, rfl⟩
  · next d e cs hd =>
    split at h <;> [cases h; skip]
    next f rest hf =>
      cases h
      obtain ⟨before, after, h1, h2⟩ := takeAt_eq_some hf
      exact ⟨before, after, s.freeCount + 1, hd.trans h1, by rw [h2]⟩

/-- The lock picks no call only where none waits. -/
theorem takeCall_eq_none {s : State} (h : s.takeCall = none) : s.pending = [] := by
  unfold State.takeCall at h
  split at h
  · next hp => exact hp
  · cases h
  · next d e cs hd =>
    split at h <;> [skip; cases h]
    next hf =>
      have hlt : Config.lockChoice s.freeCount % (cs.length + 2) < (d :: e :: cs).length :=
        Nat.mod_lt _ (Nat.succ_pos _)
      have := takeAt_isSome hlt
      rw [hf] at this
      cases this

/-! ### Fetching -/

theorem fetch_ready {s : State} (h : s.ready) : s.fetch = s.fetchCall := by
  unfold State.fetch
  rw [h.1, h.2]

theorem fetch_busy {s : State} {t : Txn} (h : s.seq = .busy t) : s.fetch = s.fetchWord t := by
  unfold State.fetch
  rw [h]

/-- What the sequencer fetches at the start of a word the block emits, one the opcode table has a row for. -/
theorem fetch_word {s : State} {t : Txn} {w : BusWord} {i : Instr} (hs : s.seq = .busy t)
    (hw : t.words[t.k]? = some w) (ha : t.wph = .assert) (hd : decodeWord s.params.profile w = .ok i)
    (he : emitsWord s.params.profile w = true) : s.fetch = .word t i := by
  rw [fetch_busy hs]
  unfold emitsWord at he
  cases hc : s.params.profile.commandOf w.mode with
  | none => simp [hc] at he
  | some c =>
    simp only [hc] at he
    simp [State.fetchWord, hw, ha, hc, hd, he]

/-- What a decoded word stands for: a row of the block's revision, under the command of its mode field. -/
theorem decodeWord_eq_ok {p : Profile} {w : BusWord} {i : Instr} (h : decodeWord p w = .ok i) :
    ∃ c, p.modeField c = some w.mode ∧ i.row = some (p.revision, c, w.data) := by
  unfold decodeWord at h
  split at h <;> [cases h; skip]
  split at h <;> [cases h; skip]
  next c hc =>
    split at h <;> [cases h; skip]
    next j hj =>
      cases h
      refine ⟨c, by simpa using List.find?_some hc, ?_⟩
      revert hj
      generalize p.revision = r
      cases r <;> cases c <;> simp only [Revision.rowInstr, Option.some.injEq, reduceCtorEq, false_implies] <;>
        (rintro rfl; rfl)

/-- Executing a decoded word drives it. -/
theorem exec_decoded {s : State} {w : BusWord} {i : Instr} (h : decodeWord s.params.profile w = .ok i) :
    exec i s = .next (s.driven [w]) := by
  obtain ⟨c, hm, hrow⟩ := decodeWord_eq_ok h
  rw [exec_busCommand hrow, busCommand_drives w.data rfl hm]

/-! ### Steps -/

/-- Everything a step can do when it answers a next state. -/
theorem step_cases {s u : State} (h : step s = .next u) :
    (s.ready ∧ s.pending = [] ∧ u = s)
    ∨ (s.ready ∧ ∃ c v, s.takeCall = some (c, v) ∧ c.op.isHostOp = true ∧ exec c.op v = .next u)
    ∨ (∃ t w, s.seq = .busy t ∧ t.words[t.k]? = some w ∧ t.wph = .assert ∧ u = (s.driven [w]).afterWord t)
    ∨ (∃ t, s.seq = .busy t ∧ u = s.seqStep) := by
  cases hs : s.seq with
  | idle =>
    cases hl : s.lock with
    | held c =>
      have : s.fetch = .stop .lockHeldWhileIdle := by unfold State.fetch; rw [hs, hl]
      simp only [step, this, reduceCtorEq] at h
    | free =>
      have hr : s.ready := ⟨hl, hs⟩
      simp only [step, fetch_ready hr, State.fetchCall] at h
      cases ht : s.takeCall with
      | none =>
        simp only [ht, Host.Outcome.next.injEq] at h
        exact .inl ⟨hr, takeCall_eq_none ht, h.symm⟩
      | some e =>
        obtain ⟨c, v⟩ := e
        cases hi : c.op.isHostOp with
        | false => simp [ht, hi] at h
        | true =>
          simp only [ht, hi, if_true] at h
          exact .inr (.inl ⟨hr, c, v, rfl, hi, h⟩)
  | busy t =>
    right; right
    simp only [step, fetch_busy hs, State.fetchWord] at h
    cases hw : t.words[t.k]? with
    | none =>
      simp only [hw, Host.Outcome.next.injEq] at h
      exact .inr ⟨t, rfl, h.symm⟩
    | some w =>
      simp only [hw] at h
      by_cases ha : t.wph = .assert
      · simp only [ha, if_true] at h
        cases hc : s.params.profile.commandOf w.mode with
        | none => simp [hc] at h
        | some c =>
          cases hm : emittable s.params.profile c w.data with
          | false => simp [hc, hm] at h
          | true =>
            simp only [hc, hm, if_true] at h
            cases hd : decodeWord s.params.profile w with
            | ok i =>
              simp only [hd, exec_decoded hd, Host.Outcome.next.injEq] at h
              exact .inl ⟨t, w, rfl, hw, ha, h.symm⟩
            | error e =>
              simp only [hd, Host.Outcome.next.injEq] at h
              exact .inr ⟨t, rfl, h.symm⟩
      · simp only [ha, if_false, Host.Outcome.next.injEq] at h
        exact .inr ⟨t, rfl, h.symm⟩

/-- What one step of the sequencer does: the write phase it is at, then the next phase, or the next word, or the
commit (R141). -/
theorem seqStep_cases {s : State} {t : Txn} (hs : s.seq = .busy t) :
    (t.words[t.k]? = none ∧ s.seqStep = s.finish t)
    ∨ ∃ w, t.words[t.k]? = some w ∧
      ((∃ ph, t.wph.next = some ph ∧ s.seqStep = { s.writePhase w t.wph with seq := .busy { t with wph := ph } })
        ∨ (t.wph = .holdLo ∧ s.seqStep = s.sleepSettle.afterWord t)) := by
  cases hw : t.words[t.k]? with
  | none => exact .inl ⟨rfl, by simp [State.seqStep, hs, hw]⟩
  | some w =>
    refine .inr ⟨w, rfl, ?_⟩
    cases hp : t.wph.next with
    | some ph => exact .inl ⟨ph, rfl, seqStep_phase hs hw hp⟩
    | none =>
      have h : t.wph = .holdLo := by
        generalize t.wph = ph at hp
        cases ph <;> first | rfl | cases hp
      exact .inr ⟨h, by rw [seqStep_last hs hw hp, h]; rfl⟩

end Sys2Proof.Machine
end

