-- ==== Sys2Proof/Tests/Slice0.lean ====
section
/-! SUPPORT. Tests: ill-formed terms, words and calls decoded as the spec writes them, one step per instruction against the
vectors of 95_test_vectors.md, and for each statement with hypotheses a state and operands that meet them together. -/

namespace Sys2Proof.Tests

set_option Elab.async false

open Sys2Proof Sys2Proof.Machine

/-- A block of a named profile right after construction. -/
def blockOf (p : Profile) : State := State.constructed (Params.standard p)

/-- A P3 block with given bucket registers. -/
def bucketsAt (b c : Byte) : State := { blockOf Profile.p3 with bucket := b, offsetCoarse := c }

/-- A block with a given fine count. -/
def countAt (p : Profile) (n : Int) : State := { blockOf p with phaseCnt := n, offsetFine := n }

/-- The next state, if there is one. -/
def ran : Outcome → Option State
  | .next s => some s
  | .fault _ => none
  | .refused _ => none

/-- The refusal, if there is one. -/
def stopOf : Outcome → Option Refusal
  | .next _ => none
  | .fault _ => none
  | .refused r => some r

/-- The fault, if there is one. -/
def faultOf : Outcome → Option Fault
  | .next _ => none
  | .fault f => some f
  | .refused _ => none

theorem exists_next {o : Outcome} (h : (ran o).isSome = true) : ∃ u, o = .next u := by
  cases o with
  | next s => exact ⟨s, rfl⟩
  | fault f => cases h
  | refused r => cases h

/-- What a test looks at: the words latched, as packed numbers, and the replies. -/
def seen (o : Outcome) : Option (List (Option Nat) × List (Nat × Reply)) :=
  (ran o).map fun u => (u.latched.map (Option.map BusWord.bw), u.replies)

/-! ### Well-formedness: each check refuses an ill-formed term -/

theorem test_wf_u8 : Instr.wellFormed (.setBucket (.fin 256)) = false ∧ Instr.wellFormed (.setBucket (.fin (-1))) = false ∧
    Instr.wellFormed (.setBucket (.fin (7 / 2))) = false ∧ Instr.wellFormed (.setOffsetCoarse (.fin 256)) = false ∧
    Instr.wellFormed (.setOffsetCoarse .nan) = false ∧ Instr.wellFormed (.setBucket (.fin 255)) = true := by
  decide +kernel

theorem test_wf_delay : Instr.wellFormed (.setWindow (.fin (-1))) = false ∧ Instr.wellFormed (.setWindow .nan) = false ∧
    Instr.wellFormed (.setWindow .posInf) = false ∧ Instr.wellFormed (.setWindow (.fin 0)) = true := by decide +kernel

theorem test_wf_integer : Instr.wellFormed (.setOffsetFine (.fin (5 / 2))) = false ∧
    Instr.wellFormed (.setOffsetFine (.fin (-3 / 2))) = false ∧ Instr.wellFormed (.setOffsetFine .negInf) = false ∧
    Instr.wellFormed (.setOffsetFine (.fin (-1))) = true := by decide +kernel

theorem test_wf_finite : Instr.wellFormed (.setAvgPhaseAdvance .nan) = false ∧
    Instr.wellFormed (.setAvgPhaseAdvance .posInf) = false ∧
    Instr.wellFormed (.setAvgPhaseAdvance (.fin (-3))) = true := by decide +kernel

theorem test_wf_pattern : Instr.wellFormed (.p2PauseTrig 2) = false ∧ Instr.wellFormed (.p2LaserTrigSource 2) = false ∧
    Instr.wellFormed (.p2QuadSel 4) = false ∧ Instr.wellFormed (.p3PauseTrig 2) = false ∧
    Instr.wellFormed (.p3LaserTrigSource 2) = false ∧ Instr.wellFormed (.p3RingRfSource 2) = false ∧
    Instr.wellFormed (.p2QuadSel 3) = true ∧ Instr.wellFormed (.p3PauseTrig 1) = true := by decide

/-! ### Decoding: each row's word written out from the pattern of R106 -/

theorem test_decode_p1 : decodeWord Profile.p1 (wordOfBits 0b0_11001000) = .ok (.p1Bucket 200) ∧
    decodeWord Profile.p1 (wordOfBits 0b1_11000111) = .ok (.p1Window 199) ∧
    decodeWord Profile.p1 (wordOfBits 0b10_00000000) = .error .modeTooWide := by decide +kernel

theorem test_decode_p2 : decodeWord Profile.p2 (wordOfBits 0b0000_00000101) = .ok (.p2Bucket 5) ∧
    decodeWord Profile.p2 (wordOfBits 0b0001_00000010) = .ok (.p2Window 2) ∧
    decodeWord Profile.p2 (wordOfBits 0b0010_01100100) = .ok (.p2IncPhase 100) ∧
    decodeWord Profile.p2 (wordOfBits 0b0011_01000110) = .ok (.p2DecPhase 70) ∧
    decodeWord Profile.p2 (wordOfBits 0b0100_00000000) = .ok (.p2PauseTrig 0) ∧
    decodeWord Profile.p2 (wordOfBits 0b0101_00000001) = .ok (.p2LaserTrigSource 1) ∧
    decodeWord Profile.p2 (wordOfBits 0b0111_00000011) = .ok (.p2QuadSel 3) ∧
    decodeWord Profile.p2 (wordOfBits 0b0110_00000000) = .error .modeCodeAbsent := by decide +kernel

theorem test_decode_p3 : decodeWord Profile.p3 (wordOfBits 0b0000_00101011) = .ok (.p3Bucket 43) ∧
    decodeWord Profile.p3 (wordOfBits 0b0001_11111111) = .ok (.p3Window 255) ∧
    decodeWord Profile.p3 (wordOfBits 0b0010_01100100) = .ok (.p3IncPhase 100) ∧
    decodeWord Profile.p3 (wordOfBits 0b0011_01000110) = .ok (.p3DecPhase 70) ∧
    decodeWord Profile.p3 (wordOfBits 0b0100_00000001) = .ok (.p3PauseTrig 1) ∧
    decodeWord Profile.p3 (wordOfBits 0b0101_00000000) = .ok (.p3LaserTrigSource 0) ∧
    decodeWord Profile.p3 (wordOfBits 0b0110_00000001) = .ok (.p3RingRfSource 1) ∧
    decodeWord Profile.p3 (wordOfBits 0b0111_00000000) = .error .modeCodeAbsent ∧
    decodeWord Profile.p3 (wordOfBits 0b1111_00000000) = .error .modeCodeAbsent := by decide +kernel

theorem test_decode_calls : readCall "set_bucket(10)".toList = .ok (.setBucket (.fin 10)) ∧
    readCall "set_window(46.5)".toList = .ok (.setWindow (.fin (93 / 2))) ∧
    readCall "set_offset_fine(-5)".toList = .ok (.setOffsetFine (.fin (-5))) ∧
    readCall "set_offset_coarse(3)".toList = .ok (.setOffsetCoarse (.fin 3)) ∧
    readCall "set_avg_phase_advance(2.5)".toList = .ok (.setAvgPhaseAdvance (.fin (5 / 2))) ∧
    readCall "set_laser_trig(\"mrf\")".toList = .ok (.setLaserTrig "mrf".toList) ∧
    readCall "set_ring_rf_source(\"REV\")".toList = .ok (.setRingRfSource "REV".toList) := by decide +kernel

theorem test_decode_getters : readCall "get_bucket()".toList = .ok .getBucket ∧
    readCall "get_window()".toList = .ok .getWindow ∧ readCall "get_laser_trig()".toList = .ok .getLaserTrig ∧
    readCall "get_ring_rf_source()".toList = .ok .getRingRfSource ∧
    readCall "get_offset_fine()".toList = .ok .getOffsetFine ∧
    readCall "get_offset_coarse()".toList = .ok .getOffsetCoarse ∧
    readCall "emit_word(1)".toList = .error .unknownOperation ∧
    readCall "get_bucket(1)".toList = .error .wrongArgument := by decide +kernel

theorem test_decode_table_word : decodeTableWord 9 0x1C7 = some (.p1Window 199) ∧
    decodeTableWord 12 0x703 = some (.p2QuadSel 3) ∧ decodeTableWord 12 0x346 = some (.p3DecPhase 70) ∧
    decodeTableWord 12 0x800 = none := by decide +kernel

/-! ### Bus commands, one each (V1: the levels and the packed number) -/

theorem test_p1_bucket : seen (exec (.p1Bucket 200) (blockOf Profile.p1)) = some ([some 0x0C8], []) := by decide +kernel
theorem test_p1_window : seen (exec (.p1Window 199) (blockOf Profile.p1)) = some ([some 0x1C7], []) := by decide +kernel
theorem test_p2_bucket : seen (exec (.p2Bucket 255) (blockOf Profile.p2)) = some ([some 0x0FF], []) := by decide +kernel
theorem test_p2_window : seen (exec (.p2Window 2) (blockOf Profile.p2)) = some ([some 0x102], []) := by decide +kernel
theorem test_p2_inc : seen (exec (.p2IncPhase 149) (blockOf Profile.p2)) = some ([some 0x295], []) := by decide +kernel
theorem test_p2_dec : seen (exec (.p2DecPhase 149) (blockOf Profile.p2)) = some ([some 0x395], []) := by decide +kernel
theorem test_p2_pause : seen (exec (.p2PauseTrig 0) (blockOf Profile.p2)) = some ([some 0x400], []) := by decide +kernel
theorem test_p2_laser : seen (exec (.p2LaserTrigSource 1) (blockOf Profile.p2)) = some ([some 0x501], []) := by
  decide +kernel
theorem test_p2_quad : seen (exec (.p2QuadSel 3) (blockOf Profile.p2)) = some ([some 0x703], []) := by decide +kernel
theorem test_p3_bucket : seen (exec (.p3Bucket 43) (blockOf Profile.p3)) = some ([some 0x02B], []) := by decide +kernel
theorem test_p3_window : seen (exec (.p3Window 255) (blockOf Profile.p3)) = some ([some 0x1FF], []) := by decide +kernel
theorem test_p3_inc : (ran (exec (.p3IncPhase 100) (blockOf Profile.p3))).map (fun u => u.trace.drop 13) =
    some [.write [0, 1, 2, 3, 4, 5, 6, 7, 8, 9, 10, 11]
        [false, false, true, false, false, true, true, false, false, true, false, false],
      .sleep 1, .write [12] [true], .sleep 1, .write [12] [false], .sleep 1] := by decide +kernel
theorem test_p3_dec : seen (exec (.p3DecPhase 70) (blockOf Profile.p3)) = some ([some 0x346], []) := by decide +kernel
theorem test_p3_pause : seen (exec (.p3PauseTrig 1) (blockOf Profile.p3)) = some ([some 0x401], []) := by decide +kernel
theorem test_p3_laser : seen (exec (.p3LaserTrigSource 0) (blockOf Profile.p3)) = some ([some 0x500], []) := by
  decide +kernel
theorem test_p3_ring : seen (exec (.p3RingRfSource 1) (blockOf Profile.p3)) = some ([some 0x601], []) := by
  decide +kernel

/-! ### Host operations (V3 to V9) -/

theorem test_set_bucket_with_offset : seen (exec (.setBucket (.fin 63)) (bucketsAt 0 3)) =
    some ([some 0x0FF], [(0, .ok)]) := by decide +kernel
theorem test_set_bucket_raises : seen (exec (.setBucket (.fin 64)) (blockOf Profile.p3)) =
    some ([], [(0, .rangeError .bucket 64)]) := by decide +kernel
theorem test_get_bucket : seen (exec .getBucket (bucketsAt 10 3)) = some ([], [(0, .byte 10)]) := by decide +kernel
theorem test_set_coarse : seen (exec (.setOffsetCoarse (.fin 215)) (bucketsAt 10 0)) =
    some ([some 0x0FF], [(0, .ok)]) := by decide +kernel
theorem test_set_coarse_raises : seen (exec (.setOffsetCoarse (.fin 216)) (bucketsAt 10 0)) =
    some ([], [(0, .rangeError .coarse 216)]) := by decide +kernel
theorem test_get_coarse : seen (exec .getOffsetCoarse (bucketsAt 10 3)) = some ([], [(0, .byte 3)]) ∧
    stopOf (exec .getOffsetCoarse (blockOf Profile.p1)) = some .opAbsent := by decide +kernel
theorem test_set_window_tie : seen (exec (.setWindow (.fin (399 / 2))) (blockOf Profile.p2)) =
    some ([some 0x106], [(0, .unit)]) := by decide +kernel
theorem test_set_window_achieved :
    (ran (exec (.setWindow (.fin 50)) (blockOf Profile.p1))).map (fun u => u.window) = some 77 := by decide +kernel
theorem test_get_window : seen (exec .getWindow { blockOf Profile.p1 with window := 77 }) =
    some ([], [(0, .real 77)]) := by decide +kernel
theorem test_set_fine_direct : seen (exec (.setOffsetFine (.fin 30)) (countAt Profile.p3 100)) =
    some ([some 0x401, some 0x346], [(0, .okInt 30)]) := by decide +kernel
theorem test_set_fine_quad : seen (exec (.setOffsetFine (.fin 599)) (countAt Profile.p2 400)) =
    some ([some 0x401, some 0x231, some 0x703, some 0x400], [(0, .okInt 599)]) := by decide +kernel
theorem test_get_fine : seen (exec .getOffsetFine (countAt Profile.p3 30)) = some ([], [(0, .int 30)]) := by
  decide +kernel
theorem test_set_laser : seen (exec (.setLaserTrig "xcoinx".toList) (blockOf Profile.p3)) =
    some ([some 0x501], [(0, .unit)]) := by decide +kernel
theorem test_set_laser_no_fold : seen (exec (.setLaserTrig "ÇOIN".toList) (blockOf Profile.p2)) =
    some ([some 0x500], [(0, .unit)]) := by decide +kernel
theorem test_get_laser : seen (exec .getLaserTrig (blockOf Profile.p2)) = some ([], [(0, .str "MRF".toList)]) := by
  decide +kernel
theorem test_set_ring : seen (exec (.setRingRfSource "prev".toList) (blockOf Profile.p3)) =
    some ([some 0x601], [(0, .unit)]) := by decide +kernel
theorem test_set_ring_absent : stopOf (exec (.setRingRfSource "REV".toList) (blockOf Profile.p2)) =
    some .opAbsent := by decide +kernel
theorem test_get_ring : seen (exec .getRingRfSource { blockOf Profile.p3 with ringRfSrc := .revClock }) =
    some ([], [(0, .str "REV_CLOCK".toList)]) := by decide +kernel
theorem test_set_avg : seen (exec (.setAvgPhaseAdvance (.fin (5 / 2))) (blockOf Profile.p1)) =
    some ([], [(0, .unit)]) ∧
    (ran (exec (.setAvgPhaseAdvance (.fin (5 / 2))) (blockOf Profile.p1))).map (fun u => u.avgPhaseAdv) =
      some (5 / 2) := by decide +kernel
theorem test_set_avg_nan : stopOf (exec (.setAvgPhaseAdvance .nan) (blockOf Profile.p3)) = some .badArg := by
  decide +kernel

/-! ### The machine -/

/-- A placed word is the next one to run. -/
theorem test_placed_word_runs : seen (step (State.reset.withFetchWord 12 0x264)) = some ([some 0x264], [(0, .unit)]) ∧
    seen (step (State.reset.withFetchWord 9 0x1C7)) = some ([some 0x1C7], [(0, .unit)]) ∧
    seen (step (State.reset.withFetchWord 12 0x703)) = some ([some 0x703], [(0, .unit)]) := by decide +kernel

/-- A submitted call is served by the next step, and its caller gets the reply. -/
theorem test_submitted_call : ((State.reset.submit 1 (.setBucket (.fin 10))).bind fun s => seen (step s)) =
    some ([some 0x028], [(1, .ok)]) := by decide +kernel

theorem test_second_call_of_a_caller :
    ((State.reset.submit 1 .getBucket).bind fun s => s.submit 1 .getWindow).isNone = true ∧
    (State.reset.submit 2 .getBucket).isNone = true := by decide +kernel

/-- A block of a profile, about to emit one word. -/
def aboutToEmit (p : Profile) (w : BusWord) : State :=
  { blockOf p with lock := .held 0, seq := .busy (oneWordTxn p w) }

/-- R108's values, one of each kind, and an absent code (R107). -/
theorem test_word_never_emitted : faultOf (step (aboutToEmit Profile.p3 ⟨2, 4⟩)) = some .dataNeverEmitted ∧
    faultOf (step (aboutToEmit Profile.p3 ⟨33, 1⟩)) = some .dataNeverEmitted ∧
    faultOf (step (aboutToEmit Profile.p3 ⟨0, 2⟩)) = some .dataNeverEmitted ∧
    faultOf (step (aboutToEmit Profile.p2 ⟨150, 3⟩)) = some .dataNeverEmitted ∧
    faultOf (step (aboutToEmit Profile.p2 ⟨4, 7⟩)) = some .dataNeverEmitted ∧
    faultOf (step (aboutToEmit Profile.p3 ⟨0, 7⟩)) = some .modeCodeAbsent := by decide +kernel

/-- The values beside them are emitted; with another QUAD_BOUND, so is a quadrant past 3. `(0, pause_trig)` in P3 runs by
the model's choice (log 33). -/
theorem test_word_emitted : (ran (step (aboutToEmit Profile.p3 ⟨0, 4⟩))).isSome = true ∧
    (ran (step (aboutToEmit Profile.p3 ⟨32, 1⟩))).isSome = true ∧
    (ran (step (aboutToEmit Profile.p3 ⟨0, 3⟩))).isSome = true ∧
    (ran (step (aboutToEmit Profile.p3 ⟨150, 3⟩))).isSome = true ∧
    (ran (step (aboutToEmit { Profile.p2 with quadBound := 8 } ⟨7, 7⟩))).isSome = true := by decide +kernel

/-- R269 checks no bound of the profile: P2 with FINE_STEP_BOUND 256 is a block, and its steps stay below 150. -/
theorem test_wide_step_bound_constructs :
    (ran (construct (Params.standard { Profile.p2 with fineStepBound := 256 }))).isSome = true ∧
    seen (exec (.setOffsetFine (.fin 149)) (blockOf { Profile.p2 with fineStepBound := 256 })) =
      some ([some 0x401, some 0x295, some 0x700, some 0x400], [(0, .okInt 149)]) := by decide +kernel

/-! ### Witnesses: for each statement with hypotheses, something that meets them -/

/-- A block in the middle of a P3 transaction of two words. -/
def busyTxn : Txn where
  caller := 0
  op := .setOffsetFine (.fin 100)
  words := [⟨1, 4⟩, ⟨100, 2⟩]
  k := 0
  wph := .assert
  commit := [.phaseCnt 100, .offsetFine 100]
  result := .okInt 100

def busyBlock : State := { blockOf Profile.p3 with lock := .held 0, seq := .busy busyTxn }

/-- The same at another word and phase. -/
def busyAt (k : Nat) (ph : WritePhase) : State :=
  { blockOf Profile.p3 with lock := .held 0, seq := .busy { busyTxn with k := k, wph := ph } }

theorem test_witness_BusWordsAreReadBack : (∀ m ∈ tableCodes Profile.p3.modeTable, m < 2 ^ Profile.p3.modeWidth.bits) ∧
    (tableCodes Profile.p3.modeTable).Nodup ∧ Instr.row (.p3RingRfSource 255) = some (.p3, .ringRfSource, 255) ∧
    Profile.p3.revision = .p3 ∧ (Profile.p3.modeTable.code .ringRfSource).isSome := by decide +kernel

theorem test_witness_BusWordsAreReadBack_p1 :
    (∀ m ∈ tableCodes Profile.p1.modeTable, m < 2 ^ Profile.p1.modeWidth.bits) ∧
    (tableCodes Profile.p1.modeTable).Nodup ∧ Instr.row (.p1Window 0) = some (.p1, .window, 0) ∧
    Profile.p1.revision = .p1 ∧ (Profile.p1.modeTable.code .window).isSome := by decide +kernel

theorem test_witness_DecodedBytesAreEncodedBack :
    decode Profile.p2 [3, 7, 1] = .ok (.p2QuadSel 3, [1]) := by decide +kernel

theorem test_witness_HostCallTextIsReadBack : (writeCall .getBucket = some "get_bucket()".toList) ∧
    writeCall (.setLaserTrig "mrf".toList) = some "set_laser_trig(\"mrf\")".toList ∧
    writeCall (.setRingRfSource []) = some "set_ring_rf_source(\"\")".toList ∧
    writeCall (.setOffsetFine (.fin (-5))) = some "set_offset_fine(-5)".toList ∧
    writeCall (.setWindow (.fin (93 / 2))) = some "set_window(46.5)".toList ∧
    writeCall (.setAvgPhaseAdvance (.fin (-1 / 40))) = some "set_avg_phase_advance(-0.025)".toList := by decide +kernel

theorem test_witness_QuantizerReturnsLowestNearestIndex :
    DelayRom.table ≠ [] ∧ DelayRom.table[255]? = some 1689 ∧ DelayRom.table[0]? = some 0 := by decide +kernel

theorem test_witness_LevelVectorIsBitsOfPackedWord : (PinMap.standard .four).dataPins.length = 8 ∧
    (PinMap.standard .four).wordPins[7]? = some 7 ∧ (PinMap.standard .four).wordPins[8]? = some 8 := by decide

theorem test_witness_GpioWriteDrivesAndNothingReadsTheLines : [3, 4, 3].length = [true, false, false].length ∧
    ([3, 4, 3][2]? = some 3) ∧ (∀ k > 2, [3, 4, 3][k]? ≠ some 3) ∧ 5 ∉ [3, 4, 3] ∧
    (ran (step busyBlock)).isSome = true := by
  refine ⟨rfl, rfl, fun k hk => ?_, by decide, by decide +kernel⟩
  rw [List.getElem?_eq_none (by simp; omega)]
  simp

theorem test_witness_P1BusCommandsDriveTheirWords : (blockOf Profile.p1).params.profile.revision = .p1 ∧
    Profile.p1.modeField .bucket = some 0 ∧ Profile.p1.modeField .window = some 1 := by decide +kernel

theorem test_witness_P2BusCommandsDriveTheirWords : (blockOf Profile.p2).params.profile.revision = .p2 ∧
    Profile.p2.modeField .bucket = some 0 ∧ Profile.p2.modeField .window = some 1 ∧
    Profile.p2.modeField .incPhase = some 2 ∧ Profile.p2.modeField .decPhase = some 3 ∧
    Profile.p2.modeField .pauseTrig = some 4 ∧ Profile.p2.modeField .laserTrigSource = some 5 ∧
    Profile.p2.modeField .quadSel = some 7 := by decide +kernel

theorem test_witness_P3BusCommandsDriveTheirWords : (blockOf Profile.p3).params.profile.revision = .p3 ∧
    Profile.p3.modeField .bucket = some 0 ∧ Profile.p3.modeField .window = some 1 ∧
    Profile.p3.modeField .incPhase = some 2 ∧ Profile.p3.modeField .decPhase = some 3 ∧
    Profile.p3.modeField .pauseTrig = some 4 ∧ Profile.p3.modeField .laserTrigSource = some 5 ∧
    Profile.p3.modeField .ringRfSource = some 6 := by decide +kernel

/-- The hypotheses of DataByteIsOnTheDataLines, ModeFieldIsOnTheModeLinesAndTheStrobeIsLow and BusCommandFrame; pin 13 is
not the block's. -/
theorem test_witness_bus_command : (blockOf Profile.p3).Configured ∧
    Instr.row (.p3DecPhase 255) = some (.p3, .decPhase, 255) ∧ Profile.p3.modeField .decPhase = some 3 ∧
    (∃ u, exec (.p3DecPhase 255) (blockOf Profile.p3) = .next u) ∧ (blockOf Profile.p3).mapped 13 = false :=
  ⟨by decide +kernel, by decide, by decide +kernel, exists_next (by decide +kernel), by decide +kernel⟩

theorem test_witness_BusCommandsOfOtherRevisionsAreRefused :
    (Instr.row (.p2QuadSel 0) = some (.p2, .quadSel, 0) ∧ (blockOf Profile.p3).params.profile.revision ≠ .p2) ∧
    (Instr.row (.p1Window 0) = some (.p1, .window, 0) ∧
      Profile.modeField { Profile.p1 with modeTable := { Profile.p1.modeTable with window := none } } .window
        = none) := by decide +kernel

theorem test_witness_SetBucketEmitsTheSumOrRaises : (bucketsAt 0 3).ready ∧ 63 ≤ 255 ∧
    Profile.p3.modeField .bucket = some 0 ∧
    63 * Profile.p3.bucketStep + (bucketsAt 0 3).offsetCoarse.toNat = 255 ∧
    255 < 64 * Profile.p3.bucketStep + (bucketsAt 0 0).offsetCoarse.toNat := by decide +kernel

theorem test_witness_SetOffsetCoarseEmitsTheSumOrRaises : (bucketsAt 10 0).ready ∧
    (bucketsAt 10 0).params.profile.hasCoarse = true ∧ 215 ≤ 255 ∧ Profile.p3.modeField .bucket = some 0 ∧
    (bucketsAt 10 0).bucket.toNat * Profile.p3.bucketStep + 215 = 255 ∧
    255 < (bucketsAt 10 0).bucket.toNat * Profile.p3.bucketStep + 216 := by decide +kernel

theorem test_witness_SetWindowEmitsTheIndexAndStoresTheAchieved : (blockOf Profile.p1).ready ∧
    (blockOf Profile.p1).RomBuilt ∧ (0 : Rat) ≤ 0 ∧ Profile.p1.modeField .window = some 1 :=
  ⟨⟨rfl, rfl⟩, rfl, le_refl _, by decide +kernel⟩

/-- The step from 300 down to 45 is the largest one, 255. -/
theorem test_witness_SetOffsetFineDirectEmitsItsWords : (countAt Profile.p3 300).ready ∧
    (countAt Profile.p3 300).params.profile.fineVariant = .direct ∧
    Profile.p3.modeField .pauseTrig = some 4 ∧ Profile.p3.modeField .incPhase = some 2 ∧
    Profile.p3.modeField .decPhase = some 3 ∧ (0 : Int) ≤ 45 ∧
    (((45 : Int) - (countAt Profile.p3 300).phaseCnt).natAbs : Int) = Profile.p3.fineStepBound := by decide +kernel

/-- DIRECT with resume, which R12 lets a profile be: a third word resumes triggering. -/
theorem test_set_fine_direct_with_resume :
    seen (exec (.setOffsetFine (.fin 30)) (countAt { Profile.p3 with fineResume := true } 100)) =
      some ([some 0x401, some 0x346, some 0x400], [(0, .okInt 30)]) := by decide +kernel

/-- 599 is the largest target of the quadrature variant. -/
theorem test_witness_SetOffsetFineQuadEmitsItsWords : (countAt Profile.p2 400).ready ∧
    (countAt Profile.p2 400).params.profile.fineVariant = .quadrature ∧ 0 < Profile.p2.quadCounts ∧
    Profile.p2.modeField .pauseTrig = some 4 ∧ Profile.p2.modeField .incPhase = some 2 ∧
    Profile.p2.modeField .decPhase = some 3 ∧ Profile.p2.modeField .quadSel = some 7 ∧ (0 : Int) ≤ 599 ∧
    quadrantOf Profile.p2 599 = 3 ∧ quadrantOf Profile.p2 599 < Profile.p2.quadBound ∧
    ((fineCountOf Profile.p2 599 - fineCountOf Profile.p2 (countAt Profile.p2 400).phaseCnt).natAbs : Int) = 49 := by
  decide +kernel

/-- One target per clause: -1, 600, a step past a smaller bound in QUADRATURE, and 44 from 300 in DIRECT. -/
theorem test_witness_FineOffsetChecksRaiseInOrder :
    ((countAt Profile.p3 300).ready ∧ (countAt Profile.p3 300).params.profile.fineVariant ≠ .none ∧ (-1 : Int) < 0) ∧
    ((0 : Int) ≤ 600 ∧ Profile.p2.quadBound ≤ quadrantOf Profile.p2 600 ∧ 0 < Profile.p2.quadCounts) ∧
    ((0 : Int) ≤ 149 ∧ quadrantOf Profile.p2 149 < Profile.p2.quadBound ∧
      Profile.fineStepBound { Profile.p2 with fineStepBound := 148 }
        < (fineCountOf Profile.p2 149 - fineCountOf Profile.p2 0).natAbs) ∧
    ((0 : Int) ≤ 44 ∧ Profile.p3.fineStepBound < ((44 : Int) - (countAt Profile.p3 300).phaseCnt).natAbs) := by
  decide +kernel

theorem test_witness_QuadratureNeverRaisesFineStep : (countAt Profile.p2 599).ready ∧
    (countAt Profile.p2 599).params.profile.fineVariant = .quadrature ∧ 0 < Profile.p2.quadCounts ∧
    Profile.p2.quadCounts ≤ Profile.p2.fineStepBound + 1 ∧
    ∃ u, exec (.setOffsetFine (.fin 150)) (countAt Profile.p2 599) = .next u :=
  ⟨⟨rfl, rfl⟩, rfl, by decide, by decide, exists_next (by decide +kernel)⟩

theorem test_witness_StepWordFollowsTheSignOfDelta : stepWord 1 = (1, .incPhase) ∧ stepWord 0 = (0, .decPhase) ∧
    stepWord (-70) = (70, .decPhase) := by decide

/-- The hypotheses of SetLaserTrigEmitsTheBit and SetRingRfSourceEmitsTheBit. -/
theorem test_witness_selectors : (blockOf Profile.p3).ready ∧ (blockOf Profile.p3).params.profile.hasLaser = true ∧
    Profile.p3.modeField .laserTrigSource = some 5 ∧ (blockOf Profile.p3).params.profile.hasRingRf = true ∧
    Profile.p3.modeField .ringRfSource = some 6 := by decide +kernel

theorem test_witness_SelectorMatchIsAFoldedSubstring : ('A' ≤ 'Z' ∧ 'Z' ≤ 'Z') ∧ ¬ ('A' ≤ '[' ∧ '[' ≤ 'Z') := by decide

/-- The hypotheses of SetAvgPhaseAdvanceStoresTheValue and GettersReturnTheirRegister. -/
theorem test_witness_getters : (blockOf Profile.p3).ready ∧ (blockOf Profile.p3).params.profile.hasCoarse = true ∧
    (blockOf Profile.p3).params.profile.fineVariant ≠ .none ∧ (blockOf Profile.p3).params.profile.hasLaser = true ∧
    (blockOf Profile.p3).params.profile.hasRingRf = true := by decide +kernel

theorem test_witness_AbsentThenIllFormedCallsAreRefused : (blockOf Profile.p1).ready ∧
    Instr.isHostOp (.setOffsetFine .nan) = true ∧
    hasOperation (blockOf Profile.p1).params.profile (.setOffsetFine .nan) = false ∧
    hasOperation (blockOf Profile.p3).params.profile (.setOffsetFine .nan) = true ∧
    Instr.wellFormed (.setOffsetFine .nan) = false := by decide +kernel

theorem test_witness_PresentWellFormedCallsComplete : (countAt Profile.p2 599).ready ∧ (countAt Profile.p2 599).Configured ∧
    Instr.isHostOp (.setOffsetFine (.fin 0)) = true ∧
    hasOperation (countAt Profile.p2 599).params.profile (.setOffsetFine (.fin 0)) = true ∧
    Instr.wellFormed (.setOffsetFine (.fin 0)) = true := by decide +kernel

/-- The hypotheses of RangeErrorLeavesEverythingElse and RangeCausesBelongToTheirOperations, and of the clauses of
ServedCallLatchesItsPlannedWords and ServedCallWaitsThreeSettleTimesAWord about a call that raises. -/
theorem test_witness_range_error : (countAt Profile.p2 0).ready ∧
    ∃ u, exec (.setOffsetFine (.fin 600)) (countAt Profile.p2 0) = .next u ∧
      u.replies = (countAt Profile.p2 0).replies ++ [((countAt Profile.p2 0).turn, .rangeError .quad 600)] := by
  have h : (ran (exec (.setOffsetFine (.fin 600)) (countAt Profile.p2 0))).map (fun u => u.replies)
      = some [(0, .rangeError .quad 600)] := by decide +kernel
  obtain ⟨u, hu⟩ := exists_next (o := exec (.setOffsetFine (.fin 600)) (countAt Profile.p2 0)) (by decide +kernel)
  rw [hu] at h
  exact ⟨⟨rfl, rfl⟩, u, hu, Option.some.inj h⟩

/-- The hypothesis of EachRegisterHasOneSetter and UnmappedLinesNeverChange. -/
theorem test_witness_exec : (∃ u, exec (.setWindow (.fin 50)) (blockOf Profile.p1) = .next u) ∧
    (blockOf Profile.p1).mapped 10 = false := ⟨exists_next (by decide +kernel), by decide +kernel⟩

/-- The hypotheses of ServedCallLatchesItsPlannedWords, ServedCallEmitsOnlyEmittableWords and
ServedCallWaitsThreeSettleTimesAWord. -/
theorem test_witness_served_call : (blockOf Profile.p2).ready ∧ (blockOf Profile.p2).Configured ∧
    (blockOf Profile.p2).RomBuilt ∧ ValuesFit Profile.p2 ∧ Instr.isHostOp (.setOffsetFine (.fin 449)) = true ∧
    ∃ u, exec (.setOffsetFine (.fin 449)) (blockOf Profile.p2) = .next u ∧ ¬ (blockOf Profile.p2).RaisedTo u := by
  have h : (ran (exec (.setOffsetFine (.fin 449)) (blockOf Profile.p2))).map (fun u => u.replies)
      = some [(0, .okInt 449)] := by decide +kernel
  obtain ⟨u, hu⟩ := exists_next (o := exec (.setOffsetFine (.fin 449)) (blockOf Profile.p2)) (by decide +kernel)
  rw [hu] at h
  refine ⟨⟨rfl, rfl⟩, by decide +kernel, rfl, ⟨by decide, .inl (by decide), by decide⟩, rfl, u, hu, ?_⟩
  rintro ⟨c, a, hr⟩
  have h' : u.replies = [(0, .okInt 449)] := Option.some.inj h
  rw [h'] at hr
  cases hr

theorem test_witness_DirectNeverResumesTriggering : (blockOf Profile.p3).ready ∧ (blockOf Profile.p3).Configured ∧
    Instr.isHostOp (.setOffsetFine (.fin 0)) = true ∧ Profile.p3.fineVariant = .direct ∧
    Profile.p3.fineResume = false ∧ Profile.p3.modeField .pauseTrig = some 4 ∧
    ∃ u, exec (.setOffsetFine (.fin 0)) (blockOf Profile.p3) = .next u :=
  ⟨⟨rfl, rfl⟩, by decide +kernel, rfl, rfl, rfl, by decide +kernel, exists_next (by decide +kernel)⟩

theorem test_witness_LastBucketWordIsTheRegisterSum : (blockOf Profile.p3).ready ∧ (blockOf Profile.p3).Configured ∧
    Instr.isHostOp (.setBucket (.fin 63)) = true ∧ (blockOf Profile.p3).BucketLatched ∧
    ∃ u, exec (.setBucket (.fin 63)) (blockOf Profile.p3) = .next u := by
  refine ⟨⟨rfl, rfl⟩, by decide +kernel, rfl, fun m _ d hd => ?_, exists_next (by decide +kernel)⟩
  have h : (blockOf Profile.p3).latched = [] := by decide +kernel
  simp [State.lastLatched, h] at hd

theorem test_witness_CallWaitsWhileTheBlockIsHeld : ¬ busyBlock.ready ∧ Instr.isHostOp .getBucket = true := by
  decide +kernel

theorem test_witness_StepRunsTheFetchedInstruction :
    (busyBlock.seq = .busy busyTxn ∧ busyTxn.words[busyTxn.k]? = some ⟨1, 4⟩ ∧ busyTxn.wph = .assert ∧
      decodeWord busyBlock.params.profile ⟨1, 4⟩ = .ok (.p3PauseTrig 1) ∧
      emitsWord busyBlock.params.profile ⟨1, 4⟩ = true) ∧
    ∃ c u, (blockOf Profile.p3).ready ∧ c.op.isHostOp = true ∧
      State.takeCall { blockOf Profile.p3 with pending := [⟨1, .getBucket⟩] } = some (c, u) :=
  ⟨⟨rfl, rfl, rfl, by decide +kernel, by decide +kernel⟩, ⟨1, .getBucket⟩, _, ⟨rfl, rfl⟩, rfl, rfl⟩

theorem test_witness_TheLockPicksAWaitingCall :
    ({ blockOf Profile.p3 with pending := [⟨1, .getBucket⟩, ⟨0, .getWindow⟩] } : State).pending ≠ [] ∧
    (blockOf Profile.p3).ready ∧ (blockOf Profile.p3).pending = [] := by decide +kernel

theorem test_witness_WordsListedAsNeverEmittedFault :
    (busyAt 0 .assert).seq = .busy { busyTxn with k := 0, wph := .assert } ∧
    Profile.p3.commandOf 7 = none ∧ Profile.p3.commandOf 4 = some .pauseTrig ∧ 1 < (2 : Byte).toNat ∧
    Profile.p2.commandOf 7 = some .quadSel ∧ Profile.p2.quadBound ≤ (4 : Byte).toNat ∧
    Profile.p1.commandOf 1 = some .window ∧ 237 ∈ higherDuplicates ∧ Profile.p3.commandOf 2 = some .incPhase ∧
    Profile.p2.commandOf 3 = some .decPhase ∧ Profile.p2.fineVariant = .quadrature ∧
    Profile.p2.quadCounts ≤ (150 : Byte).toNat ∧
    Profile.fineStepBound { Profile.p3 with fineStepBound := 254 } < (255 : Byte).toNat := by decide +kernel

/-- The hypotheses of SequencerStepAppendsOneEvent, RegistersChangeOnlyAtTheCommit (both clauses) and
LinesAreStableWithinAWord. -/
theorem test_witness_sequencer :
    (busyAt 0 .holdLo).seq = .busy { busyTxn with k := 0, wph := .holdLo } ∧ 0 + 1 < busyTxn.words.length ∧
    (busyAt 1 .holdLo).seq = .busy { busyTxn with k := 1, wph := .holdLo } ∧ 1 + 1 = busyTxn.words.length ∧
    busyTxn.words[1]? = some ⟨100, 2⟩ ∧ (busyAt 1 .holdLo).Configured ∧ WritePhase.holdLo ≠ .assert ∧
    11 ∈ (busyAt 1 .holdLo).params.pins.wordPins := by decide +kernel

theorem test_witness_WordStepsRefineWritePhases : busyBlock.seq = .busy busyTxn ∧ busyTxn.wph = .assert ∧
    busyTxn.words.length = busyTxn.k + (1 + 1) ∧
    ∀ w ∈ busyTxn.words.drop busyTxn.k,
      emitsWord busyBlock.params.profile w = true ∧ ∃ i, decodeWord busyBlock.params.profile w = .ok i := by
  refine ⟨rfl, rfl, rfl, fun w hw => ?_⟩
  simp only [busyTxn, List.drop_zero, List.mem_cons, List.not_mem_nil, or_false] at hw
  rcases hw with rfl | rfl
  · exact ⟨by decide +kernel, .p3PauseTrig 1, by decide +kernel⟩
  · exact ⟨by decide +kernel, .p3IncPhase 100, by decide +kernel⟩

/-- The hypotheses of StepKeepsLockAndSequencerTogether, StepKeepsTheStrobeLowBetweenWords and StepKeepsLinesAsTraced, in
the middle of a transaction; and of the clauses about a step of ConfigurationNeverChanges, DelayRomIsBuiltAtConstructionOnly
and MappedPinsAreOutputsForGood. -/
theorem test_witness_invariants_busy : busyBlock.LockOk ∧ busyBlock.Configured ∧ busyBlock.StrobeOk ∧ busyBlock.LinesOk ∧
    ∃ u, step busyBlock = .next u := by
  refine ⟨⟨rfl, by decide⟩, by decide +kernel, ?_, ⟨by decide +kernel, by decide +kernel⟩, exists_next (by decide +kernel)⟩
  show ¬ _
  decide +kernel

theorem test_witness_StepKeepsRegisterInvariants : busyBlock.RegsOk :=
  ⟨by decide +kernel, rfl, ⟨by decide +kernel, by decide +kernel⟩, ⟨by decide +kernel, by decide +kernel⟩,
    by decide +kernel, by decide +kernel, ⟨by decide +kernel, by decide +kernel, by decide +kernel⟩,
    ⟨by decide +kernel, by decide +kernel, by decide +kernel⟩⟩

theorem test_witness_CallsStayOnePerCaller :
    ∃ u, (blockOf Profile.p3).LockOk ∧ (blockOf Profile.p3).submit 1 (.setBucket (.fin 10)) = some u ∧
      (blockOf Profile.p3).CallsOk :=
  ⟨_, rfl, rfl, ⟨by decide +kernel, by decide +kernel, by decide +kernel, fun c h => by cases h⟩⟩

/-- The hypothesis of ConstructionLeavesTheResetValues, and of the clauses about construction elsewhere; and parameters
that are refused. -/
theorem test_witness_construction : (∃ u, construct (Params.standard Profile.p1) = .next u) ∧
    stopOf (construct { Params.standard Profile.p1 with tSettle := -1 }) = some (.badConfig .negativeSettle) :=
  ⟨exists_next (by decide +kernel), by decide +kernel⟩

end Sys2Proof.Tests
end

section
/-! The statements of 00_scope.md: where a bus command is refused, and that a step runs what it fetches. -/

namespace Sys2Proof.Machine

/-- Where a bus command has no word: the block is of another revision, or its Mode Table lacks the command (log 15). -/
theorem busCommand_refuses {s : State} {r : Revision} {c : Command} (d : Byte)
    (h : s.params.profile.revision ≠ r ∨ s.params.profile.modeField c = none) :
    s.busCommand r c d = .refused .otherRevision := by
  unfold State.busCommand
  split
  next hr =>
    have hm : s.params.profile.modeField c = none := h.resolve_left (not_not_intro hr.symm)
    rw [hm]
  next => rfl

/-- Settles O18: every bus command is `busCommand` of its row, which refuses. -/
theorem busCommandsOfOtherRevisionsAreRefused : Obligations.BusCommandsOfOtherRevisionsAreRefused := by
  intro s i r c d hrow h
  rw [exec_busCommand hrow, busCommand_refuses d h]

/-- What a free block fetches: the waiting call that gets the lock (R90, R93). -/
theorem fetch_call {s u : State} {c : Call} (hr : s.ready) (ht : s.takeCall = some (c, u))
    (hc : c.op.isHostOp = true) : s.fetch = .call c.op u := by
  rw [fetch_ready hr]
  simp only [State.fetchCall, ht, hc, if_true]

theorem step_of_fetch_call {s u : State} {i : Instr} (h : s.fetch = .call i u) : step s = exec i u := by
  simp only [step, h]

theorem step_of_fetch_word {s u : State} {t : Txn} {i : Instr} (h : s.fetch = .word t i) (hx : exec i s = .next u) :
    step s = .next (u.afterWord t) := by
  simp only [step, h, hx]

/-- Settles O44: the fetch finds the word's row, which executes to a next state (`exec_decoded`), or the waiting call. -/
theorem stepRunsTheFetchedInstruction : Obligations.StepRunsTheFetchedInstruction := by
  refine ⟨fun s t w i hs hw ha hd he => ?_, fun s u c hr ht hc => ?_⟩
  · have hx : exec i s = .next (s.driven [w]) := exec_decoded hd
    rw [hx]
    exact step_of_fetch_word (fetch_word hs hw ha hd he) hx
  · exact step_of_fetch_call (fetch_call hr ht hc)

end Sys2Proof.Machine
end

section
/-! The statements of 10_state.md: what a step can leave, and the invariants read off it; what construction leaves. -/

namespace Sys2Proof.Machine

/-! ### States that agree -/

theorem State.SameFixed.trans {s t u : State} (h : s.SameFixed t) (k : t.SameFixed u) : s.SameFixed u :=
  ⟨k.params.trans h.params, k.delayRom.trans h.delayRom, k.pinDir.trans h.pinDir⟩

theorem sameFixed_applyWrites (s : State) (ws : List RegWrite) : s.SameFixed (s.applyWrites ws) :=
  ⟨applyWrites_params s ws, applyWrites_delayRom s ws, applyWrites_pinDir s ws⟩

theorem sameFixed_driven (s : State) (ws : List BusWord) : s.SameFixed (s.driven ws) := ⟨rfl, rfl, rfl⟩

theorem sameFixed_replied (s : State) (r : Reply) : s.SameFixed (s.replied r) := ⟨rfl, rfl, rfl⟩

theorem sameFixed_finish (s : State) (t : Txn) : s.SameFixed (s.finish t) :=
  ⟨finish_params s t, finish_delayRom s t, finish_pinDir s t⟩

/-- A register write leaves two states that agreed on the registers agreeing on them. -/
theorem State.SameRegs.applyWrite {s t : State} (h : s.SameRegs t) (w : RegWrite) :
    (s.applyWrite w).SameRegs (t.applyWrite w) := by
  cases w with
  | bucket v => exact { h with bucket := rfl }
  | offsetCoarse v => exact { h with offsetCoarse := rfl }
  | window v => exact { h with window := rfl }
  | laserSrc v => exact { h with laserSrc := rfl }
  | ringRfSrc v => exact { h with ringRfSrc := rfl }
  | phaseCnt v => exact { h with phaseCnt := rfl }
  | offsetFine v => exact { h with offsetFine := rfl }
  | avgPhaseAdv v => exact { h with avgPhaseAdv := rfl }

theorem State.SameFixed.applyWrites {s t : State} (h : s.SameFixed t) (ws : List RegWrite) :
    (s.applyWrites ws).SameFixed (t.applyWrites ws) :=
  ⟨by simp [h.params], by simp [h.delayRom], by simp [h.pinDir]⟩

theorem State.SameRegs.applyWrites {s t : State} (h : s.SameRegs t) (ws : List RegWrite) :
    (s.applyWrites ws).SameRegs (t.applyWrites ws) := by
  induction ws generalizing s t with
  | nil => exact h
  | cons w ws ih => exact ih (h.applyWrite w)

/-! ### What events leave -/

/-- The state after events on the lines: the trace has them, and the levels are the ones they drive (R49, R77). -/
def State.afterEvents (s : State) (es : List Event) : State :=
  { s with trace := s.trace ++ es, pinLevel := es.foldl Memory.afterEvent s.pinLevel }

theorem afterEvents_nil (s : State) : s.afterEvents [] = s := by simp [State.afterEvents]

theorem driven_eq_afterEvents (s : State) (ws : List BusWord) :
    s.driven ws = s.afterEvents (ws.flatMap (wordEvents s.params)) := by
  rw [State.driven, State.afterEvents, afterEvent_flatMap]

/-- The one event of a write phase (R141). -/
def phaseEvent (q : Params) (w : BusWord) : WritePhase → Event
  | .assert => .write q.pins.wordPins (wordLevels w q.profile.modeWidth)
  | .strobeHi => .write [q.pins.strobe] [true]
  | .strobeLo => .write [q.pins.strobe] [false]
  | .settle | .holdHi | .holdLo => .sleep q.tSettle

theorem writePhase_eq_afterEvents (s : State) (w : BusWord) (ph : WritePhase) :
    s.writePhase w ph = s.afterEvents [phaseEvent s.params w ph] := by
  cases ph <;> rfl

theorem sameRegs_afterEvents (s : State) (es : List Event) : s.SameRegs (s.afterEvents es) :=
  ⟨rfl, rfl, rfl, rfl, rfl, rfl, rfl, rfl⟩

theorem sameFixed_afterEvents (s : State) (es : List Event) : s.SameFixed (s.afterEvents es) := ⟨rfl, rfl, rfl⟩

theorem sameRegs_replied (s : State) (r : Reply) : s.SameRegs (s.replied r) :=
  ⟨rfl, rfl, rfl, rfl, rfl, rfl, rfl, rfl⟩

theorem sameRegs_driven (s : State) (ws : List BusWord) : s.SameRegs (s.driven ws) :=
  ⟨rfl, rfl, rfl, rfl, rfl, rfl, rfl, rfl⟩

/-! ### What a step can leave -/

/-- What one step can leave of a state: nothing changes, or the call that gets the lock is answered, or the sequencer
drives events and then is at one of its words still, or commits. -/
inductive State.StepsTo (s : State) : State → Prop
  | waits : s.ready → s.pending = [] → s.StepsTo s
  | raises {c : Call} {v : State} {cause : RangeCause} {a : Int} : s.ready → s.takeCall = some (c, v) →
      hostPlan c.op v = .error cause a → s.StepsTo (v.replied (.rangeError cause a))
  | performs {c : Call} {v : State} {words : List (Nat × Command)} {commit : List RegWrite} {result : Reply}
      {ws : List BusWord} : s.ready → s.takeCall = some (c, v) → hostPlan c.op v = .perform words commit result →
      encodeWords v.params.profile words = some ws →
      s.StepsTo (((v.driven ws).applyWrites commit).replied result)
  | continues {t t' : Txn} {es : List Event} : s.seq = .busy t → t'.caller = t.caller → t'.words = t.words →
      t'.commit = t.commit → t'.k < t'.words.length → s.StepsTo { s.afterEvents es with seq := .busy t' }
  | commits {t : Txn} {es : List Event} : s.seq = .busy t → s.StepsTo ((s.afterEvents es).finish t)

/-- After a word the sequencer is at the next one, or commits (R141). -/
theorem stepsTo_afterWord {s : State} {t : Txn} (hs : s.seq = .busy t) (es : List Event) :
    s.StepsTo ((s.afterEvents es).afterWord t) := by
  unfold State.afterWord
  split
  next hk => exact .continues hs rfl rfl rfl hk
  next => exact .commits hs

theorem stepsTo_seqStep {s : State} {t : Txn} (hs : s.seq = .busy t) : s.StepsTo s.seqStep := by
  rcases seqStep_cases hs with ⟨-, he⟩ | ⟨w, hw, ⟨ph, -, he⟩ | ⟨-, he⟩⟩
  · have hc : s.StepsTo ((s.afterEvents []).finish t) := .commits hs
    rw [he]
    rwa [afterEvents_nil] at hc
  · have hk : t.k < t.words.length := (List.getElem?_eq_some_iff.1 hw).1
    rw [he, writePhase_eq_afterEvents]
    exact .continues hs rfl rfl rfl hk
  · rw [he]
    exact stepsTo_afterWord hs [.sleep s.params.tSettle]

theorem takeCall_sameRegs {s v : State} {c : Call} (h : s.takeCall = some (c, v)) : s.SameRegs v := by
  obtain ⟨_, _, _, -, rfl⟩ := takeCall_eq_some h
  exact ⟨rfl, rfl, rfl, rfl, rfl, rfl, rfl, rfl⟩

theorem takeCall_sameFixed {s v : State} {c : Call} (h : s.takeCall = some (c, v)) : s.SameFixed v := by
  obtain ⟨_, _, _, -, rfl⟩ := takeCall_eq_some h
  exact ⟨rfl, rfl, rfl⟩

theorem ready_takeCall {s v : State} {c : Call} (hr : s.ready) (ht : s.takeCall = some (c, v)) : v.ready := by
  obtain ⟨_, _, _, -, rfl⟩ := takeCall_eq_some ht
  exact hr

/-- The call that gets the lock of a free block is raised or performed: it does not wait again. -/
theorem stepsTo_served {s u v : State} {c : Call} (hr : s.ready) (ht : s.takeCall = some (c, v))
    (hi : c.op.isHostOp = true) (hx : exec c.op v = .next u) : s.StepsTo u := by
  rcases exec_cases hx with ⟨_, _, _, _, hrow, -, -⟩ | ⟨-, hn, -⟩ | ⟨-, -, cause, a, hp, rfl⟩ |
    ⟨-, -, words, commit, result, ws, hp, he, rfl⟩
  · simp [Instr.isHostOp, hrow] at hi
  · exact absurd (ready_takeCall hr ht) hn
  · exact .raises hr ht hp
  · exact .performs hr ht hp he

theorem stepsTo_of_step {s u : State} (h : step s = .next u) : s.StepsTo u := by
  rcases step_cases h with ⟨hr, hp, rfl⟩ | ⟨hr, c, v, ht, hi, hx⟩ | ⟨t, w, hs, -, -, rfl⟩ | ⟨t, hs, rfl⟩
  · exact .waits hr hp
  · exact stepsTo_served hr ht hi hx
  · rw [driven_eq_afterEvents]
    exact stepsTo_afterWord hs _
  · exact stepsTo_seqStep hs

/-! ### The lock and the sequencer (R45, R46) -/

theorem ready_replied {s : State} (h : s.ready) (r : Reply) : (s.replied r).ready := h

theorem ready_performed {s : State} (h : s.ready) (ws : List BusWord) (commit : List RegWrite) (result : Reply) :
    (((s.driven ws).applyWrites commit).replied result).ready := by
  simpa [State.ready] using h

theorem lockOk_of_ready {s : State} (h : s.ready) : s.LockOk := by
  rw [State.LockOk, h.2]
  exact h.1

theorem lockOk_busy {s : State} {t : Txn} (hs : s.seq = .busy t) :
    s.LockOk ↔ s.lock = .held t.caller ∧ t.k < t.words.length := by
  rw [State.LockOk, hs]

/-- Settles O52: an answered call and a commit leave the block free; between them the caller keeps the lock. -/
theorem stepKeepsLockAndSequencerTogether : Obligations.StepKeepsLockAndSequencerTogether := by
  intro s u h hu
  cases stepsTo_of_step hu with
  | waits _ _ => exact h
  | raises hr ht _ => exact lockOk_of_ready (ready_replied (ready_takeCall hr ht) _)
  | performs hr ht _ _ => exact lockOk_of_ready (ready_performed (ready_takeCall hr ht) _ _ _)
  | continues hs hc _ _ hk =>
    have hl : s.lock = .held _ := ((lockOk_busy hs).1 h).1
    exact (lockOk_busy rfl).2 ⟨by rw [hc]; exact hl, hk⟩
  | commits hs => exact lockOk_of_ready ⟨rfl, rfl⟩

/-! ### The lines (R48, R77) -/

/-- The line invariant reads the levels and the trace alone. -/
theorem State.LinesOk.congr {s u : State} (h : s.LinesOk) (hl : u.pinLevel = s.pinLevel) (ht : u.trace = s.trace) :
    u.LinesOk :=
  ⟨by rw [hl]; exact h.canonical, by rw [hl, ht]; exact h.traced⟩

theorem memory_wf_foldl_afterEvent (es : List Event) {m : Memory} (h : m.wf) :
    Memory.wf (es.foldl Memory.afterEvent m) := by
  induction es generalizing m with
  | nil => exact h
  | cons e es ih => exact ih (memory_wf_afterEvent h e)

theorem State.LinesOk.afterEvents {s : State} (h : s.LinesOk) (es : List Event) : (s.afterEvents es).LinesOk where
  canonical := memory_wf_foldl_afterEvent es h.canonical
  traced := by rw [State.afterEvents, lineLevels_append, h.traced]

theorem State.LinesOk.driven {s : State} (h : s.LinesOk) (ws : List BusWord) : (s.driven ws).LinesOk := by
  rw [driven_eq_afterEvents]
  exact h.afterEvents _

theorem linesOk_takeCall {s v : State} {c : Call} (h : s.LinesOk) (ht : s.takeCall = some (c, v)) : v.LinesOk := by
  obtain ⟨_, _, _, -, rfl⟩ := takeCall_eq_some ht
  exact h.congr rfl rfl

/-- Settles O55: a step changes the levels and the trace by the same events, or not at all. -/
theorem stepKeepsLinesAsTraced : Obligations.StepKeepsLinesAsTraced := by
  intro s u h hu
  cases stepsTo_of_step hu with
  | waits _ _ => exact h
  | raises _ ht _ => exact (linesOk_takeCall h ht).congr rfl rfl
  | performs _ ht _ _ =>
    exact ((linesOk_takeCall h ht).driven _).congr (applyWrites_pinLevel _ _) (applyWrites_trace _ _)
  | continues _ _ _ _ _ => exact (h.afterEvents _).congr rfl rfl
  | commits _ => exact (h.afterEvents _).congr (finish_pinLevel _ _) (finish_trace _ _)

/-! ### What is fixed at construction (R32 to R35, R47, R70) -/

theorem sameFixed_performed (s : State) (ws : List BusWord) (commit : List RegWrite) (result : Reply) :
    s.SameFixed (((s.driven ws).applyWrites commit).replied result) :=
  ((sameFixed_driven s ws).trans (sameFixed_applyWrites _ commit)).trans (sameFixed_replied _ result)

theorem exec_sameFixed {i : Instr} {s u : State} (h : exec i s = .next u) : s.SameFixed u := by
  rcases exec_cases h with ⟨_, _, _, _, -, -, rfl⟩ | ⟨-, -, rfl⟩ | ⟨-, -, _, _, -, rfl⟩ |
    ⟨-, -, _, commit, result, ws, -, -, rfl⟩
  · exact sameFixed_driven s _
  · exact ⟨rfl, rfl, rfl⟩
  · exact sameFixed_replied s _
  · exact sameFixed_performed s ws commit result

theorem step_sameFixed {s u : State} (h : step s = .next u) : s.SameFixed u := by
  cases stepsTo_of_step h with
  | waits _ _ => exact ⟨rfl, rfl, rfl⟩
  | raises _ ht _ => exact (takeCall_sameFixed ht).trans (sameFixed_replied _ _)
  | performs _ ht _ _ => exact (takeCall_sameFixed ht).trans (sameFixed_performed _ _ _ _)
  | continues _ _ _ _ _ => exact ⟨rfl, rfl, rfl⟩
  | commits _ => exact (sameFixed_afterEvents s _).trans (sameFixed_finish _ _)

theorem State.SameFixed.pinDirOf {s u : State} (h : s.SameFixed u) (p : Nat) : u.pinDirOf p = s.pinDirOf p := by
  rw [State.pinDirOf, State.pinDirOf, h.pinDir]

/-! ### The register invariants (R37, R38, R41, R42, R186) -/

theorem State.BucketOk.congr {s u : State} (h : s.BucketOk) (hp : u.params = s.params) (hb : u.bucket = s.bucket)
    (hc : u.offsetCoarse = s.offsetCoarse) : u.BucketOk :=
  ⟨by rw [hp, hb, hc]; exact h.sum, by rw [hp, hc]; exact h.absent⟩

theorem State.FineOk.congr {s u : State} (h : s.FineOk) (hp : u.params = s.params) (hc : u.phaseCnt = s.phaseCnt)
    (hf : u.offsetFine = s.offsetFine) : u.FineOk :=
  ⟨by rw [hf, hc]; exact h.same, by rw [hc]; exact h.nonneg, by rw [hp, hc]; exact h.bound⟩

/-- What RegsOk asks of the registers as they stand, without the commit in progress. -/
structure State.RegsNow (s : State) : Prop where
  configured : s.Configured
  romBuilt : s.RomBuilt
  bucket : s.BucketOk
  window : s.WindowOk
  fine : s.FineOk

/-- These are facts of the registers and of what is fixed at construction. -/
theorem State.RegsNow.congr {s u : State} (h : s.RegsNow) (hr : s.SameRegs u) (hf : s.SameFixed u) : u.RegsNow where
  configured := by rw [State.Configured, hf.params]; exact h.configured
  romBuilt := hf.delayRom.trans h.romBuilt
  bucket := h.bucket.congr hf.params hr.bucket hr.offsetCoarse
  window := by rw [State.WindowOk, hr.window]; exact h.window
  fine := h.fine.congr hf.params hr.phaseCnt hr.offsetFine

theorem sameFixed_settled (s : State) : s.SameFixed s.settled := by
  unfold State.settled
  split
  next => exact ⟨rfl, rfl, rfl⟩
  next t _ => exact sameFixed_applyWrites s t.commit

theorem settled_idle {s : State} (h : s.seq = .idle) : s.settled = s := by
  rw [State.settled, h]

theorem settled_busy {s : State} {t : Txn} (h : s.seq = .busy t) : s.settled = s.applyWrites t.commit := by
  rw [State.settled, h]

/-- RegsOk is RegsNow twice: now, and after the commit in progress. -/
theorem regsOk_iff {s : State} : s.RegsOk ↔ s.RegsNow ∧ s.settled.RegsNow := by
  have hf := sameFixed_settled s
  constructor
  · intro h
    refine ⟨⟨h.configured, h.romBuilt, h.bucketNow, h.windowNow, h.fineNow⟩,
      ⟨?_, hf.delayRom.trans h.romBuilt, h.bucketThen, h.windowThen, h.fineThen⟩⟩
    rw [State.Configured, hf.params]
    exact h.configured
  · rintro ⟨h, k⟩
    exact ⟨h.configured, h.romBuilt, h.bucket, k.bucket, h.window, k.window, h.fine, k.fine⟩

theorem regsOk_of_idle {s : State} (hs : s.seq = .idle) (h : s.RegsNow) : s.RegsOk :=
  regsOk_iff.2 ⟨h, by rw [settled_idle hs]; exact h⟩

/-- The value the scan ends with is the one it began with or one of the scanned (R161). -/
theorem scanTable_value_mem (x : Rat) (vs : List Nat) (i : Nat) (best : Nat × Nat) :
    (scanTable x vs i best).2 ∈ best.2 :: vs := by
  induction vs generalizing i best with
  | nil => exact List.mem_cons_self
  | cons v vs ih =>
    rw [scanTable]
    split
    next => exact List.mem_cons_of_mem _ (ih (i + 1) (i, v))
    next =>
      rcases List.mem_cons.1 (ih (i + 1) best) with h | h
      · rw [h]; exact List.mem_cons_self
      · exact List.mem_cons_of_mem _ (List.mem_cons_of_mem _ h)

theorem quantize_value_mem {rom : List Nat} (h : rom ≠ []) (x : Rat) : (quantize rom x).2 ∈ rom := by
  cases rom with
  | nil => exact absurd rfl h
  | cons v vs => exact scanTable_value_mem x vs 1 (0, v)

theorem delayRom_ne_nil : DelayRom.table ≠ [] := by simp [DelayRom.table]

/-- A target that passes the QUADRATURE checks lies below `QUAD_BOUND * QUAD_COUNTS` (R211). -/
theorem lt_of_quadError_eq_none {p : Profile} {t count : Int} (h : quadError p t count = none)
    (hc : 0 < p.quadCounts) : t < p.quadBound * p.quadCounts := by
  obtain ⟨-, hq, -⟩ := quadError_eq_none.1 h
  rw [quadrantOf_of_pos hc] at hq
  exact (Int.ediv_lt_iff_lt_mul hc).1 hq

/-- A u8 argument's byte stands for the argument. -/
theorem byteOf_toNat {b : Nat} (hb : b ≤ 255) : (BitVec.ofNat 8 b).toNat = b := by
  rw [BitVec.toNat_ofNat, Nat.mod_eq_of_lt (by omega)]

/-- A commit of the fine registers keeps the invariants where its target is not negative and, in QUADRATURE, below the
bound. -/
theorem State.RegsNow.fineCommit {s : State} (h : s.RegsNow) {t : Int} (h0 : 0 ≤ t)
    (hb : s.params.profile.fineVariant = .quadrature → 0 < s.params.profile.quadCounts →
      t < s.params.profile.quadBound * s.params.profile.quadCounts) : (s.applyWrites (fineCommit t)).RegsNow :=
  { h with bucket := h.bucket.congr rfl rfl rfl, fine := ⟨rfl, h0, fun hv _ hc => hb hv hc⟩ }

/-- The commit of every plan that is performed keeps the register invariants: the range checks of the plan are what they
ask. -/
theorem hostPlan_commit_regsNow {i : Instr} {s : State} {words : List (Nat × Command)} {commit : List RegWrite}
    {result : Reply} (h : s.RegsNow) (hp : hostPlan i s = .perform words commit result) :
    (s.applyWrites commit).RegsNow := by
  rcases hostPlan_perform hp with ⟨b, -, hb, hsum, -, rfl, -⟩ | ⟨c, -, hc, hcoarse, hsum, -, rfl, -⟩ |
    ⟨x, -, -, -, rfl, -⟩ | ⟨t, -, -, -, rfl, -⟩ | ⟨t, -, -, -, rfl, -⟩ | ⟨t, -, rfl, -, hv⟩ | ⟨x, -, -, rfl, -⟩ |
    ⟨-, rfl, -⟩
  · rw [← byteOf_toNat hb] at hsum
    exact { h with bucket := ⟨hsum, h.bucket.absent⟩, fine := h.fine.congr rfl rfl rfl }
  · rw [← byteOf_toNat hc] at hsum
    have absent (hn : s.params.profile.hasCoarse = false) : BitVec.ofNat 8 c = 0 := by simp [hcoarse] at hn
    exact { h with bucket := ⟨hsum, absent⟩, fine := h.fine.congr rfl rfl rfl }
  · have hw : (quantize s.delayRom x).2 ∈ DelayRom.table := by
      rw [h.romBuilt]
      exact quantize_value_mem delayRom_ne_nil x
    exact { h with window := hw, bucket := h.bucket.congr rfl rfl rfl, fine := h.fine.congr rfl rfl rfl }
  · exact { h with bucket := h.bucket.congr rfl rfl rfl, fine := h.fine.congr rfl rfl rfl }
  · exact { h with bucket := h.bucket.congr rfl rfl rfl, fine := h.fine.congr rfl rfl rfl }
  · rcases hv with ⟨hdirect, he, -⟩ | ⟨-, he, -⟩
    · exact h.fineCommit (directError_eq_none.1 he).1 fun hq => by simp [hdirect] at hq
    · exact h.fineCommit (quadError_eq_none.1 he).1 fun _ hc => lt_of_quadError_eq_none he hc
  · exact { h with bucket := h.bucket.congr rfl rfl rfl, fine := h.fine.congr rfl rfl rfl }
  · exact h

theorem regsNow_takeCall {s v : State} {c : Call} (h : s.RegsNow) (ht : s.takeCall = some (c, v)) : v.RegsNow :=
  h.congr (takeCall_sameRegs ht) (takeCall_sameFixed ht)

theorem regsNow_replied {s : State} (h : s.RegsNow) (r : Reply) : (s.replied r).RegsNow :=
  h.congr (sameRegs_replied s r) (sameFixed_replied s r)

theorem regsNow_finish {s : State} {t : Txn} (h : (s.applyWrites t.commit).RegsNow) : (s.finish t).RegsNow :=
  h.congr ⟨rfl, rfl, rfl, rfl, rfl, rfl, rfl, rfl⟩ ⟨rfl, rfl, rfl⟩

/-- A commit that meets the invariants meets them over any state with the same registers. -/
theorem State.RegsNow.applyWrites_congr {s u : State} {ws : List RegWrite} (h : (s.applyWrites ws).RegsNow)
    (hr : s.SameRegs u) (hf : s.SameFixed u) : (u.applyWrites ws).RegsNow :=
  h.congr (hr.applyWrites ws) (hf.applyWrites ws)

/-- Settles O53: a performed plan's commit meets the invariants (`hostPlan_commit_regsNow`); a commit in progress already
does, and keeps doing so while the sequencer drives events. -/
theorem stepKeepsRegisterInvariants : Obligations.StepKeepsRegisterInvariants := by
  intro s u h hu
  obtain ⟨hnow, hthen⟩ := regsOk_iff.1 h
  cases stepsTo_of_step hu with
  | waits _ _ => exact h
  | raises hr ht _ =>
    exact regsOk_of_idle (ready_takeCall hr ht).2 (regsNow_replied (regsNow_takeCall hnow ht) _)
  | performs hr ht hp _ =>
    have hc := hostPlan_commit_regsNow (regsNow_takeCall hnow ht) hp
    exact regsOk_of_idle (ready_performed (ready_takeCall hr ht) _ _ _).2
      (regsNow_replied (hc.applyWrites_congr (sameRegs_driven _ _) (sameFixed_driven _ _)) _)
  | @continues t t' es hs _ _ hc _ =>
    rw [settled_busy hs, ← hc] at hthen
    have hr : s.SameRegs { s.afterEvents es with seq := .busy t' } := ⟨rfl, rfl, rfl, rfl, rfl, rfl, rfl, rfl⟩
    have hf : s.SameFixed { s.afterEvents es with seq := .busy t' } := ⟨rfl, rfl, rfl⟩
    exact regsOk_iff.2 ⟨hnow.congr hr hf, hthen.applyWrites_congr hr hf⟩
  | commits hs =>
    rw [settled_busy hs] at hthen
    exact regsOk_of_idle rfl
      (regsNow_finish (hthen.applyWrites_congr (sameRegs_afterEvents s _) (sameFixed_afterEvents s _)))

/-! ### Each register has one setter (R36 to R44) -/

/-- Each register is the same in two states, unless the instruction is its setter. -/
structure State.RegsSetBy (i : Instr) (s u : State) : Prop where
  bucket : (∀ b, i ≠ .setBucket b) → u.bucket = s.bucket
  offsetCoarse : (∀ c, i ≠ .setOffsetCoarse c) → u.offsetCoarse = s.offsetCoarse
  window : (∀ x, i ≠ .setWindow x) → u.window = s.window
  laserSrc : (∀ t, i ≠ .setLaserTrig t) → u.laserSrc = s.laserSrc
  ringRfSrc : (∀ t, i ≠ .setRingRfSource t) → u.ringRfSrc = s.ringRfSrc
  fine : (∀ t, i ≠ .setOffsetFine t) → u.phaseCnt = s.phaseCnt ∧ u.offsetFine = s.offsetFine
  avgPhaseAdv : (∀ x, i ≠ .setAvgPhaseAdvance x) → u.avgPhaseAdv = s.avgPhaseAdv

theorem State.SameRegs.regsSetBy {s u : State} (h : s.SameRegs u) (i : Instr) : State.RegsSetBy i s u where
  bucket _ := h.bucket
  offsetCoarse _ := h.offsetCoarse
  window _ := h.window
  laserSrc _ := h.laserSrc
  ringRfSrc _ := h.ringRfSrc
  fine _ := ⟨h.phaseCnt, h.offsetFine⟩
  avgPhaseAdv _ := h.avgPhaseAdv

/-- A performed plan commits the registers of its operation alone. -/
theorem hostPlan_commit_regsSetBy {i : Instr} {s v : State} {words : List (Nat × Command)} {commit : List RegWrite}
    {result : Reply} (hp : hostPlan i s = .perform words commit result) :
    State.RegsSetBy i v (v.applyWrites commit) := by
  have same : State.RegsSetBy i v v := State.SameRegs.regsSetBy ⟨rfl, rfl, rfl, rfl, rfl, rfl, rfl, rfl⟩ i
  rcases hostPlan_perform hp with ⟨b, rfl, -, -, -, rfl, -⟩ | ⟨c, rfl, -, -, -, -, rfl, -⟩ |
    ⟨x, rfl, -, -, rfl, -⟩ | ⟨t, rfl, -, -, rfl, -⟩ | ⟨t, rfl, -, -, rfl, -⟩ | ⟨t, rfl, rfl, -, -⟩ |
    ⟨x, rfl, -, rfl, -⟩ | ⟨-, rfl, -⟩
  · exact { same with bucket := fun h => absurd rfl (h _) }
  · exact { same with offsetCoarse := fun h => absurd rfl (h _) }
  · exact { same with window := fun h => absurd rfl (h _) }
  · exact { same with laserSrc := fun h => absurd rfl (h _) }
  · exact { same with ringRfSrc := fun h => absurd rfl (h _) }
  · exact { same with fine := fun h => absurd rfl (h _) }
  · exact { same with avgPhaseAdv := fun h => absurd rfl (h _) }
  · exact same

theorem exec_regsSetBy {i : Instr} {s u : State} (h : exec i s = .next u) : State.RegsSetBy i s u := by
  rcases exec_cases h with ⟨_, _, _, _, -, -, rfl⟩ | ⟨-, -, rfl⟩ | ⟨-, -, _, _, -, rfl⟩ |
    ⟨-, -, _, commit, result, ws, hp, -, rfl⟩
  · exact (sameRegs_driven s _).regsSetBy i
  · refine State.SameRegs.regsSetBy ?_ i
    exact ⟨rfl, rfl, rfl, rfl, rfl, rfl, rfl, rfl⟩
  · exact (sameRegs_replied s _).regsSetBy i
  · have committed : State.RegsSetBy i (s.driven ws) ((s.driven ws).applyWrites commit) :=
      hostPlan_commit_regsSetBy hp
    exact { committed with }

/-- Settles O36: a bus command, a call that waits and a RangeError write no register; a plan commits its own. -/
theorem eachRegisterHasOneSetter : Obligations.EachRegisterHasOneSetter := by
  intro s u i h
  obtain ⟨bucket, offsetCoarse, window, laserSrc, ringRfSrc, fine, avgPhaseAdv⟩ := exec_regsSetBy h
  exact ⟨exec_sameFixed h, bucket, offsetCoarse, window, laserSrc, ringRfSrc, fine, avgPhaseAdv⟩

/-! ### Construction (R51, R290) -/

theorem foldl_gpioConfigure (s : State) (ps : List Nat) :
    ps.foldl State.gpioConfigure s =
      { s with
        pinDir := ps.foldl (fun qs p => insertPin p qs) s.pinDir
        trace := s.trace ++ ps.map Event.configure } := by
  induction ps generalizing s with
  | nil => simp
  | cons p ps ih => simp [ih, State.gpioConfigure]

/-- Construction of sound parameters leaves the constructed state. -/
theorem construct_eq_next {q : Params} {s : State} :
    construct q = .next s ↔ configDefect q = none ∧ s = State.constructed q := by
  unfold construct
  cases configDefect q with
  | some d => simp
  | none =>
    have hc : q.pins.all.foldl State.gpioConfigure (State.unconfigured q) = State.constructed q :=
      foldl_gpioConfigure (State.unconfigured q) q.pins.all
    simp only [hc, Host.Outcome.next.injEq, true_and, eq_comm]

theorem mem_insertPin {p q : Nat} {ps : List Nat} : p ∈ insertPin q ps ↔ p = q ∨ p ∈ ps := by
  induction ps with
  | nil => simp [insertPin]
  | cons r ps ih =>
    rw [insertPin]
    split
    next => exact List.mem_cons
    next =>
      split
      next h => simp [h]
      next => rw [List.mem_cons, ih, List.mem_cons]; tauto

theorem mem_foldl_insertPin {p : Nat} (qs ps : List Nat) :
    p ∈ qs.foldl (fun rs q => insertPin q rs) ps ↔ p ∈ qs ∨ p ∈ ps := by
  induction qs generalizing ps with
  | nil => simp
  | cons q qs ih => rw [List.foldl_cons, ih, mem_insertPin, List.mem_cons]; tauto

theorem constructed_pinsOut (q : Params) : (State.constructed q).PinsOut := by
  intro p hp
  exact if_pos ((mem_foldl_insertPin q.pins.all []).2 (.inl hp))

theorem configure_mem_constructed_trace {q : Params} {p : Nat} (hp : p ∈ q.pins.all) :
    Event.configure p ∈ (State.constructed q).trace :=
  List.mem_map_of_mem hp

/-- Settles O11: construction adds each pin of the map to the outputs; what is fixed stays (`step_sameFixed`). -/
theorem mappedPinsAreOutputsForGood : Obligations.MappedPinsAreOutputsForGood := by
  refine ⟨fun q s h p hp => ?_, fun s u i p h => (exec_sameFixed h).pinDirOf p,
    fun s u p h => (step_sameFixed h).pinDirOf p⟩
  obtain ⟨-, rfl⟩ := construct_eq_next.1 h
  exact ⟨constructed_pinsOut q p hp, configure_mem_constructed_trace hp⟩

/-- Settles O56: the constructed state holds the parameters, and they are among what is fixed. -/
theorem configurationNeverChanges : Obligations.ConfigurationNeverChanges := by
  refine ⟨fun q s h => ?_, fun s u i h => (exec_sameFixed h).params, fun s u h => (step_sameFixed h).params⟩
  obtain ⟨-, rfl⟩ := construct_eq_next.1 h
  rfl

/-- Configure events drive no line. -/
theorem foldl_afterEvent_configure (ps : List Nat) (m : Memory) :
    (ps.map Event.configure).foldl Memory.afterEvent m = m := by
  induction ps with
  | nil => rfl
  | cons p ps ih => exact ih

/-- Configure events latch no word. -/
theorem latchedFrom_configure (pins : PinMap) (m : Memory) (ps : List Nat) :
    latchedFrom pins m (ps.map Event.configure) = [] := by
  induction ps with
  | nil => rfl
  | cons p ps ih =>
    rw [List.map_cons, latchedFrom, if_neg (by simp)]
    exact ih

theorem constructed_latched (q : Params) : (State.constructed q).latched = [] :=
  latchedFrom_configure q.pins [] q.pins.all

/-- Settles O59: the constructed state holds these values, and its trace of configure events latches nothing. -/
theorem constructionLeavesTheResetValues : Obligations.ConstructionLeavesTheResetValues := by
  intro q s h
  obtain ⟨-, rfl⟩ := construct_eq_next.1 h
  exact ⟨rfl, rfl, rfl, rfl, rfl, rfl, rfl, rfl, rfl, rfl, rfl, constructed_pinsOut q, fun _ => rfl, rfl, rfl,
    constructed_latched q⟩

/-! ### What construction leaves meets the invariants -/

theorem ready_constructed (q : Params) : (State.constructed q).ready := ⟨rfl, rfl⟩

theorem zero_mem_delayRom : 0 ∈ DelayRom.table := List.mem_map.2 ⟨0, by simp, rfl⟩

theorem constructed_regsOk {q : Params} (h : configDefect q = none) : (State.constructed q).RegsOk := by
  refine regsOk_of_idle rfl ⟨h, rfl, ⟨?_, fun _ => rfl⟩, zero_mem_delayRom, ⟨rfl, le_rfl, fun _ => mul_pos⟩⟩
  change 0 * q.profile.bucketStep + 0 ≤ 255
  omega

theorem constructed_strobeOk (q : Params) : (State.constructed q).StrobeOk :=
  nofun

theorem constructed_linesOk (q : Params) : (State.constructed q).LinesOk :=
  ⟨memory_wf_nil, foldl_afterEvent_configure q.pins.all []⟩

theorem constructed_callsOk (q : Params) : (State.constructed q).CallsOk :=
  ⟨List.nodup_nil, nofun, nofun, nofun⟩

/-- Where no word was latched, the last `bucket` word is not wrong. -/
theorem bucketLatched_of_latched_nil {s : State} (h : s.latched = []) : s.BucketLatched := by
  intro m _ d hd
  simp [State.lastLatched, h] at hd

theorem configDefect_standard_p3 : configDefect (Params.standard Profile.p3) = none := by decide

/-- Settles O60: the parameters pass the checks, and whatever construction leaves meets the invariants. -/
theorem resetMeetsTheInvariants : Obligations.ResetMeetsTheInvariants :=
  ⟨construct_eq_next.2 ⟨configDefect_standard_p3, rfl⟩, constructed_regsOk configDefect_standard_p3,
    lockOk_of_ready (ready_constructed _), constructed_strobeOk _, constructed_linesOk _, constructed_pinsOut _,
    constructed_callsOk _, bucketLatched_of_latched_nil (constructed_latched _)⟩

end Sys2Proof.Machine
end

section
/-! The statements of 20_memory.md: the delay table, the level vector, the lines under gpio.write, a bus command and a
served call, and the transaction under the lock. -/

namespace Sys2Proof.Machine

/-! ### The delay table (R70, R71) -/

/-- `tapSum` is the sum over the bits of the index of the taps they select (R71). -/
theorem tapSum_eq_sum (ts : List Nat) (i : Nat) :
    tapSum ts i = ∑ b ∈ Finset.range ts.length, if i.testBit b then ts[b]?.getD 0 else 0 := by
  induction ts generalizing i with
  | nil => rfl
  | cons t ts ih =>
    have hbit : i % 2 * t = if i.testBit 0 then t else 0 := by
      rcases Nat.mod_two_eq_zero_or_one i with h | h <;> simp [h]
    rw [tapSum, ih, hbit, List.length_cons, Finset.sum_range_succ', add_comm]
    simp [Nat.testBit_succ]

/-- Settles O7: entry `i` is `tapSum` of `i` (`tapSum_eq_sum`). -/
theorem delayRomEntriesAreTapSums : Obligations.DelayRomEntriesAreTapSums := by
  refine ⟨by simp [DelayRom.table], fun i hi => ?_⟩
  have hentry : DelayRom.table[i]? = some (tapSum delayTaps i) := by simp [DelayRom.table, hi]
  rw [hentry, tapSum_eq_sum]
  rfl

/-! ### The level vector (R80 to R82, R100) -/

theorem dataLevels_getElem? (d : Byte) {j : Nat} (hj : j < 8) : (dataLevels d)[j]? = some (d.getLsbD j) := by
  simp [dataLevels, hj]

theorem modeLevels_getElem? (width : ModeWidth) (m j : Nat) :
    (modeLevels width m)[j]? = if j < width.bits then some (m.testBit j) else none := by
  split
  next h => simp [modeLevels, h]
  next h => exact List.getElem?_eq_none (by rw [modeLevels_length]; omega)

/-- The packed number's low eight bits are the data, the bits above them the mode (R100). -/
theorem bw_testBit (w : BusWord) (j : Nat) :
    w.bw.testBit j = if j < 8 then w.data.getLsbD j else w.mode.testBit (j - 8) := by
  have h : w.bw = 2 ^ 8 * w.mode + w.data.toNat := add_comm _ _
  rw [h, Nat.testBit_two_pow_mul_add w.mode w.data.isLt]
  rfl

theorem wordLevels_getElem? (w : BusWord) (width : ModeWidth) (j : Nat) :
    (wordLevels w width)[j]? = if j < 8 + width.bits then some (w.bw.testBit j) else none := by
  rw [wordLevels, List.getElem?_append, dataLevels_length, bw_testBit]
  by_cases hj : j < 8
  · rw [if_pos hj, if_pos hj, if_pos (by omega), dataLevels_getElem? _ hj]
  · rw [if_neg hj, if_neg hj, modeLevels_getElem?]
    exact if_congr (by omega) rfl rfl

/-- Settles O4: the vector, the packed number and the pin list each are data below position 8, mode from there on. -/
theorem levelVectorIsBitsOfPackedWord : Obligations.LevelVectorIsBitsOfPackedWord := by
  refine ⟨wordLevels_getElem?, fun w => ?_, fun m j hm => ?_⟩
  · have hd : w.data.toNat < 256 := w.data.isLt
    unfold BusWord.bw
    omega
  · rw [PinMap.wordPins, List.getElem?_append, hm]

/-! ### gpio.write (R77) -/

/-- A pin's last place in the list says its level. -/
theorem read_writeAll_zip (m : Memory) {ps : List Nat} {ls : List Bool} {j p : Nat} {b : Bool} (hp : ps[j]? = some p)
    (hb : ls[j]? = some b) (hlast : ∀ k > j, ps[k]? ≠ some p) : (m.writeAll (ps.zip ls)).read p = some b := by
  induction ps generalizing m ls j with
  | nil => simp at hp
  | cons q ps ih =>
    cases ls with
    | nil => simp at hb
    | cons c ls =>
      change ((m.write q c).writeAll (ps.zip ls)).read p = some b
      cases j with
      | zero =>
        obtain rfl : q = p := by simpa using hp
        obtain rfl : c = b := by simpa using hb
        have hq : q ∉ ps := fun h => by
          obtain ⟨k, hk⟩ := List.mem_iff_getElem?.1 h
          exact hlast (k + 1) k.succ_pos hk
        rw [memory_read_writeAll_other _ _ fun h => hq (mem_fst_zip h), memory_read_write_same]
      | succ j => exact ih _ hp hb fun k hk => hlast (k + 1) (Nat.succ_lt_succ hk)

/-! ### Nothing reads the lines (R77) -/

/-- The state with other levels on its lines. -/
def State.withLevels (s : State) (m : Memory) : State := { s with pinLevel := m }

theorem afterEvents_withLevels (s : State) (m : Memory) (es : List Event) :
    (s.withLevels m).afterEvents es = (s.afterEvents es).withLevels (es.foldl Memory.afterEvent m) := rfl

theorem driven_withLevels (s : State) (m : Memory) (ws : List BusWord) :
    (s.withLevels m).driven ws = (s.driven ws).withLevels (ws.foldl (linesAfterWord s.params) m) := rfl

theorem applyWrites_withLevels (s : State) (m : Memory) (ws : List RegWrite) :
    (s.withLevels m).applyWrites ws = (s.applyWrites ws).withLevels m := by
  induction ws generalizing s with
  | nil => rfl
  | cons w ws ih =>
    rw [applyWrites_cons, applyWrites_cons, ← ih]
    cases w <;> rfl

theorem finish_withLevels (s : State) (m : Memory) (t : Txn) :
    (s.withLevels m).finish t = (s.finish t).withLevels m := by
  simp only [State.finish, applyWrites_withLevels]
  rfl

theorem afterWord_withLevels (s : State) (m : Memory) (t : Txn) :
    (s.withLevels m).afterWord t = (s.afterWord t).withLevels m := by
  unfold State.afterWord
  split
  next => rfl
  next => exact finish_withLevels s m t

theorem writePhase_withLevels (s : State) (m : Memory) (w : BusWord) (ph : WritePhase) :
    ∃ m', (s.withLevels m).writePhase w ph = (s.writePhase w ph).withLevels m' := by
  rw [writePhase_eq_afterEvents, writePhase_eq_afterEvents]
  exact ⟨_, afterEvents_withLevels s m _⟩

/-- Past its last word the sequencer commits. -/
theorem seqStep_done {s : State} {t : Txn} (hs : s.seq = .busy t) (hw : t.words[t.k]? = none) :
    s.seqStep = s.finish t := by
  simp [State.seqStep, hs, hw]

theorem seqStep_withLevels (s : State) (m : Memory) : ∃ m', (s.withLevels m).seqStep = s.seqStep.withLevels m' := by
  cases hs : s.seq with
  | idle => exact ⟨m, by simp only [State.seqStep, State.withLevels, hs]⟩
  | busy t =>
    have hm : (s.withLevels m).seq = .busy t := hs
    cases hw : t.words[t.k]? with
    | none => exact ⟨m, by rw [seqStep_done hm hw, seqStep_done hs hw, finish_withLevels]⟩
    | some w =>
      obtain ⟨m', h⟩ := writePhase_withLevels s m w t.wph
      refine ⟨m', ?_⟩
      cases hp : t.wph.next with
      | some ph =>
        rw [seqStep_phase hm hw hp, seqStep_phase hs hw hp, h]
        rfl
      | none => rw [seqStep_last hm hw hp, seqStep_last hs hw hp, h, afterWord_withLevels]

theorem hostPlan_withLevels (i : Instr) (s : State) (m : Memory) : hostPlan i (s.withLevels m) = hostPlan i s := by
  cases i <;> rfl

/-- An instruction does the same over other line levels, but for the levels. -/
theorem exec_withLevels {i : Instr} {s u : State} (h : exec i s = .next u) (m : Memory) :
    ∃ m', exec i (s.withLevels m) = .next (u.withLevels m') := by
  rcases exec_cases h with ⟨r, c, d, _, hrow, -, -⟩ | ⟨hi, hn, rfl⟩ | ⟨hi, hr, cause, a, hp, rfl⟩ |
    ⟨hi, hr, words, commit, result, ws, hp, he, rfl⟩
  · obtain ⟨hr, k, hk, rfl⟩ := exec_busCommand_cases hrow h
    exact ⟨_, by rw [exec_busCommand hrow, busCommand_drives (s := s.withLevels m) d hr.symm hk, driven_withLevels]⟩
  · exact ⟨m, by rw [exec_host hi, transaction_waits (s := s.withLevels m) hn]; rfl⟩
  · exact ⟨m, exec_raises (s := s.withLevels m) hi hr ((hostPlan_withLevels i s m).trans hp)⟩
  · refine ⟨ws.foldl (linesAfterWord s.params) m, ?_⟩
    rw [exec_performs (s := s.withLevels m) hi hr ((hostPlan_withLevels i s m).trans hp) he, driven_withLevels,
      applyWrites_withLevels]
    rfl

/-- What is fetched from the same state with other line levels: the same, and a call is served over those levels. -/
def Fetched.withLevels (m : Memory) : Fetched → Fetched
  | .call i u => .call i (u.withLevels m)
  | .wait => .wait
  | .word t i => .word t i
  | .phase => .phase
  | .stop f => .stop f
  | .refuse r => .refuse r

theorem takeCall_withLevels (s : State) (m : Memory) :
    (s.withLevels m).takeCall = s.takeCall.map fun e => (e.1, e.2.withLevels m) := by
  have hp : (s.withLevels m).pending = s.pending := rfl
  have hf : (s.withLevels m).freeCount = s.freeCount := rfl
  unfold State.takeCall
  rw [hp, hf]
  split
  next => rfl
  next => rfl
  next => split <;> rfl

theorem fetchWord_withLevels (s : State) (m : Memory) (t : Txn) :
    (s.withLevels m).fetchWord t = (s.fetchWord t).withLevels m := by
  change s.fetchWord t = _
  unfold State.fetchWord
  repeat' split
  all_goals rfl

theorem fetchCall_withLevels (s : State) (m : Memory) :
    (s.withLevels m).fetchCall = s.fetchCall.withLevels m := by
  unfold State.fetchCall
  rw [takeCall_withLevels]
  cases s.takeCall with
  | none => rfl
  | some e =>
    simp only [Option.map_some]
    split <;> rfl

theorem fetch_withLevels (s : State) (m : Memory) : (s.withLevels m).fetch = s.fetch.withLevels m := by
  have hseq : (s.withLevels m).seq = s.seq := rfl
  have hlock : (s.withLevels m).lock = s.lock := rfl
  unfold State.fetch
  rw [hseq, hlock]
  split
  next t _ => exact fetchWord_withLevels s m t
  next => exact fetchCall_withLevels s m
  next => rfl

/-- A step does the same over other line levels, but for the levels. -/
theorem step_withLevels {s u : State} (h : step s = .next u) (m : Memory) :
    ∃ m', step (s.withLevels m) = .next (u.withLevels m') := by
  unfold step at h ⊢
  rw [fetch_withLevels]
  cases hf : s.fetch with
  | wait =>
    simp only [hf, Host.Outcome.next.injEq] at h
    exact ⟨m, by rw [← h]; rfl⟩
  | call i v =>
    simp only [hf] at h
    exact exec_withLevels h m
  | word t i =>
    simp only [hf] at h
    cases hx : exec i s with
    | next v =>
      simp only [hx, Host.Outcome.next.injEq] at h
      obtain ⟨m', hm⟩ := exec_withLevels hx m
      exact ⟨m', by simp only [Fetched.withLevels, hm, afterWord_withLevels, h]⟩
    | fault f => simp [hx] at h
    | refused r => simp [hx] at h
  | phase =>
    simp only [hf, Host.Outcome.next.injEq] at h
    obtain ⟨m', hm⟩ := seqStep_withLevels s m
    exact ⟨m', by simp only [Fetched.withLevels, hm, h]⟩
  | stop f => simp [hf] at h
  | refuse r => simp [hf] at h

/-- Settles O10: the last place of a pin counts (`read_writeAll_zip`); a step is the same over other levels
(`step_withLevels`). -/
theorem gpioWriteDrivesAndNothingReadsTheLines : Obligations.GpioWriteDrivesAndNothingReadsTheLines := by
  refine ⟨fun s pins levels _ => ⟨gpioWrite_trace s pins levels, fun j p b => ?_, fun p hp => ?_⟩,
    fun s u m h => step_withLevels h m⟩
  · exact read_writeAll_zip s.pinLevel
  · exact memory_read_writeAll_other s.pinLevel _ fun h => hp (mem_fst_zip h)

/-! ### The lines after a bus command (R80, R81, R140, R302) -/

/-- A word leaves its levels on the data and mode lines. -/
theorem read_linesAfterWord {q : Params} (h : configDefect q = none) (m : Memory) (w : BusWord) {p : Nat} {b : Bool}
    (hp : (p, b) ∈ q.pins.wordPins.zip (wordLevels w q.profile.modeWidth)) :
    (linesAfterWord q m w).read p = some b := by
  have hne : p ≠ q.pins.strobe := fun he => (configured_wordPins h).2.2 (he ▸ (List.of_mem_zip hp).1)
  rw [linesAfterWord, memory_read_write_other _ _ hne, memory_read_write_other _ _ hne, read_wordLevels h m w hp]

theorem read_linesAfterWord_dataPin {q : Params} (h : configDefect q = none) (m : Memory) (w : BusWord) {j : Nat}
    (hj : j < 8) : ∃ p, q.pins.dataPins[j]? = some p ∧ (linesAfterWord q m w).read p = some (w.data.getLsbD j) := by
  have hl : j < q.pins.dataPins.length := by rw [configured_dataPins h]; exact hj
  refine ⟨_, List.getElem?_eq_getElem hl, read_linesAfterWord h m w ?_⟩
  rw [wordPins_zip h]
  exact List.mem_append_left _ (List.mem_of_getElem? (i := j)
    (List.getElem?_zip_eq_some.2 ⟨List.getElem?_eq_getElem hl, dataLevels_getElem? _ hj⟩))

theorem read_linesAfterWord_modePin {q : Params} (h : configDefect q = none) (m : Memory) (w : BusWord) {k : Nat}
    (hk : k < q.profile.modeWidth.bits) :
    ∃ p, q.pins.modePins[k]? = some p ∧ (linesAfterWord q m w).read p = some (w.mode.testBit k) := by
  have hl : k < q.pins.modePins.length := by rw [configured_modePins h]; exact hk
  refine ⟨_, List.getElem?_eq_getElem hl, read_linesAfterWord h m w ?_⟩
  rw [wordPins_zip h]
  exact List.mem_append_right _ (List.mem_of_getElem? (i := k)
    (List.getElem?_zip_eq_some.2 ⟨List.getElem?_eq_getElem hl, by rw [modeLevels_getElem?, if_pos hk]⟩))

/-- Settles O15: a bus command drives its word, whose data levels are the data byte's bits. -/
theorem dataByteIsOnTheDataLines : Obligations.DataByteIsOnTheDataLines := by
  intro s u i r c d hc hrow hx j hj
  obtain ⟨-, m, -, rfl⟩ := exec_busCommand_cases hrow hx
  exact read_linesAfterWord_dataPin hc s.pinLevel ⟨d, m⟩ hj

/-- Settles O16: a bus command drives its word, which ends with the strobe at 0. -/
theorem modeFieldIsOnTheModeLinesAndTheStrobeIsLow : Obligations.ModeFieldIsOnTheModeLinesAndTheStrobeIsLow := by
  intro s u i r c d m hc hrow hm hx
  obtain ⟨-, m', hm', rfl⟩ := exec_busCommand_cases hrow hx
  obtain rfl : m = m' := Option.some.inj (hm.symm.trans hm')
  exact ⟨fun k hk => read_linesAfterWord_modePin hc s.pinLevel ⟨d, m⟩ hk, memory_read_write_same _ _ _,
    fun p hp => read_driven_unmapped _ hp⟩

/-- Settles O37: an instruction leaves the lines alone, or drives words. -/
theorem unmappedLinesNeverChange : Obligations.UnmappedLinesNeverChange := by
  intro s u i p h hp
  rcases exec_cases h with ⟨_, _, _, _, -, -, rfl⟩ | ⟨-, -, rfl⟩ | ⟨-, -, _, _, -, rfl⟩ |
    ⟨-, -, _, commit, _, ws, -, -, rfl⟩
  · exact read_driven_unmapped _ hp
  · rfl
  · rfl
  · change ((s.driven ws).applyWrites commit).pinLevel.read p = _
    rw [applyWrites_pinLevel, read_driven_unmapped ws hp]

/-! ### The words of a served call (R91, R110, R112, R147) -/

/-- The words latched are read off the trace and the pin map. -/
theorem latched_congr {s u : State} (hp : u.params = s.params) (ht : u.trace = s.trace) : u.latched = s.latched := by
  rw [State.latched, State.latched, hp, ht]

/-- The newest reply says whether RangeError was raised. -/
theorem raisedTo_iff {s u : State} {r : Reply} (h : u.replies = s.replies ++ [(s.turn, r)]) :
    s.RaisedTo u ↔ ∃ c a, r = .rangeError c a := by
  simp [State.RaisedTo, h]

theorem performed_replies (s : State) (ws : List BusWord) (commit : List RegWrite) (result : Reply) :
    (((s.driven ws).applyWrites commit).replied result).replies = s.replies ++ [(s.turn, result)] := by
  simp [State.replied]

/-- Performing a plan latches its words: neither the commit nor the reply touches the trace. -/
theorem performed_latched {s : State} (hc : s.Configured) {words : List (Nat × Command)} {ws : List BusWord}
    (he : encodeWords s.params.profile words = some ws) (commit : List RegWrite) (result : Reply) :
    (((s.driven ws).applyWrites commit).replied result).latched = s.latched ++ ws.map some := by
  rw [← latched_driven hc (encodeWords_mode_lt he)]
  exact latched_congr (applyWrites_params _ commit) (applyWrites_trace _ commit)

/-- Settles O38: a call that raises leaves only its reply; any other drives the words its plan encodes to
(`hostPlan_words`, `encodeWords_eq_some`). -/
theorem servedCallLatchesItsPlannedWords : Obligations.ServedCallLatchesItsPlannedWords := by
  intro s u i hr hc hi hx
  rcases exec_cases hx with ⟨_, _, _, _, hrow, -, -⟩ | ⟨-, hn, -⟩ | ⟨-, -, cause, a, -, rfl⟩ |
    ⟨-, -, words, commit, result, ws, hp, he, rfl⟩
  · simp [Instr.isHostOp, hrow] at hi
  · exact absurd hr hn
  · have hraised : s.RaisedTo (s.replied (.rangeError cause a)) := ⟨cause, a, rfl⟩
    exact ⟨fun _ => ⟨rfl, rfl⟩, fun h => absurd hraised h⟩
  · obtain ⟨rfl, hcount, hresult⟩ := hostPlan_words hp
    refine ⟨fun h => ?_, fun _ => ⟨ws, encodeWords_eq_some.1 he, (encodeWords_length he).trans hcount,
      applyWrites_trace _ commit, performed_latched hc he commit result⟩⟩
    obtain ⟨c, a, hra⟩ := (raisedTo_iff (performed_replies s ws commit result)).1 h
    exact absurd hra (hresult c a)

/-! ### The lock (R90, R93) -/

theorem step_waits {s : State} (hr : s.ready) (hp : s.pending = []) : step s = .next s := by
  have ht : s.takeCall = none := by rw [State.takeCall, hp]
  simp only [step, fetch_ready hr, State.fetchCall, ht]

/-- Settles O45: `takeCall` picks none only where none waits, and then the step waits. -/
theorem theLockPicksAWaitingCall : Obligations.TheLockPicksAWaitingCall := by
  refine ⟨fun s hp => ?_, fun s => step_waits⟩
  cases ht : s.takeCall with
  | none => exact absurd (takeCall_eq_none ht) hp
  | some e =>
    obtain ⟨before, after, n, hpending, hu⟩ := takeCall_eq_some ht
    exact ⟨e.1, e.2, before, after, rfl, hpending, by rw [hu]⟩

/-! ### The commit (R46, R92, R141) -/

theorem sameRegs_writePhase (s : State) (w : BusWord) (ph : WritePhase) : s.SameRegs (s.writePhase w ph) := by
  rw [writePhase_eq_afterEvents]
  exact sameRegs_afterEvents s _

/-- After a word that is not the last, the sequencer is at the next one. -/
theorem afterWord_of_lt (s : State) {t : Txn} (h : t.k + 1 < t.words.length) :
    s.afterWord t = { s with seq := .busy { t with k := t.k + 1, wph := .assert } } := if_pos h

/-- After the last word, the transaction commits. -/
theorem afterWord_of_eq (s : State) {t : Txn} (h : t.k + 1 = t.words.length) : s.afterWord t = s.finish t :=
  if_neg h.not_lt

/-- The registers after the end of a transaction are those its commit writes. -/
theorem State.SameRegs.finish {s u : State} (h : s.SameRegs u) (t : Txn) :
    (s.applyWrites t.commit).SameRegs (u.finish t) :=
  { h.applyWrites t.commit with }

/-- Settles O49: of the cases of a sequencer step (`seqStep_cases`), only the last phase of the last word commits. -/
theorem registersChangeOnlyAtTheCommit : Obligations.RegistersChangeOnlyAtTheCommit := by
  intro s t hs hk
  rcases seqStep_cases hs with ⟨hw, -⟩ | ⟨w, -, ⟨ph, hp, he⟩ | ⟨hl, he⟩⟩
  · exact absurd hk (not_lt.2 (List.getElem?_eq_none_iff.1 hw))
  · rw [he]
    refine ⟨fun _ => ⟨{ sameRegs_writePhase s w t.wph with }, writePhase_lock s w _, writePhase_replies s w _,
      _, rfl, rfl, rfl, rfl⟩, fun hl => ?_⟩
    rw [hl] at hp
    cases hp
  · rw [he]
    refine ⟨fun hlt => ?_, fun _ hlast => ?_⟩
    · rw [afterWord_of_lt _ (hlt hl)]
      exact ⟨⟨rfl, rfl, rfl, rfl, rfl, rfl, rfl, rfl⟩, rfl, rfl, _, rfl, rfl, rfl, rfl⟩
    · rw [afterWord_of_eq _ hlast]
      have hsettle : s.SameRegs s.sleepSettle := ⟨rfl, rfl, rfl, rfl, rfl, rfl, rfl, rfl⟩
      exact ⟨hsettle.finish t, rfl, rfl, finish_replies _ t⟩

/-! ### Steps and write phases (R91, R141) -/

theorem core_run_succ {M : Host.Core} {s u : M.State} (n : Nat) (h : M.step s = .next u) :
    M.run (n + 1) s = M.run n u := by
  rw [Host.Core.run, h]

/-- A step at the start of a word is the word's six write phases, where the sequencer may run the words left. -/
theorem step_word {s : State} {t : Txn} (hs : s.seq = .busy t) (ha : t.wph = .assert) (hk : t.k < t.words.length)
    (hall : ∀ w ∈ t.words.drop t.k,
      emitsWord s.params.profile w = true ∧ ∃ i, decodeWord s.params.profile w = .ok i) :
    step s = .next (s.seqSteps 6) := by
  have hw := List.getElem?_eq_getElem hk
  rw [List.drop_eq_getElem_cons hk] at hall
  obtain ⟨he, i, hd⟩ := hall _ List.mem_cons_self
  rw [seqSteps_word hs ha hw]
  exact step_of_fetch_word (fetch_word hs hw ha hd he) (exec_decoded hd)

/-- Settles O51, by induction on the words left: a step is six phases (`step_word`), after which one word fewer is
left. -/
theorem wordStepsRefineWritePhases : Obligations.WordStepsRefineWritePhases := by
  intro n
  induction n with
  | zero =>
    intro s t hs ha hn hall
    exact core_run_succ (M := Sys2Proof.core) 0 (step_word hs ha (by omega) hall)
  | succ n ih =>
    intro s t hs ha hn hall
    have hk : t.k < t.words.length := by omega
    refine (core_run_succ (M := Sys2Proof.core) (n + 1) (step_word hs ha hk hall)).trans ?_
    rw [show 6 * (n + 1 + 1) = 6 + 6 * (n + 1) by ring, seqSteps_add,
      seqSteps_word hs ha (List.getElem?_eq_getElem hk), afterWord_of_lt _ (by omega)]
    exact ih _ _ rfl rfl (by simp only; omega) fun w hw => hall w (List.drop_subset_drop_left _ t.k.le_succ hw)

end Sys2Proof.Machine
end

section
/-! The statements of 30_encoding.md: bus words and their bytes, the text of a host call, the window index, and the words
the block does and does not emit. -/

namespace Sys2Proof.Machine

/-! ### Bus words (R100, R103, R106) -/

/-- Codes that fit the mode lines are the mode fields themselves (R34, R103). -/
theorem modeField_eq_code {p : Profile} (hfit : ∀ m ∈ tableCodes p.modeTable, m < 2 ^ p.modeWidth.bits) (c : Command) :
    p.modeField c = p.modeTable.code c := by
  unfold Profile.modeField
  cases hc : p.modeTable.code c with
  | none => rfl
  | some m => rw [Option.map_some, Nat.mod_eq_of_lt (hfit m (mem_tableCodes hc))]

/-- With a well-formed Mode Table a mode field stands for its command (R34, R106). -/
theorem commandOf_modeField {p : Profile} (hfit : ∀ m ∈ tableCodes p.modeTable, m < 2 ^ p.modeWidth.bits)
    (hdistinct : (tableCodes p.modeTable).Nodup) {c : Command} {m : Nat} (hm : p.modeField c = some m) :
    p.commandOf m = some c := by
  unfold Profile.commandOf
  cases hf : Command.all.find? fun c => p.modeField c == some m with
  | none => simpa [hm] using List.find?_eq_none.1 hf c (mem_commandAll c)
  | some d =>
    have hd : p.modeField d = some m := by simpa using List.find?_some hf
    rw [modeField_eq_code hfit] at hm hd
    rw [code_injective hdistinct hd hm]

theorem rowInstr_of_row {i : Instr} {r : Revision} {c : Command} {d : Byte} (h : i.row = some (r, c, d)) :
    r.rowInstr c d = some i := by
  cases i <;> cases h <;> rfl

/-- The word of an instruction: the data byte of its row in a block of the row's revision, under the command's mode
field. -/
theorem encodeWord_eq_some {p : Profile} {i : Instr} {w : BusWord} :
    encodeWord p i = some w ↔ ∃ c, i.row = some (p.revision, c, w.data) ∧ p.modeField c = some w.mode := by
  unfold encodeWord
  split
  next hrow => simp [hrow]
  next r c d hrow =>
    simp only [Option.ite_none_right_eq_some, busWord_eq_some, busData_toNat, hrow, Option.some.injEq, Prod.mk.injEq]
    constructor
    · rintro ⟨hr, hm, hd⟩
      exact ⟨c, ⟨hr, rfl, hd.symm⟩, hm⟩
    · rintro ⟨_, ⟨hr, rfl, hd⟩, hm⟩
      exact ⟨hr, hm, hd.symm⟩

/-- A word whose mode field stands for a command of a row is decoded to the row's instruction. -/
theorem decodeWord_of_row {p : Profile} {i : Instr} {c : Command} {w : BusWord}
    (hrow : i.row = some (p.revision, c, w.data)) (hlt : w.mode < 2 ^ p.modeWidth.bits)
    (hc : p.commandOf w.mode = some c) : decodeWord p w = .ok i := by
  simp [decodeWord, not_le.2 hlt, hc, rowInstr_of_row hrow]

theorem two_pow_modeWidth_le (w : ModeWidth) : 2 ^ w.bits ≤ 2 ^ 8 := by cases w <;> decide

/-- The two bytes of a word that decodes are read as its instruction, whatever follows (log 17). -/
theorem decode_bytes_append {p : Profile} {w : BusWord} {i : Instr} (h : decodeWord p w = .ok i) (rest : List Byte) :
    decode p (w.bytes ++ rest) = .ok (i, rest) := by
  obtain ⟨c, hm, -⟩ := decodeWord_eq_ok h
  have hmode : (BitVec.ofNat 8 w.mode).toNat = w.mode :=
    Nat.mod_eq_of_lt ((modeField_lt hm).trans_le (two_pow_modeWidth_le p.modeWidth))
  simp [BusWord.bytes, decode, hmode, h]

/-- Two bytes that decode are a word that decodes, and what follows stays. -/
theorem decode_eq_ok {p : Profile} {lo hi : Byte} {rest rest' : List Byte} {i : Instr}
    (h : decode p (lo :: hi :: rest) = .ok (i, rest')) :
    decodeWord p ⟨lo, hi.toNat⟩ = .ok i ∧ rest' = rest := by
  simp only [decode] at h
  split at h
  next j hj => cases h; exact ⟨hj, rfl⟩
  next => cases h

/-- Settles O1: the row's command has a mode field, which is its code; the word under it decodes to the row
(`decodeWord_of_row`). -/
theorem busWordsAreReadBack : Obligations.BusWordsAreReadBack := by
  intro p i r c d rest hfit hdistinct hrow hr hc
  obtain ⟨m, hm⟩ := Option.isSome_iff_exists.1 hc
  rw [← modeField_eq_code hfit] at hm
  subst hr
  have henc : encodeWord p i = some ⟨d, m⟩ := encodeWord_eq_some.2 ⟨c, hrow, hm⟩
  have hdec : decodeWord p ⟨d, m⟩ = .ok i :=
    decodeWord_of_row hrow (modeField_lt hm) (commandOf_modeField hfit hdistinct hm)
  exact ⟨_, by rw [encode, henc, Option.map_some], decode_bytes_append hdec rest⟩

/-- Settles O2: the word decoded is the one the encoder gives (`decodeWord_eq_ok`, `encodeWord_eq_some`). -/
theorem decodedBytesAreEncodedBack : Obligations.DecodedBytesAreEncodedBack := by
  intro p lo hi rest rest' i h
  obtain ⟨hdec, hrest⟩ := decode_eq_ok h
  obtain ⟨c, hm, hrow⟩ := decodeWord_eq_ok hdec
  have henc : encodeWord p i = some ⟨lo, hi.toNat⟩ := encodeWord_eq_some.2 ⟨c, hrow, hm⟩
  exact ⟨hrest, by simp [encode, henc, BusWord.bytes]⟩

/-- Settles O3: nine closed words, evaluated by the decoder. -/
theorem opcodeMapWordsDecode : Obligations.OpcodeMapWordsDecode := by
  unfold Obligations.OpcodeMapWordsDecode
  decide

/-! ### The text of a host call (R113; log 18) -/

/-- What stands between the parentheses of a host call. -/
def argOf : Instr → Arg
  | .setBucket n | .setWindow n | .setOffsetFine n | .setOffsetCoarse n | .setAvgPhaseAdvance n => .num n
  | .setLaserTrig t | .setRingRfSource t => .str t
  | _ => .absent

theorem dropWhile_of_noBlank {t : Text} (h : ∀ c ∈ t, isBlankChar c = false) : t.dropWhile isBlankChar = t := by
  cases t with
  | nil => rfl
  | cons c t => exact List.dropWhile_cons_of_neg (by simp [h c List.mem_cons_self])

/-- A text without blanks is its own trimmed text. -/
theorem trimText_of_noBlank {t : Text} (h : ∀ c ∈ t, isBlankChar c = false) : trimText t = t := by
  rw [trimText, dropWhile_of_noBlank h, dropWhile_of_noBlank (by simpa using h), List.reverse_reverse]

/-- A number's text has neither a blank nor a quote in it, so it is read as a number. -/
theorem readArg_writeNum {n : Num} {t : Text} (h : writeNum n = some t) : readArg t = .ok (.num n) := by
  obtain ⟨hread, hne, hchars⟩ := readNum_writeNum h
  have htrim : trimText t = t := trimText_of_noBlank fun c hc => (hchars c hc).1
  unfold readArg
  rw [htrim]
  split
  next => exact absurd rfl hne
  next body => exact absurd rfl (hchars '"' List.mem_cons_self).2
  next => simp [hread]

theorem readArg_writeStr {t u : Text} (h : writeStr t = some u) : readArg u = .ok (.str t) := by
  simp only [writeStr, Option.ite_none_left_eq_some, not_or, Option.some.injEq] at h
  obtain ⟨⟨hq, -⟩, rfl⟩ := h
  have htrim : trimText ('"' :: t ++ ['"']) = '"' :: t ++ ['"'] := by
    simp [trimText, show isBlankChar '"' = false from rfl]
  unfold readArg
  rw [htrim]
  simp [hq]

theorem readArg_writeArg {i : Instr} {t : Text} (h : i.writeArg = some t) : readArg t = .ok (argOf i) := by
  cases i
  case setBucket | setWindow | setOffsetFine | setOffsetCoarse | setAvgPhaseAdvance => exact readArg_writeNum h
  case setLaserTrig | setRingRfSource => exact readArg_writeStr h
  case getBucket | getWindow | getLaserTrig | getRingRfSource | getOffsetFine | getOffsetCoarse => cases h; rfl
  all_goals cases h

/-- A name of a host operation has neither a parenthesis nor a blank in it. -/
theorem opName_chars {i : Instr} {name : Text} (h : i.opName = some name) :
    ∀ c ∈ name, (c != '(') = true ∧ isBlankChar c = false := by
  have hall : (name.all fun c => c != '(' && !isBlankChar c) = true := by cases i <;> cases h <;> decide
  simpa using hall

theorem callOf_opName {i : Instr} {name : Text} (h : i.opName = some name) : callOf name (argOf i) = .ok i := by
  cases i <;> cases h <;> rfl

/-- A line `name(argument)` is the call of that name with what is read between the parentheses. -/
theorem readCall_eq_callOf {name arg : Text} {a : Arg} (hname : ∀ c ∈ name, (c != '(') = true)
    (ha : readArg arg = .ok a) : readCall (name ++ '(' :: arg ++ [')']) = callOf (trimText name) a := by
  have hrest : (name ++ '(' :: arg ++ [')']).dropWhile (· != '(') = '(' :: (arg ++ [')']) := by
    rw [List.append_assoc, List.dropWhile_append_of_pos hname]; rfl
  have hfirst : (name ++ '(' :: arg ++ [')']).takeWhile (· != '(') = name := by
    rw [List.append_assoc, List.takeWhile_append_of_pos hname]; simp
  unfold readCall
  rw [hrest, hfirst]
  simp [ha]

theorem readCall_writeCall {i : Instr} {t : Text} (h : writeCall i = some t) : readCall t = .ok i := by
  unfold writeCall at h
  split at h <;> [skip; cases h]
  next name arg hname harg =>
    cases h
    have hchars := opName_chars hname
    rw [readCall_eq_callOf (fun c hc => (hchars c hc).1) (readArg_writeArg harg),
      trimText_of_noBlank fun c hc => (hchars c hc).2, callOf_opName hname]

/-- A decimal of at most 1100 places is written. -/
theorem writeNum_decimal_isSome (z : Int) {k : Nat} (hk : k ≤ 1100) :
    (writeNum (.fin (z / 10 ^ k))).isSome = true := by
  have hden : ((z / 10 ^ k : Rat).den : Int) ∣ ((10 ^ k : Nat) : Int) := by
    have h := Rat.den_dvd z (10 ^ k)
    rw [Rat.divInt_eq_div] at h
    exact_mod_cast h
  have hplaces := decimalPlaces_isSome (fuel := 1101) k.zero_le (by omega)
    (Nat.mod_eq_zero_of_dvd (Int.natCast_dvd_natCast.1 hden))
  obtain ⟨j, hj⟩ := Option.isSome_iff_exists.1 hplaces
  rw [writeNum, hj]
  cases j <;> rfl

/-- Settles O5: the name and what stands between the parentheses are read back as written (`readCall_writeCall`); a
decimal's denominator divides a power of ten (`writeNum_decimal_isSome`). -/
theorem hostCallTextIsReadBack : Obligations.HostCallTextIsReadBack := by
  refine ⟨fun i t => readCall_writeCall, fun f hf z k hk => ?_⟩
  obtain ⟨t, ht⟩ := Option.isSome_iff_exists.1 (writeNum_decimal_isSome z hk)
  simp only [List.mem_cons, List.not_mem_nil, or_false] at hf
  rcases hf with rfl | rfl | rfl | rfl | rfl <;> simp [writeCall, Instr.opName, Instr.writeArg, ht]

/-! ### The quantizer's index (R73, R108, R161) -/

/-- An index and its value in a table, at the least distance from a request, the lowest such index (R161). -/
structure IsFirstNearest (rom : List Nat) (x : Rat) (best : Nat × Nat) : Prop where
  value : rom[best.1]? = some best.2
  nearest : ∀ (j v : Nat), rom[j]? = some v → scaledDist best.2 x ≤ scaledDist v x
  first : ∀ (j v : Nat), rom[j]? = some v → scaledDist v x = scaledDist best.2 x → best.1 ≤ j

theorem getElem?_concat_eq_some {α : Type} {l : List α} {a b : α} {j : Nat} (h : (l ++ [a])[j]? = some b) :
    l[j]? = some b ∨ j = l.length ∧ b = a := by
  rcases Nat.lt_or_ge j l.length with hj | hj
  · exact .inl (by rwa [List.getElem?_append_left hj] at h)
  · rw [List.getElem?_append_right hj, List.getElem?_singleton] at h
    simp only [Option.ite_none_right_eq_some, Option.some.injEq] at h
    exact .inr ⟨by omega, h.2.symm⟩

/-- One more entry replaces the best only where it is strictly nearer. -/
theorem IsFirstNearest.append {rom : List Nat} {x : Rat} {best : Nat × Nat} (h : IsFirstNearest rom x best) (v : Nat) :
    IsFirstNearest (rom ++ [v]) x (if scaledDist v x < scaledDist best.2 x then (rom.length, v) else best) := by
  have hbest : best.1 < rom.length := (List.getElem?_eq_some_iff.1 h.value).1
  split
  next hlt =>
    refine ⟨by simp, fun j w hj => ?_, fun j w hj hw => ?_⟩
    · rcases getElem?_concat_eq_some hj with hj | ⟨-, rfl⟩
      · exact hlt.le.trans (h.nearest j w hj)
      · exact le_rfl
    · rcases getElem?_concat_eq_some hj with hj | ⟨rfl, -⟩
      · exact absurd (hlt.trans_le (h.nearest j w hj)) hw.not_gt
      · exact le_rfl
  next hle =>
    refine ⟨by rw [List.getElem?_append_left hbest, h.value], fun j w hj => ?_, fun j w hj hw => ?_⟩
    · rcases getElem?_concat_eq_some hj with hj | ⟨-, rfl⟩
      · exact h.nearest j w hj
      · exact not_lt.1 hle
    · rcases getElem?_concat_eq_some hj with hj | ⟨rfl, -⟩
      · exact h.first j w hj hw
      · exact hbest.le

/-- The scan goes on from the entries scanned so far (R161). -/
theorem scanTable_isFirstNearest {rom : List Nat} {x : Rat} {best : Nat × Nat} (vs : List Nat)
    (h : IsFirstNearest rom x best) : IsFirstNearest (rom ++ vs) x (scanTable x vs rom.length best) := by
  induction vs generalizing rom best with
  | nil => simpa [scanTable] using h
  | cons v vs ih =>
    have hnext := ih (h.append v)
    rw [List.append_assoc, List.singleton_append, List.length_append, List.length_singleton] at hnext
    rw [scanTable]
    split
    next hlt => rwa [if_pos hlt] at hnext
    next hle => rwa [if_neg hle] at hnext

theorem quantize_isFirstNearest {rom : List Nat} (h : rom ≠ []) (x : Rat) : IsFirstNearest rom x (quantize rom x) := by
  cases rom with
  | nil => exact absurd rfl h
  | cons v vs =>
    have hone : IsFirstNearest [v] x (0, v) := by
      refine ⟨rfl, fun j w hj => ?_, fun j w _ _ => j.zero_le⟩
      obtain rfl : w = v := by simpa using (List.mem_of_getElem? hj)
      exact le_rfl
    exact scanTable_isFirstNearest vs hone

/-- The index is not one at which the table repeats an earlier entry. -/
theorem IsFirstNearest.no_earlier {rom : List Nat} {x : Rat} {best : Nat × Nat} (h : IsFirstNearest rom x best)
    {j : Nat} (hj : j < best.1) : rom[j]? ≠ rom[best.1]? := by
  intro he
  rw [h.value] at he
  exact absurd (h.first j _ he rfl) (not_le.2 hj)

theorem delayRom_getElem? {i : Nat} (hi : i < 256) : DelayRom.table[i]? = some (tapSum delayTaps i) := by
  simp [DelayRom.table, hi]

/-- The 32 higher indices, by comparing the 256 tap sums with one another (R73). -/
theorem mem_higherDuplicates_iff_tapSum : ∀ i < 256,
    i ∈ higherDuplicates ↔ ∃ j < i, tapSum delayTaps j = tapSum delayTaps i := by
  decide +kernel

theorem mem_higherDuplicates {i : Nat} (hi : i < 256) :
    i ∈ higherDuplicates ↔ ∃ j < i, DelayRom.table[j]? = DelayRom.table[i]? := by
  rw [mem_higherDuplicates_iff_tapSum i hi, delayRom_getElem? hi]
  refine exists_congr fun j => and_congr_right fun hj => ?_
  rw [delayRom_getElem? (hj.trans hi), Option.some.injEq]

theorem quantize_index_lt (x : Rat) : (quantize DelayRom.table x).1 < 256 := by
  have hlt := (List.getElem?_eq_some_iff.1 (quantize_isFirstNearest delayRom_ne_nil x).value).1
  simpa [DelayRom.table] using hlt

/-- The tie-break takes the lower index of a pair with one value (R108). -/
theorem quantize_index_notMem (x : Rat) : (quantize DelayRom.table x).1 ∉ higherDuplicates := by
  rw [mem_higherDuplicates (quantize_index_lt x)]
  rintro ⟨j, hj, he⟩
  exact (quantize_isFirstNearest delayRom_ne_nil x).no_earlier hj he

/-- Settles O9: the tie-break takes the lowest index of a value (`quantize_index_notMem`), and the list is where the
tap sums repeat (`mem_higherDuplicates`). -/
theorem windowIndexIsNeverTheHigherOfAPair : Obligations.WindowIndexIsNeverTheHigherOfAPair :=
  ⟨fun x => ⟨quantize_index_lt x, quantize_index_notMem x⟩, rfl, fun _ => mem_higherDuplicates⟩

/-! ### The words a served call emits (R102, R107, R108) -/

/-- A step word is emittable where its magnitude fits the byte and the bounds: its sign rules out an increment of 0
(R203). -/
theorem emittable_stepWord {p : Profile} {delta : Int} (hbyte : delta.natAbs ≤ 255)
    (hbound : (delta.natAbs : Int) ≤ p.fineStepBound)
    (hcounts : p.fineVariant = .quadrature → (delta.natAbs : Int) < p.quadCounts) :
    emittable p (stepWord delta).2 (busData (stepWord delta).1) = true := by
  have hdata : (busData delta.natAbs).toNat = delta.natAbs := by rw [busData_of_le hbyte, byteOf_toNat hbyte]
  rcases stepWord_cases delta with ⟨hpos, hw⟩ | ⟨-, hw⟩
  · have hne : busData delta.natAbs ≠ 0 := by
      intro h0
      rw [h0] at hdata
      exact Int.natAbs_ne_zero.2 hpos.ne' hdata.symm
    rw [hw]
    simp only [emittable, hdata, decide_eq_true_eq]
    exact ⟨hne, hbound, hcounts⟩
  · rw [hw]
    simp only [emittable, hdata, decide_eq_true_eq]
    exact ⟨hbound, hcounts⟩

/-- A bit is emittable under `pause_trig` and the selectors. -/
theorem emittable_bit (p : Profile) (b : Bool) {c : Command}
    (hc : c ∈ [Command.pauseTrig, .laserTrigSource, .ringRfSource]) : emittable p c (busData b.toNat) = true := by
  simp only [List.mem_cons, List.not_mem_nil, or_false] at hc
  rcases hc with rfl | rfl | rfl <;> cases b <;> rfl

theorem emittable_resumeWords {p : Profile} {e : Nat × Command} (he : e ∈ resumeWords p) :
    emittable p e.2 (busData e.1) = true := by
  unfold resumeWords at he
  split at he
  next => obtain rfl := List.mem_singleton.1 he; exact emittable_bit p false (by decide)
  next => cases he

/-- The quantizer's index is emittable, by the tie-break (R108, R161). -/
theorem emittable_window (p : Profile) (x : Rat) :
    emittable p .window (busData (quantize DelayRom.table x).1) = true := by
  have hle := Nat.le_of_lt_succ (quantize_index_lt x)
  simp only [emittable, busData_of_le hle, byteOf_toNat hle, decide_eq_true_eq]
  exact quantize_index_notMem x

/-- A quadrant below a bound that fits the byte is emittable. -/
theorem emittable_quadSel {p : Profile} (hb : p.quadBound ≤ 256) {q : Int} (h0 : 0 ≤ q) (hq : q < p.quadBound) :
    emittable p .quadSel (busData q.toNat) = true := by
  have hle : q.toNat ≤ 255 := by omega
  simp only [emittable, busData_of_le hle, byteOf_toNat hle, decide_eq_true_eq]
  omega

/-- The step of a target that passes the DIRECT checks is emittable. -/
theorem emittable_directStep {p : Profile} {t count : Int} (hv : p.fineVariant = .direct) (hfit : ValuesFit p)
    (he : directError p t count = none) :
    emittable p (stepWord (directDelta t count)).2 (busData (stepWord (directDelta t count)).1) = true := by
  obtain ⟨-, hbound⟩ := directError_eq_none.1 he
  have hbyte : p.fineStepBound ≤ 255 := by simpa [ValuesFit, hv] using hfit
  exact emittable_stepWord (by omega) hbound fun hq => by simp [hv] at hq

/-- A planned value is emittable under its command, where the profile's values fit a byte (R102, R108). -/
theorem hostPlan_emittable {i : Instr} {s : State} {words : List (Nat × Command)} {commit : List RegWrite}
    {result : Reply} (hrom : s.RomBuilt) (hfit : ValuesFit s.params.profile)
    (hp : hostPlan i s = .perform words commit result) :
    ∀ e ∈ words, emittable s.params.profile e.2 (busData e.1) = true := by
  rcases hostPlan_perform hp with ⟨b, -, -, -, rfl, -⟩ | ⟨c, -, -, -, -, rfl, -⟩ | ⟨x, -, -, rfl, -⟩ |
    ⟨t, -, -, rfl, -⟩ | ⟨t, -, -, rfl, -⟩ | ⟨t, -, -, -, ⟨hv, he, rfl⟩ | ⟨hv, he, rfl⟩⟩ | ⟨x, -, rfl, -⟩ |
    ⟨rfl, -⟩
  · simp [emittable]
  · simp [emittable]
  · rw [hrom]
    simpa using emittable_window s.params.profile x
  · cases laserOf t
    · simpa [laserBitOf] using emittable_bit s.params.profile s.params.laserBit.mrf (by decide)
    · simpa [laserBitOf] using emittable_bit s.params.profile s.params.laserBit.coincidence (by decide)
  · cases ringOf t
    · simpa [ringBitOf] using emittable_bit s.params.profile s.params.ringBit.revClock (by decide)
    · simpa [ringBitOf] using emittable_bit s.params.profile s.params.ringBit.mhz100 (by decide)
  · simp only [List.cons_append, List.nil_append, List.forall_mem_cons]
    exact ⟨emittable_bit _ true (by decide), emittable_directStep hv hfit he, fun e => emittable_resumeWords⟩
  · obtain ⟨h0, hquad, hbound⟩ := quadError_eq_none.1 he
    obtain ⟨hpos, hstep, hqb⟩ : 0 < s.params.profile.quadCounts ∧
        (s.params.profile.quadCounts ≤ 256 ∨ s.params.profile.fineStepBound ≤ 255) ∧
        s.params.profile.quadBound ≤ 256 := by simpa [ValuesFit, hv] using hfit
    have hcounts := quadDelta_lt hpos t s.phaseCnt
    simp only [List.cons_append, List.nil_append, List.forall_mem_cons]
    exact ⟨emittable_bit _ true (by decide), emittable_stepWord (by omega) hbound fun _ => hcounts,
      emittable_quadSel hqb (quadrantOf_nonneg _ h0) hquad, fun e => emittable_resumeWords⟩
  · simp
  · simp

/-- Settles O39: a call that raises emits nothing; the words of any other encode planned values, which are emittable
(`hostPlan_emittable`), under commands of the table. -/
theorem servedCallEmitsOnlyEmittableWords : Obligations.ServedCallEmitsOnlyEmittableWords := by
  intro s u i hr hc hrom hfit hi hx
  rcases exec_cases hx with ⟨_, _, _, _, hrow, -, -⟩ | ⟨-, hn, -⟩ | ⟨-, -, cause, a, -, rfl⟩ |
    ⟨-, -, words, commit, result, ws, hp, he, rfl⟩
  · simp [Instr.isHostOp, hrow] at hi
  · exact absurd hr hn
  · exact ⟨[], by simp [State.replied], by simp⟩
  · refine ⟨ws, applyWrites_trace _ commit, fun w hw => ?_⟩
    obtain ⟨e, hmem, hm, hd⟩ := encodeWords_mem he hw
    exact ⟨e.2, hm, configured_commandOf hc hm, hd ▸ hostPlan_emittable hrom hfit hp e hmem⟩

/-! ### The words the sequencer stops at (I5, R107, R108) -/

theorem step_of_fetch_stop {s : State} {f : Fault} (h : s.fetch = .stop f) : step s = .fault f := by
  simp only [step, h]

/-- At a word whose mode code is absent, the sequencer stops (R107). -/
theorem fetch_modeCodeAbsent {s : State} {t : Txn} {w : BusWord} (hs : s.seq = .busy t) (hw : t.words[t.k]? = some w)
    (ha : t.wph = .assert) (hc : s.params.profile.commandOf w.mode = none) : s.fetch = .stop .modeCodeAbsent := by
  simp only [fetch_busy hs, State.fetchWord, hw, ha, hc, if_true]

/-- At a word whose data is not emittable under its command, the sequencer stops (R108). -/
theorem fetch_dataNeverEmitted {s : State} {t : Txn} {w : BusWord} {c : Command} (hs : s.seq = .busy t)
    (hw : t.words[t.k]? = some w) (ha : t.wph = .assert) (hc : s.params.profile.commandOf w.mode = some c)
    (he : emittable s.params.profile c w.data = false) : s.fetch = .stop .dataNeverEmitted := by
  simp [fetch_busy hs, State.fetchWord, hw, ha, hc, he]

/-- Past a bit, nothing is emittable under `pause_trig` and the selectors (R108). -/
theorem emittable_bit_eq_false {p : Profile} {c : Command} {d : Byte}
    (hc : c ∈ [Command.pauseTrig, .laserTrigSource, .ringRfSource]) (hd : 1 < d.toNat) : emittable p c d = false := by
  simp only [List.mem_cons, List.not_mem_nil, or_false] at hc
  rcases hc with rfl | rfl | rfl <;> exact decide_eq_false (not_le.2 hd)

/-- A step that is emittable is within its bounds (R102, R108). -/
theorem emittable_step {p : Profile} {c : Command} {d : Byte} (hc : c ∈ [Command.incPhase, .decPhase])
    (he : emittable p c d = true) :
    (d.toNat : Int) ≤ p.fineStepBound ∧ (p.fineVariant = .quadrature → (d.toNat : Int) < p.quadCounts) := by
  simp only [List.mem_cons, List.not_mem_nil, or_false] at hc
  rcases hc with rfl | rfl
  · exact (of_decide_eq_true he).2
  · exact of_decide_eq_true he

/-- Settles O47: none of the listed values is emittable under its command, and there the fetch stops
(`fetch_dataNeverEmitted`). -/
theorem wordsListedAsNeverEmittedFault : Obligations.WordsListedAsNeverEmittedFault := by
  intro s t w hs hw ha
  refine ⟨fun hc => step_of_fetch_stop (fetch_modeCodeAbsent hs hw ha hc), fun c hc hlisted => ?_⟩
  refine step_of_fetch_stop (fetch_dataNeverEmitted hs hw ha hc ?_)
  rcases hlisted with ⟨hb, hd⟩ | ⟨rfl, hd⟩ | ⟨rfl, hd⟩ | ⟨rfl, hd⟩ | ⟨hstep, hv, hd⟩ | ⟨hstep, hd⟩
  · exact emittable_bit_eq_false hb hd
  · exact decide_eq_false (not_lt.2 hd)
  · exact decide_eq_false (not_not_intro hd)
  · exact decide_eq_false fun h => h.1 hd
  · exact Bool.eq_false_iff.2 fun h => absurd ((emittable_step hstep h).2 hv) (not_lt.2 hd)
  · exact Bool.eq_false_iff.2 fun h => absurd (emittable_step hstep h).1 (not_le.2 hd)

end Sys2Proof.Machine
end

section
/-! The statements of 40_write_protocol.md: what a bus command drives and leaves, the one event of a write phase, and the
lines and the strobe while a word is written. -/

namespace Sys2Proof.Machine

/-! ### Bus commands (R105, R106, R140) -/

/-- A bus command of the block's revision whose command the Mode Table has completes and drives its word. -/
theorem exec_busCommand_drives {i : Instr} {r : Revision} {c : Command} {d : Byte} {s : State} {m : Nat}
    (hrow : i.row = some (r, c, d)) (hr : s.params.profile.revision = r) (hm : s.params.profile.modeField c = some m) :
    exec i s = .next (s.driven [⟨d, m⟩]) := by
  rw [exec_busCommand hrow, busCommand_drives d hr hm]

/-- Settles O12: each of P1's rows drives its word. -/
theorem p1BusCommandsDriveTheirWords : Obligations.P1BusCommandsDriveTheirWords := fun _ _ _ hr =>
  ⟨exec_busCommand_drives rfl hr, exec_busCommand_drives rfl hr⟩

/-- Settles O13: each of P2's rows drives its word. -/
theorem p2BusCommandsDriveTheirWords : Obligations.P2BusCommandsDriveTheirWords := by
  intro s d m hr
  refine ⟨?_, ?_, ?_, ?_, ?_, ?_, ?_⟩ <;> exact exec_busCommand_drives rfl hr

/-- Settles O14: each of P3's rows drives its word. -/
theorem p3BusCommandsDriveTheirWords : Obligations.P3BusCommandsDriveTheirWords := by
  intro s d m hr
  refine ⟨?_, ?_, ?_, ?_, ?_, ?_, ?_⟩ <;> exact exec_busCommand_drives rfl hr

/-- Driving a word of a command of the table latches that word (R147). -/
theorem latched_driven_singleton {s : State} (hc : s.Configured) {c : Command} {m : Nat} (d : Byte)
    (hm : s.params.profile.modeField c = some m) : (s.driven [⟨d, m⟩]).latched = s.latched ++ [some ⟨d, m⟩] := by
  refine latched_driven hc fun w hw => ?_
  obtain rfl := List.mem_singleton.1 hw
  exact modeField_lt hm

/-- Settles O17: what a bus command leaves is its word driven (`exec_busCommand_cases`), which touches the trace and the
lines alone. -/
theorem busCommandFrame : Obligations.BusCommandFrame := by
  intro s u i r c d hrow hx
  obtain ⟨-, m, hm, rfl⟩ := exec_busCommand_cases hrow hx
  exact ⟨sameRegs_driven s _, sameFixed_driven s _, rfl, rfl, rfl, rfl, rfl, rfl, m, hm, rfl,
    fun hc => latched_driven_singleton hc d hm⟩

/-! ### One write phase (R141, R145) -/

@[simp] theorem afterWord_params (s : State) (t : Txn) : (s.afterWord t).params = s.params := by
  unfold State.afterWord
  split
  next => rfl
  next => exact finish_params s t

@[simp] theorem afterWord_trace (s : State) (t : Txn) : (s.afterWord t).trace = s.trace := by
  unfold State.afterWord
  split
  next => rfl
  next => exact finish_trace s t

@[simp] theorem afterWord_pinLevel (s : State) (t : Txn) : (s.afterWord t).pinLevel = s.pinLevel := by
  unfold State.afterWord
  split
  next => rfl
  next => exact finish_pinLevel s t

/-- At one of its words, a step of the sequencer leaves the trace its write phase leaves. -/
theorem seqStep_trace {s : State} {t : Txn} {w : BusWord} (hs : s.seq = .busy t) (hw : t.words[t.k]? = some w) :
    s.seqStep.trace = (s.writePhase w t.wph).trace := by
  cases hp : t.wph.next with
  | some ph => rw [seqStep_phase hs hw hp]
  | none => rw [seqStep_last hs hw hp, afterWord_trace]

/-- At one of its words, a step of the sequencer leaves the levels its write phase leaves. -/
theorem seqStep_pinLevel {s : State} {t : Txn} {w : BusWord} (hs : s.seq = .busy t) (hw : t.words[t.k]? = some w) :
    s.seqStep.pinLevel = (s.writePhase w t.wph).pinLevel := by
  cases hp : t.wph.next with
  | some ph => rw [seqStep_phase hs hw hp]
  | none => rw [seqStep_last hs hw hp, afterWord_pinLevel]

/-- Settles O48: the step is the write phase the sequencer is at (`seqStep_trace`), whose event is appended. -/
theorem sequencerStepAppendsOneEvent : Obligations.SequencerStepAppendsOneEvent := by
  intro s t w hs hw
  rw [seqStep_trace hs hw]
  cases t.wph <;> rfl

/-- The lines a write phase drives (R141). -/
def phasePins (q : Params) : WritePhase → List Nat
  | .assert => q.pins.wordPins
  | .strobeHi | .strobeLo => [q.pins.strobe]
  | .settle | .holdHi | .holdLo => []

/-- A write phase leaves every line it does not drive. -/
theorem read_writePhase_other (s : State) (w : BusWord) {ph : WritePhase} {p : Nat} (hp : p ∉ phasePins s.params ph) :
    (s.writePhase w ph).pinLevel.read p = s.pinLevel.read p := by
  cases ph with
  | assert => exact memory_read_writeAll_other _ _ fun h => hp (mem_fst_zip h)
  | strobeHi => exact memory_read_write_other _ _ (List.ne_of_not_mem_cons hp)
  | strobeLo => exact memory_read_write_other _ _ (List.ne_of_not_mem_cons hp)
  | settle => rfl
  | holdHi => rfl
  | holdLo => rfl

/-- With sound parameters only `ASSERT` drives the data and mode lines. -/
theorem wordPin_not_mem_phasePins {q : Params} (h : configDefect q = none) {p : Nat} (hp : p ∈ q.pins.wordPins)
    {ph : WritePhase} (ha : ph ≠ .assert) : p ∉ phasePins q ph := by
  have hne : p ≠ q.pins.strobe := fun he => (configured_wordPins h).2.2 (he ▸ hp)
  cases ph with
  | assert => exact absurd rfl ha
  | strobeHi => exact mt List.mem_singleton.1 hne
  | strobeLo => exact mt List.mem_singleton.1 hne
  | settle => exact List.not_mem_nil
  | holdHi => exact List.not_mem_nil
  | holdLo => exact List.not_mem_nil

/-- Settles O50: past its last word the sequencer commits; at a word, its phase does not drive the line. -/
theorem linesAreStableWithinAWord : Obligations.LinesAreStableWithinAWord := by
  intro s t p hc hs ha hp
  cases hw : t.words[t.k]? with
  | none => rw [seqStep_done hs hw, finish_pinLevel]
  | some w => rw [seqStep_pinLevel hs hw, read_writePhase_other s w (wordPin_not_mem_phasePins hc hp ha)]

/-! ### The strobe (R144) -/

/-- The strobe line is at 1. -/
def State.StrobeHigh (s : State) : Prop := s.pinLevel.read s.params.pins.strobe = some true

/-- The strobe's level is read off the levels and the pin map. -/
theorem strobeHigh_congr {s u : State} (hp : u.params = s.params) (hl : u.pinLevel = s.pinLevel) :
    u.StrobeHigh ↔ s.StrobeHigh := by
  rw [State.StrobeHigh, State.StrobeHigh, hp, hl]

theorem strobeOk_idle {s : State} (hs : s.seq = .idle) : s.StrobeOk ↔ ¬ s.StrobeHigh := by
  rw [State.StrobeOk, hs]
  rfl

theorem strobeOk_busy {s : State} {t : Txn} (hs : s.seq = .busy t) :
    s.StrobeOk ↔ (s.StrobeHigh ↔ t.wph = .holdHi ∨ t.wph = .strobeLo) := by
  simp only [State.StrobeOk, hs, State.StrobeHigh]
  split
  next h => simp only [h, iff_true]
  next h => simp only [h, iff_false]

/-- A phase that stands between `STROBE_HI` and `STROBE_LO` comes after `STROBE_HI` or `HOLD_HI`. -/
theorem between_strobes_iff_of_next {ph ph' : WritePhase} (h : ph.next = some ph') :
    ph' = .holdHi ∨ ph' = .strobeLo ↔ ph = .strobeHi ∨ ph = .holdHi := by
  cases ph <;> cases h <;> decide

/-- Where the strobe is at 1 exactly before `HOLD_HI` and `STROBE_LO`, a write phase leaves it at 1 exactly after
`STROBE_HI` and `HOLD_HI`. -/
theorem strobeHigh_writePhase {s : State} (hc : s.Configured) (w : BusWord) {ph : WritePhase}
    (h : s.StrobeHigh ↔ ph = .holdHi ∨ ph = .strobeLo) :
    (s.writePhase w ph).StrobeHigh ↔ ph = .strobeHi ∨ ph = .holdHi := by
  have stays (hp : s.params.pins.strobe ∉ phasePins s.params ph) :
      (s.writePhase w ph).StrobeHigh ↔ ph = .holdHi ∨ ph = .strobeLo := by
    rw [← h, State.StrobeHigh, writePhase_params, read_writePhase_other s w hp, State.StrobeHigh]
  cases ph with
  | assert => simpa using stays (configured_wordPins hc).2.2
  | settle => simpa using stays List.not_mem_nil
  | strobeHi => exact iff_of_true (memory_read_write_same _ _ true) (.inl rfl)
  | holdHi => simpa using stays List.not_mem_nil
  | strobeLo =>
    have hread : (s.writePhase w .strobeLo).pinLevel.read s.params.pins.strobe = some false :=
      memory_read_write_same _ _ false
    simp [State.StrobeHigh, hread]
  | holdLo => simpa using stays List.not_mem_nil

/-- Driving words never leaves the strobe raised. -/
theorem not_strobeHigh_driven {s : State} (h : ¬ s.StrobeHigh) (ws : List BusWord) : ¬ (s.driven ws).StrobeHigh := by
  unfold State.StrobeHigh at h ⊢
  rw [driven_params, driven_pinLevel]
  generalize s.pinLevel = m at h
  induction ws generalizing m with
  | nil => exact h
  | cons w ws ih => exact ih _ (by simp [linesAfterWord, memory_read_write_same])

/-- An instruction never leaves the strobe raised. -/
theorem exec_not_strobeHigh {i : Instr} {s u : State} (hx : exec i s = .next u) (h : ¬ s.StrobeHigh) :
    ¬ u.StrobeHigh := by
  rcases exec_cases hx with ⟨_, _, _, _, -, -, rfl⟩ | ⟨-, -, rfl⟩ | ⟨-, -, _, _, -, rfl⟩ |
    ⟨-, -, _, commit, _, ws, -, -, rfl⟩
  · exact not_strobeHigh_driven h _
  · exact h
  · exact h
  · exact mt (strobeHigh_congr (applyWrites_params _ commit) (applyWrites_pinLevel _ commit)).1
      (not_strobeHigh_driven h ws)

/-- An instruction ends with the sequencer where it was: a served call runs its transaction to the end. -/
theorem exec_seq {i : Instr} {s u : State} (hx : exec i s = .next u) : u.seq = s.seq := by
  rcases exec_cases hx with ⟨_, _, _, _, -, -, rfl⟩ | ⟨-, -, rfl⟩ | ⟨-, -, _, _, -, rfl⟩ |
    ⟨-, -, _, commit, _, _, -, -, rfl⟩
  · rfl
  · rfl
  · rfl
  · exact applyWrites_seq _ commit

/-- After a word the strobe is to be low, whether the next word or the commit comes. -/
theorem strobeOk_afterWord {s : State} (h : ¬ s.StrobeHigh) (t : Txn) : (s.afterWord t).StrobeOk := by
  have hlow : ¬ (s.afterWord t).StrobeHigh :=
    mt (strobeHigh_congr (afterWord_params s t) (afterWord_pinLevel s t)).1 h
  by_cases hk : t.k + 1 < t.words.length
  · have hseq : (s.afterWord t).seq = .busy { t with k := t.k + 1, wph := .assert } := by rw [afterWord_of_lt s hk]
    exact (strobeOk_busy hseq).2 (by simpa using hlow)
  · have hseq : (s.afterWord t).seq = .idle := by rw [State.afterWord, if_neg hk]; rfl
    exact (strobeOk_idle hseq).2 hlow

/-- At one of its words, a step of the sequencer moves the strobe with the phase. -/
theorem strobeOk_seqStep {s : State} {t : Txn} (hc : s.Configured) (hs : s.seq = .busy t)
    (hk : t.k < t.words.length) (h : s.StrobeOk) : s.seqStep.StrobeOk := by
  have hnow : s.StrobeHigh ↔ t.wph = .holdHi ∨ t.wph = .strobeLo := (strobeOk_busy hs).1 h
  rcases seqStep_cases hs with ⟨hw, -⟩ | ⟨w, -, ⟨ph, hp, he⟩ | ⟨hl, he⟩⟩
  · exact absurd hk (not_lt.2 (List.getElem?_eq_none_iff.1 hw))
  · rw [he]
    exact (strobeOk_busy rfl).2
      ((strobeHigh_writePhase hc w hnow).trans (between_strobes_iff_of_next hp).symm)
  · have hlow : ¬ s.StrobeHigh := by simp [hnow, hl]
    rw [he]
    exact strobeOk_afterWord (s := s.sleepSettle) hlow t

/-- Settles O54: a served call and a whole word end with the strobe low; a single write phase moves the strobe with the
sequencer (`strobeOk_seqStep`). -/
theorem stepKeepsTheStrobeLowBetweenWords : Obligations.StepKeepsTheStrobeLowBetweenWords := by
  intro s u hc hl h hu
  rcases step_cases hu with ⟨-, -, rfl⟩ | ⟨hr, c, v, ht, -, hx⟩ | ⟨t, w, hs, -, ha, rfl⟩ | ⟨t, hs, rfl⟩
  · exact h
  · have hlow : ¬ v.StrobeHigh := by
      obtain ⟨_, _, _, -, rfl⟩ := takeCall_eq_some ht
      exact (strobeOk_idle hr.2).1 h
    have hidle : u.seq = .idle := (exec_seq hx).trans (ready_takeCall hr ht).2
    exact (strobeOk_idle hidle).2 (exec_not_strobeHigh hx hlow)
  · have hlow : ¬ s.StrobeHigh := by simpa [ha] using (strobeOk_busy hs).1 h
    exact strobeOk_afterWord (not_strobeHigh_driven hlow [w]) t
  · exact strobeOk_seqStep hc hs ((lockOk_busy hs).1 hl).2 h

end Sys2Proof.Machine
end

section
/-! The statements of 41_window_quantizer.md: the distances the quantizer compares, and what set_window does. -/

namespace Sys2Proof.Machine

/-! ### The quantizer (R18, R161) -/

/-- The distance compared is the exact one, scaled by the request's denominator. -/
theorem scaledDist_cast (v : Nat) (x : Rat) : (scaledDist v x : Rat) = |(v : Rat) - x| * x.den := by
  have hden : |(x.den : Rat)| = x.den := abs_of_nonneg x.den.cast_nonneg
  rw [scaledDist, Nat.cast_natAbs, ← hden, ← abs_mul, sub_mul, Rat.mul_den_eq_num]
  push_cast
  rfl

theorem scaledDist_le_iff {v w : Nat} {x : Rat} :
    scaledDist v x ≤ scaledDist w x ↔ |(v : Rat) - x| ≤ |(w : Rat) - x| := by
  rw [← Nat.cast_le (α := Rat), scaledDist_cast, scaledDist_cast, mul_le_mul_iff_left₀ (Nat.cast_pos.2 x.den_pos)]

/-- Settles O8: the scan's result is the first nearest in scaled distances (`quantize_isFirstNearest`), which compare as
the exact ones do (`scaledDist_le_iff`). -/
theorem quantizerReturnsLowestNearestIndex : Obligations.QuantizerReturnsLowestNearestIndex := by
  intro rom x hrom
  obtain ⟨hvalue, hnearest, hfirst⟩ := quantize_isFirstNearest hrom x
  refine ⟨hvalue, fun j v hj => ⟨scaledDist_le_iff.1 (hnearest j v hj), fun heq => hfirst j v hj ?_⟩⟩
  exact le_antisymm (scaledDist_le_iff.2 heq.le) (scaledDist_le_iff.2 heq.ge)

/-! ### set_window (R160) -/

/-- A served host operation that performs a plan of one word, of a value that fits the byte. -/
theorem exec_performs_word {i : Instr} {s : State} (hi : i.isHostOp = true) (hr : s.ready) {v m : Nat} {c : Command}
    {commit : List RegWrite} {result : Reply} (hp : hostPlan i s = .perform [(v, c)] commit result)
    (hm : s.params.profile.modeField c = some m) (hv : v ≤ 255) :
    exec i s = .next (((s.driven [⟨BitVec.ofNat 8 v, m⟩]).applyWrites commit).replied result) :=
  exec_performs hi hr hp (encodeWords_cons_eq_some.2 ⟨_, [], busWord_eq_of_le hm hv, rfl, rfl⟩)

theorem hostPlan_setWindow (s : State) {x : Rat} (hx : 0 ≤ x) :
    hostPlan (.setWindow (.fin x)) s =
      .perform [((quantize s.delayRom x).1, .window)] [.window (quantize s.delayRom x).2] .unit := by
  rw [hostPlan, argDelay_eq_some.2 ⟨rfl, hx⟩]
  rfl

/-- Settles O21: the plan is one word (`hostPlan_setWindow`), whose index fits the byte (`quantize_index_lt`). -/
theorem setWindowEmitsTheIndexAndStoresTheAchieved : Obligations.SetWindowEmitsTheIndexAndStoresTheAchieved := by
  intro s x m hr hrom hx hm
  have hplan := hostPlan_setWindow s hx
  rw [hrom] at hplan
  exact exec_performs_word rfl hr hplan hm (Nat.le_of_lt_succ (quantize_index_lt x))

end Sys2Proof.Machine
end

section
/-! The statements of 42_bucket_offset.md: the bucket operations, the last bucket word latched, and the getters. -/

namespace Sys2Proof.Machine

/-! ### set_bucket and set_offset_coarse (R180, R181, R185) -/

/-- A served operation that plans a value under a command, or the error that the value exceeds the byte. -/
theorem exec_checked_word {i : Instr} {s : State} (hi : i.isHostOp = true) (hr : s.ready) {v m : Nat} {c : Command}
    {cause : RangeCause} {a : Int} {commit : List RegWrite} {result : Reply}
    (hp : hostPlan i s = if exceedsByte v then .error cause a else .perform [(v, c)] commit result)
    (hm : s.params.profile.modeField c = some m) :
    (v ≤ 255 → exec i s = .next (((s.driven [⟨BitVec.ofNat 8 v, m⟩]).applyWrites commit).replied result)) ∧
    (255 < v → exec i s = .next (s.replied (.rangeError cause a))) := by
  refine ⟨fun hv => exec_performs_word hi hr ?_ hm hv, fun hv => exec_raises hi hr ?_⟩
  · rw [hp, if_neg (by simpa [exceedsByte] using hv)]
  · rw [hp, if_pos (by simpa [exceedsByte] using hv)]

theorem hostPlan_setBucket (s : State) {b : Nat} (hb : b ≤ 255) :
    hostPlan (.setBucket (.fin b)) s = planSetBucket s b := by
  rw [hostPlan, argU8_natCast, if_pos hb]
  rfl

theorem hostPlan_setOffsetCoarse {s : State} (hs : s.params.profile.hasCoarse = true) {c : Nat} (hc : c ≤ 255) :
    hostPlan (.setOffsetCoarse (.fin c)) s = planSetOffsetCoarse s c := by
  rw [hostPlan, argU8_natCast, if_pos hc, hs]
  rfl

/-- Settles O19: the plan is the sum's word or RANGE_BUCKET, as the sum fits the byte (`exec_checked_word`). -/
theorem setBucketEmitsTheSumOrRaises : Obligations.SetBucketEmitsTheSumOrRaises := fun s _ _ hr hb hm =>
  exec_checked_word rfl hr (hostPlan_setBucket s hb) hm

/-- Settles O20: the plan is the sum's word or RANGE_COARSE, as the sum fits the byte (`exec_checked_word`). -/
theorem setOffsetCoarseEmitsTheSumOrRaises : Obligations.SetOffsetCoarseEmitsTheSumOrRaises :=
  fun _ _ _ hr hs hc hm => exec_checked_word rfl hr (hostPlan_setOffsetCoarse hs hc) hm

/-! ### The last word latched under a mode code (R147, R187) -/

/-- The last latched word with a mode code is the last of the new words with it, or the old one where there is none. -/
theorem lastLatched_append {s u : State} {ws : List BusWord} (h : u.latched = s.latched ++ ws.map some) (m : Nat) :
    u.lastLatched m = ((ws.filter fun w => w.mode = m).getLast?.map BusWord.data).or (s.lastLatched m) := by
  have hnew : (ws.map some).filterMap id = ws := by simp [List.filterMap_map]
  rw [State.lastLatched, State.lastLatched, h, List.filterMap_append, hnew, List.filter_append, List.getLast?_append,
    Option.map_or]

/-- New words with other mode codes leave the last latched word as it was. -/
theorem lastLatched_append_other {s u : State} {ws : List BusWord} (h : u.latched = s.latched ++ ws.map some) {m : Nat}
    (hm : ∀ w ∈ ws, w.mode ≠ m) : u.lastLatched m = s.lastLatched m := by
  rw [lastLatched_append h, List.filter_eq_nil_iff.2 (by simpa using hm)]
  rfl

/-- A new word is the last latched one with its mode code. -/
theorem lastLatched_append_same {s u : State} {d : Byte} {m : Nat} (h : u.latched = s.latched ++ [some ⟨d, m⟩]) :
    u.lastLatched m = some d := by
  rw [lastLatched_append (ws := [⟨d, m⟩]) h]
  simp

/-- The invariant reads the profile, the two bucket registers and the last `bucket` word latched. -/
theorem State.BucketLatched.congr {s u : State} (h : s.BucketLatched) (hp : u.params = s.params)
    (hb : u.bucket = s.bucket) (hc : u.offsetCoarse = s.offsetCoarse)
    (hl : ∀ m, s.params.profile.modeField .bucket = some m → u.lastLatched m = s.lastLatched m) : u.BucketLatched := by
  intro m hm d hd
  rw [hp] at hm
  rw [hl m hm] at hd
  rw [hp, hb, hc]
  exact h m hm d hd

theorem stepWord_ne_bucket (delta : Int) : (stepWord delta).2 ≠ .bucket := by
  rcases stepWord_cases delta with ⟨-, h⟩ | ⟨-, h⟩ <;> simp [h]

theorem resumeWords_ne_bucket (p : Profile) : ∀ e ∈ resumeWords p, e.2 ≠ .bucket := by
  cases h : p.fineResume <;> simp [resumeWords, h]

/-- A performed plan emits the sum of the bucket registers it leaves, or no `bucket` word and leaves both as they are. -/
theorem hostPlan_bucketWord {i : Instr} {s : State} {words : List (Nat × Command)} {commit : List RegWrite}
    {result : Reply} (hp : hostPlan i s = .perform words commit result) :
    (∃ v ≤ 255, words = [(v, .bucket)] ∧ bucketSum s.params.profile (s.applyWrites commit).bucket.toNat
        (s.applyWrites commit).offsetCoarse.toNat = v)
    ∨ ((∀ e ∈ words, e.2 ≠ .bucket) ∧ (s.applyWrites commit).bucket = s.bucket ∧
        (s.applyWrites commit).offsetCoarse = s.offsetCoarse) := by
  rcases hostPlan_perform hp with ⟨b, -, hb, hsum, rfl, rfl, -⟩ | ⟨c, -, hc, -, hsum, rfl, rfl, -⟩ |
    ⟨x, -, -, rfl, rfl, -⟩ | ⟨t, -, -, rfl, rfl, -⟩ | ⟨t, -, -, rfl, rfl, -⟩ |
    ⟨t, -, rfl, -, ⟨-, -, rfl⟩ | ⟨-, -, rfl⟩⟩ | ⟨x, -, rfl, rfl, -⟩ | ⟨rfl, rfl, -⟩
  · exact .inl ⟨_, hsum, rfl, congrArg (bucketSum _ · _) (byteOf_toNat hb)⟩
  · exact .inl ⟨_, hsum, rfl, congrArg (bucketSum _ _) (byteOf_toNat hc)⟩
  · exact .inr ⟨by simp, rfl, rfl⟩
  · exact .inr ⟨by simp, rfl, rfl⟩
  · exact .inr ⟨by simp, rfl, rfl⟩
  · refine .inr ⟨?_, rfl, rfl⟩
    simp only [List.cons_append, List.nil_append, List.forall_mem_cons]
    exact ⟨by simp, stepWord_ne_bucket _, resumeWords_ne_bucket _⟩
  · refine .inr ⟨?_, rfl, rfl⟩
    simp only [List.cons_append, List.nil_append, List.forall_mem_cons]
    exact ⟨by simp, stepWord_ne_bucket _, by simp, resumeWords_ne_bucket _⟩
  · exact .inr ⟨by simp, rfl, rfl⟩
  · exact .inr ⟨by simp, rfl, rfl⟩

theorem encodeWords_single {p : Profile} {v m : Nat} {c : Command} (hm : p.modeField c = some m) (hv : v ≤ 255) :
    encodeWords p [(v, c)] = some [⟨BitVec.ofNat 8 v, m⟩] :=
  encodeWords_cons_eq_some.2 ⟨_, [], busWord_eq_of_le hm hv, rfl, rfl⟩

/-- In a configured block the words of a plan without a `bucket` word have other mode codes than `bucket` (R34). -/
theorem encodeWords_mode_ne {q : Params} (hq : configDefect q = none) {words : List (Nat × Command)} {ws : List BusWord}
    (he : encodeWords q.profile words = some ws) {c : Command} (hc : ∀ e ∈ words, e.2 ≠ c) {m : Nat}
    (hm : q.profile.modeField c = some m) : ∀ w ∈ ws, w.mode ≠ m := by
  intro w hw heq
  obtain ⟨e, hmem, hcode, -⟩ := encodeWords_mem he hw
  rw [heq] at hcode
  exact hc e hmem (configured_modeField_inj hq hcode hm)

/-- Settles O41: a call that raises latches nothing; any other latches the sum it leaves, or leaves the sum and latches no
`bucket` word (`hostPlan_bucketWord`). -/
theorem lastBucketWordIsTheRegisterSum : Obligations.LastBucketWordIsTheRegisterSum := by
  intro s u i hr hc hi h hx
  rcases exec_cases hx with ⟨_, _, _, _, hrow, -, -⟩ | ⟨-, hn, -⟩ | ⟨-, -, cause, a, -, rfl⟩ |
    ⟨-, -, words, commit, result, ws, hp, he, rfl⟩
  · simp [Instr.isHostOp, hrow] at hi
  · exact absurd hr hn
  · exact h.congr rfl rfl rfl fun _ _ => rfl
  · have hl := performed_latched hc he commit result
    have hpar : ((s.driven ws).applyWrites commit).params = s.params := applyWrites_params _ _
    have hregs := (sameRegs_driven s ws).applyWrites commit
    rcases hostPlan_bucketWord hp with ⟨v, hv, rfl, hsum⟩ | ⟨hwords, hb, ho⟩
    · intro m hm d hd
      rw [replied_params, hpar] at hm ⊢
      obtain rfl : [⟨BitVec.ofNat 8 v, m⟩] = ws := Option.some.inj ((encodeWords_single hm hv).symm.trans he)
      obtain rfl : BitVec.ofNat 8 v = d := Option.some.inj ((lastLatched_append_same hl).symm.trans hd)
      rw [replied_bucket, replied_offsetCoarse, hregs.bucket, hregs.offsetCoarse, hsum, byteOf_toNat hv]
    · exact h.congr hpar (hregs.bucket.trans hb) (hregs.offsetCoarse.trans ho) fun m hm =>
        lastLatched_append_other hl (encodeWords_mode_ne hc he hwords hm)

/-! ### The getters (R163, R183, R188, R210, R233, R239) -/

/-- A served operation that plans no word and no register write leaves its reply alone. -/
theorem exec_replies {i : Instr} {s : State} (hi : i.isHostOp = true) (hr : s.ready) {result : Reply}
    (hp : hostPlan i s = .perform [] [] result) : exec i s = .next (s.replied result) := by
  simpa using exec_performs hi hr hp (encodeWords_nil _)

/-- An operation the profile has plans as if its presence were not asked. -/
theorem ifPresent_of_present {present : Bool} (h : present = true) (plan : Plan) : Plan.ifPresent present plan = plan :=
  if_pos h

/-- Settles O31: each getter plans its register as the reply, and nothing else (`exec_replies`). -/
theorem gettersReturnTheirRegister : Obligations.GettersReturnTheirRegister := by
  intro s hr
  refine ⟨exec_replies rfl hr rfl, exec_replies rfl hr rfl, fun h => exec_replies rfl hr (ifPresent_of_present h _),
    fun h => exec_replies rfl hr (ifPresent_of_present (decide_eq_true h) _), fun h => ?_, fun h => ?_⟩
  · rw [exec_replies (i := .getLaserTrig) rfl hr (ifPresent_of_present h _)]
    cases s.laserSrc <;> rfl
  · rw [exec_replies (i := .getRingRfSource) rfl hr (ifPresent_of_present h _)]
    cases s.ringRfSrc <;> rfl

end Sys2Proof.Machine
end

section
/-! The statements of 43_phase_sequencer.md: the step word, the checks of `set_offset_fine`, and its two sequences. -/

namespace Sys2Proof.Machine

/-! ### The step word (R203) -/

/-- Settles O26: the two step words of `stepWord_cases`, whose magnitude is delta or its negation by the sign. -/
theorem stepWordFollowsTheSignOfDelta : Obligations.StepWordFollowsTheSignOfDelta := by
  intro delta
  rcases stepWord_cases delta with ⟨hsign, h⟩ | ⟨hsign, h⟩ <;> rw [h]
  · exact ⟨fun _ => ⟨rfl, Int.natAbs_of_nonneg hsign.le⟩, fun hle => absurd hsign (not_lt.2 hle)⟩
  · exact ⟨fun hpos => absurd hpos (not_lt.2 hsign), fun _ => ⟨rfl, Int.ofNat_natAbs_of_nonpos hsign⟩⟩

/-! ### The plan of set_offset_fine, by variant (R200, R204, R205) -/

theorem hostPlan_setOffsetFine_direct {s : State} (hv : s.params.profile.fineVariant = .direct) (t : Int) :
    hostPlan (.setOffsetFine (.fin t)) s = planOffsetFineDirect s t := by
  rw [hostPlan, argInt_intCast, ifPresent_of_present (by simp [hasFine, hv]), Plan.withArg, planSetOffsetFine, hv]

theorem hostPlan_setOffsetFine_quad {s : State} (hv : s.params.profile.fineVariant = .quadrature) (t : Int) :
    hostPlan (.setOffsetFine (.fin t)) s = planOffsetFineQuad s t := by
  rw [hostPlan, argInt_intCast, ifPresent_of_present (by simp [hasFine, hv]), Plan.withArg, planSetOffsetFine, hv]

/-! ### The checks (R202) -/

theorem exceedsStep_iff {p : Profile} {delta : Int} :
    exceedsStep p delta = true ↔ p.fineStepBound < (delta.natAbs : Int) := decide_eq_true_iff

theorem directError_of_neg (p : Profile) {t : Int} (ht : t < 0) (count : Int) :
    directError p t count = some .fineNegative := if_pos ht

theorem directError_of_step {p : Profile} {t count : Int} (ht : 0 ≤ t)
    (hstep : p.fineStepBound < ((directDelta t count).natAbs : Int)) : directError p t count = some .fineStep := by
  rw [directError, if_neg (not_lt.2 ht), if_pos (exceedsStep_iff.2 hstep)]

theorem quadError_of_neg (p : Profile) {t : Int} (ht : t < 0) (count : Int) :
    quadError p t count = some .fineNegative := if_pos ht

theorem quadError_of_quad {p : Profile} {t : Int} (ht : 0 ≤ t) (hquad : p.quadBound ≤ quadrantOf p t) (count : Int) :
    quadError p t count = some .quad := by
  rw [quadError, if_neg (not_lt.2 ht), if_pos hquad]

theorem quadError_of_step {p : Profile} {t count : Int} (ht : 0 ≤ t) (hquad : quadrantOf p t < p.quadBound)
    (hstep : p.fineStepBound < ((quadDelta p t count).natAbs : Int)) : quadError p t count = some .fineStep := by
  rw [quadError, if_neg (not_lt.2 ht), if_neg (not_le.2 hquad), if_pos (exceedsStep_iff.2 hstep)]

/-- A served `set_offset_fine` in DIRECT raises the cause its checks find. -/
theorem exec_setOffsetFine_direct_raises {s : State} (hr : s.ready) (hv : s.params.profile.fineVariant = .direct)
    {t : Int} {c : RangeCause} (he : directError s.params.profile t s.phaseCnt = some c) :
    exec (.setOffsetFine (.fin t)) s = .next (s.replied (.rangeError c t)) :=
  exec_raises rfl hr (by rw [hostPlan_setOffsetFine_direct hv, planOffsetFineDirect, he])

/-- A served `set_offset_fine` in QUADRATURE raises the cause its checks find. -/
theorem exec_setOffsetFine_quad_raises {s : State} (hr : s.ready) (hv : s.params.profile.fineVariant = .quadrature)
    {t : Int} {c : RangeCause} (he : quadError s.params.profile t s.phaseCnt = some c) :
    exec (.setOffsetFine (.fin t)) s = .next (s.replied (.rangeError c t)) :=
  exec_raises rfl hr (by rw [hostPlan_setOffsetFine_quad hv, planOffsetFineQuad, he])

/-- Settles O24: each clause is one branch of the variant's checks (`directError`, `quadError`), and a cause they find
is raised. -/
theorem fineOffsetChecksRaiseInOrder : Obligations.FineOffsetChecksRaiseInOrder := by
  intro s t hr hfine
  refine ⟨fun ht => ?_,
    fun ht hv hquad => exec_setOffsetFine_quad_raises hr hv (quadError_of_quad ht hquad _),
    fun ht hv hquad hstep => exec_setOffsetFine_quad_raises hr hv (quadError_of_step ht hquad hstep),
    fun ht hv hstep => exec_setOffsetFine_direct_raises hr hv (directError_of_step ht hstep),
    fun hpos n => ⟨quadrantOf_of_pos hpos n, fineCountOf_of_pos hpos n⟩⟩
  cases hv : s.params.profile.fineVariant with
  | none => exact absurd hv hfine
  | direct => exact exec_setOffsetFine_direct_raises hr hv (directError_of_neg _ ht _)
  | quadrature => exact exec_setOffsetFine_quad_raises hr hv (quadError_of_neg _ ht _)

/-- With `QUAD_COUNTS` at most one past the bound, a step between fine counts is within it (V6). -/
theorem quadError_ne_fineStep {p : Profile} (hpos : 0 < p.quadCounts) (hcounts : p.quadCounts ≤ p.fineStepBound + 1)
    (t count : Int) : quadError p t count ≠ some .fineStep := by
  have hlt := quadDelta_lt hpos t count
  have hstep : ¬ exceedsStep p (quadDelta p t count) = true := fun h => by
    have := exceedsStep_iff.1 h
    omega
  rw [quadError, if_neg hstep]
  split
  · simp
  · split <;> simp

/-- Settles O25: the reply is a RangeError only where the checks raise it (`raisedTo_iff`, `hostPlan_words`), and they
raise no RANGE_FINE_STEP (`quadError_ne_fineStep`). -/
theorem quadratureNeverRaisesFineStep : Obligations.QuadratureNeverRaisesFineStep := by
  intro s u t hr hv hpos hcounts hx a hraised
  rcases exec_cases hx with ⟨_, _, _, _, hrow, -, -⟩ | ⟨-, hn, -⟩ | ⟨-, -, cause, b, hp, rfl⟩ |
    ⟨-, -, words, commit, result, ws, hp, -, rfl⟩
  · cases hrow
  · exact hn hr
  · obtain ⟨rfl, rfl⟩ : cause = .fineStep ∧ b = a := by simpa using hraised
    rcases hostPlan_error hp with ⟨_, hi, -⟩ | ⟨_, hi, -⟩ | ⟨_, -, -, ⟨hdirect, -⟩ | ⟨-, he⟩⟩
    · cases hi
    · cases hi
    · rw [hv] at hdirect; cases hdirect
    · exact quadError_ne_fineStep hpos hcounts _ _ he
  · obtain ⟨-, -, hresult⟩ := hostPlan_words hp
    rw [performed_replies] at hraised
    exact hresult .fineStep a (by simpa using hraised)

/-! ### The words (R203, R204, R205) -/

theorem busWord_stepWord {p : Profile} {mi md : Nat} (hi : p.modeField .incPhase = some mi)
    (hd : p.modeField .decPhase = some md) (delta : Int) :
    p.busWord (stepWord delta).1 (stepWord delta).2 = some ⟨busData delta.natAbs, if 0 < delta then mi else md⟩ := by
  rcases stepWord_cases delta with ⟨hsign, h⟩ | ⟨hsign, h⟩ <;> rw [h]
  · rw [if_pos hsign]; exact busWord_eq hi
  · rw [if_neg (not_lt.2 hsign)]; exact busWord_eq hd

theorem encodeWords_resumeWords {p : Profile} {mp : Nat} (hm : p.modeField .pauseTrig = some mp) :
    encodeWords p (resumeWords p) = some (if p.fineResume then [⟨0, mp⟩] else []) := by
  unfold resumeWords
  split
  · exact encodeWords_single hm (by decide)
  · rfl

theorem encodeWords_cons {p : Profile} {e : Nat × Command} {w : BusWord} (he : p.busWord e.1 e.2 = some w)
    {rest : List (Nat × Command)} {ws : List BusWord} (hrest : encodeWords p rest = some ws) :
    encodeWords p (e :: rest) = some (w :: ws) :=
  encodeWords_cons_eq_some.2 ⟨w, ws, he, hrest, rfl⟩

/-- Settles O22: the checks pass (`directError_eq_none`), and the planned words encode one by one: suspend, step
(`busWord_stepWord`), resume (`encodeWords_resumeWords`). -/
theorem setOffsetFineDirectEmitsItsWords : Obligations.SetOffsetFineDirectEmitsItsWords := by
  intro s t mp mi md hr hv hp hi hd ht hstep
  refine ⟨?_, busData_of_le⟩
  have hplan := hostPlan_setOffsetFine_direct hv t
  rw [planOffsetFineDirect, directError_eq_none.2 ⟨ht, hstep⟩] at hplan
  exact exec_performs rfl hr hplan <| encodeWords_cons (busWord_eq_of_le hp (by decide)) <|
    encodeWords_cons (busWord_stepWord hi hd _) (encodeWords_resumeWords hp)

/-- Settles O23: the checks pass (`quadError_eq_none`), and the planned words encode one by one: suspend, step on the
fine counts (`busWord_stepWord`), quadrant, resume (`encodeWords_resumeWords`). -/
theorem setOffsetFineQuadEmitsItsWords : Obligations.SetOffsetFineQuadEmitsItsWords := by
  intro s t mp mi md mq hr hv hp hi hd hq ht hquad hstep
  refine ⟨?_, fun hpos => ⟨quadrantOf_of_pos hpos t, fineCountOf_of_pos hpos t, fineCountOf_of_pos hpos _⟩,
    fun _ => busData_of_le⟩
  have hplan := hostPlan_setOffsetFine_quad hv t
  rw [planOffsetFineQuad, quadError_eq_none.2 ⟨ht, hquad, hstep⟩] at hplan
  exact exec_performs rfl hr hplan <| encodeWords_cons (busWord_eq_of_le hp (by decide)) <|
    encodeWords_cons (busWord_stepWord hi hd _) <| encodeWords_cons (busWord_eq hq) (encodeWords_resumeWords hp)

end Sys2Proof.Machine
end

section
/-! The statements of 44_source_selectors.md: the selector match, and the two operations that drive a source's bit. -/

namespace Sys2Proof.Machine

/-! ### The selector match (R231) -/

theorem startsWith_iff_prefix (t k : Text) : startsWith t k = true ↔ k <+: t := by
  induction t, k using startsWith.induct with
  | case1 t => simp [startsWith]
  | case2 d ds => simp [startsWith]
  | case3 c cs d ds ih => rw [startsWith, Bool.and_eq_true, decide_eq_true_iff, ih, List.cons_prefix_cons, eq_comm]

theorem containsRun_iff_infix (k t : Text) : containsRun k t = true ↔ k <:+: t := by
  induction t with
  | nil => rw [containsRun, startsWith_iff_prefix, List.prefix_nil, List.infix_nil]
  | cons c cs ih => rw [containsRun, Bool.or_eq_true, startsWith_iff_prefix, ih, List.infix_cons_iff]

theorem foldChar_toNat_of_upper {c : Char} (h : 'A' ≤ c ∧ c ≤ 'Z') : (foldChar c).toNat = c.toNat + 32 := by
  have hle : c.toNat ≤ 90 := h.2
  rw [foldChar, if_pos h, Char.toNat_ofNat, if_pos (Or.inl (by omega))]

/-- Settles O29: the match is the infix relation on the folded strings (`containsRun_iff_infix`), and the shift of an upper
case letter stays a character (`foldChar_toNat_of_upper`). -/
theorem selectorMatchIsAFoldedSubstring : Obligations.SelectorMatchIsAFoldedSubstring := by
  refine ⟨fun t k => (containsRun_iff_infix _ _).trans ?_, fun c => ⟨foldChar_toNat_of_upper, fun h => if_neg h⟩⟩
  exact exists₂_congr fun before after => eq_comm

/-! ### The selected source's bit (R230, R236) -/

theorem laserBitOf_laserOf (b : LaserBits) (text : Text) : laserBitOf b (laserOf text) =
    if containsCi text ['c', 'o', 'i', 'n'] then b.coincidence.toNat else b.mrf.toNat :=
  apply_ite (laserBitOf b) _ _ _

theorem ringBitOf_ringOf (b : RingBits) (text : Text) : ringBitOf b (ringOf text) =
    if containsCi text ['R', 'E', 'V'] then b.revClock.toNat else b.mhz100.toNat :=
  apply_ite (ringBitOf b) _ _ _

/-- A source's bit fits the byte, whichever source is selected. -/
theorem selectedBit_le_byte (selected : Prop) [Decidable selected] (b b' : Bool) :
    (if selected then b.toNat else b'.toNat) ≤ 255 := by
  split
  · exact b.toNat_le.trans (by decide)
  · exact b'.toNat_le.trans (by decide)

/-- Settles O27: the plan is one word, the selected source's bit (`laserBitOf_laserOf`), which fits the byte. -/
theorem setLaserTrigEmitsTheBit : Obligations.SetLaserTrigEmitsTheBit := by
  intro s text m hr hs hm
  have hplan : hostPlan (.setLaserTrig text) s = planSetLaserTrig s text := ifPresent_of_present hs _
  rw [planSetLaserTrig, laserBitOf_laserOf] at hplan
  exact exec_performs_word rfl hr hplan hm (selectedBit_le_byte _ _ _)

/-- Settles O28: the plan is one word, the selected source's bit (`ringBitOf_ringOf`), which fits the byte. -/
theorem setRingRfSourceEmitsTheBit : Obligations.SetRingRfSourceEmitsTheBit := by
  intro s text m hr hs hm
  have hplan : hostPlan (.setRingRfSource text) s = planSetRingRfSource s text := ifPresent_of_present hs _
  rw [planSetRingRfSource, ringBitOf_ringOf] at hplan
  exact exec_performs_word rfl hr hplan hm (selectedBit_le_byte _ _ _)

end Sys2Proof.Machine
end

section
/-! The statements of 45_configuration_ops.md: `set_avg_phase_advance`. -/

namespace Sys2Proof.Machine

/-- A served operation that plans no word drives nothing: its register writes and its reply are the whole effect. -/
theorem exec_writes {i : Instr} {s : State} (hi : i.isHostOp = true) (hr : s.ready) {commit : List RegWrite}
    {result : Reply} (hp : hostPlan i s = .perform [] commit result) :
    exec i s = .next ((s.applyWrites commit).replied result) := by
  simpa using exec_performs hi hr hp (encodeWords_nil _)

/-- Settles O30: a finite value passes `argReal` as it stands, and its plan is the one register write, with no word
(`exec_writes`). -/
theorem setAvgPhaseAdvanceStoresTheValue : Obligations.SetAvgPhaseAdvanceStoresTheValue := by
  intro s x hr
  have hplan : hostPlan (.setAvgPhaseAdvance (.fin x)) s = planSetAvgPhaseAdvance x := rfl
  exact exec_writes rfl hr hplan

end Sys2Proof.Machine
end

section
/-! The statements of 60_exceptions.md: what a call is refused for, what raises RangeError and what that leaves, that
nothing faults, the calls outstanding, and the checks of construction. -/

namespace Sys2Proof.Machine

/-! ### A call that waits (R270) -/

/-- Settles O43: a host operation is a transaction, and a transaction of a held block waits (`transaction_waits`). -/
theorem callWaitsWhileTheBlockIsHeld : Obligations.CallWaitsWhileTheBlockIsHeld := by
  intro s i hr hi
  rw [exec_host hi, transaction_waits hr]

/-! ### Refused calls (R266 to R268, R272) -/

theorem ifPresent_of_absent {present : Bool} (h : present = false) (plan : Plan) :
    Plan.ifPresent present plan = .refuse .opAbsent := by
  rw [h]; rfl

theorem withArg_of_illFormed {α : Type} {arg : Option α} (h : arg.isSome = false) (plan : α → Plan) :
    Plan.withArg arg plan = .refuse .badArg := by
  rw [Option.isSome_eq_false_iff, Option.isNone_iff_eq_none] at h
  rw [h]; rfl

/-- The presence check comes first: the plan of an absent operation does not look at the argument. -/
theorem hostPlan_absent {i : Instr} {s : State} (hi : i.isHostOp = true)
    (h : hasOperation s.params.profile i = false) : hostPlan i s = .refuse .opAbsent := by
  cases i with
  | setLaserTrig _ | getLaserTrig | setRingRfSource _ | getRingRfSource | setOffsetFine _ | getOffsetFine
  | setOffsetCoarse _ | getOffsetCoarse => exact ifPresent_of_absent h _
  | setBucket _ | getBucket | setWindow _ | getWindow | setAvgPhaseAdvance _ => cases h
  | _ => cases hi

/-- An operation the profile has plans nothing on an argument outside its domain. -/
theorem hostPlan_illFormed {i : Instr} {s : State} (hi : i.isHostOp = true)
    (h : hasOperation s.params.profile i = true) (hw : i.wellFormed = false) : hostPlan i s = .refuse .badArg := by
  cases i with
  | setBucket b => exact withArg_of_illFormed ((argU8_isSome b).trans hw) _
  | setWindow x => exact withArg_of_illFormed ((argDelay_isSome x).trans hw) _
  | setAvgPhaseAdvance x => exact withArg_of_illFormed ((argReal_isSome x).trans hw) _
  | setOffsetFine t => exact (ifPresent_of_present h _).trans (withArg_of_illFormed ((argInt_isSome t).trans hw) _)
  | setOffsetCoarse c => exact (ifPresent_of_present h _).trans (withArg_of_illFormed ((argU8_isSome c).trans hw) _)
  | getBucket | getWindow | setLaserTrig _ | getLaserTrig | setRingRfSource _ | getRingRfSource | getOffsetFine
  | getOffsetCoarse => cases hw
  | _ => cases hi

/-- Settles O32: the plan refuses for presence (`hostPlan_absent`), then for the argument (`hostPlan_illFormed`). -/
theorem absentThenIllFormedCallsAreRefused : Obligations.AbsentThenIllFormedCallsAreRefused :=
  fun _ _ hr hi => ⟨fun h => exec_refuses hi hr (hostPlan_absent hi h),
    fun h hw => exec_refuses hi hr (hostPlan_illFormed hi h hw)⟩

/-! ### Calls that complete (R265, R266, R272) -/

/-- A plan that refuses nothing. -/
def Plan.Answers (plan : Plan) : Prop := ∀ r, plan ≠ .refuse r

theorem withArg_answers {α : Type} {arg : Option α} {plan : α → Plan} (h : arg.isSome = true)
    (hp : ∀ a, (plan a).Answers) : (Plan.withArg arg plan).Answers := by
  obtain ⟨a, rfl⟩ := Option.isSome_iff_exists.1 h
  exact hp a

theorem ifPresent_answers {present : Bool} {plan : Plan} (h : present = true) (hp : plan.Answers) :
    (Plan.ifPresent present plan).Answers := by
  rwa [ifPresent_of_present h]

theorem planSetBucket_answers (s : State) (b : Nat) : (planSetBucket s b).Answers := by
  intro r
  simp only [planSetBucket]
  split <;> nofun

theorem planSetOffsetCoarse_answers (s : State) (c : Nat) : (planSetOffsetCoarse s c).Answers := by
  intro r
  simp only [planSetOffsetCoarse]
  split <;> nofun

theorem planSetOffsetFine_answers {s : State} (h : s.params.profile.fineVariant ≠ .none) (t : Int) :
    (planSetOffsetFine s t).Answers := by
  intro r
  unfold planSetOffsetFine
  split
  next hv => exact absurd hv h
  next => unfold planOffsetFineDirect; split <;> nofun
  next => unfold planOffsetFineQuad; split <;> nofun

/-- Absence and the argument are all a plan refuses for. -/
theorem hostPlan_answers {i : Instr} {s : State} (hi : i.isHostOp = true)
    (h : hasOperation s.params.profile i = true) (hw : i.wellFormed = true) : (hostPlan i s).Answers := by
  cases i with
  | setBucket b => exact withArg_answers ((argU8_isSome b).trans hw) (planSetBucket_answers s)
  | setWindow x => exact withArg_answers ((argDelay_isSome x).trans hw) nofun
  | setAvgPhaseAdvance x => exact withArg_answers ((argReal_isSome x).trans hw) nofun
  | setOffsetFine t =>
    exact ifPresent_answers h
      (withArg_answers ((argInt_isSome t).trans hw) (planSetOffsetFine_answers (of_decide_eq_true h)))
  | setOffsetCoarse c =>
    exact ifPresent_answers h (withArg_answers ((argU8_isSome c).trans hw) (planSetOffsetCoarse_answers s))
  | setLaserTrig _ | getLaserTrig | setRingRfSource _ | getRingRfSource | getOffsetFine | getOffsetCoarse =>
    exact ifPresent_answers h nofun
  | getBucket | getWindow => nofun
  | _ => cases hi

/-- The commands of a fine-offset plan are needed wherever the phase sequencer is present (R111). -/
theorem fineCommand_needed {p : Profile} (h : p.fineVariant ≠ .none) {c : Command}
    (hc : c ∈ [Command.incPhase, .decPhase, .pauseTrig]) : c ∈ neededCommands p := by
  rw [neededCommands, if_neg h]
  simp only [List.mem_append]
  tauto

theorem stepWord_needed {p : Profile} (h : p.fineVariant ≠ .none) (delta : Int) :
    (stepWord delta).2 ∈ neededCommands p := by
  rcases stepWord_cases delta with ⟨-, hs⟩ | ⟨-, hs⟩ <;> rw [hs] <;> exact fineCommand_needed h (by simp)

theorem resumeWords_needed {p : Profile} (h : p.fineVariant ≠ .none) :
    ∀ e ∈ resumeWords p, e.2 ∈ neededCommands p := by
  unfold resumeWords
  split
  · simpa using fineCommand_needed h (by simp)
  · simp

/-- Every word of a plan that is performed is under a command the profile needs (R110, R111). -/
theorem hostPlan_needed {i : Instr} {s : State} {words : List (Nat × Command)} {commit : List RegWrite}
    {result : Reply} (h : hostPlan i s = .perform words commit result) :
    ∀ e ∈ words, e.2 ∈ neededCommands s.params.profile := by
  rcases hostPlan_perform h with ⟨b, -, -, -, rfl, -⟩ | ⟨c, -, -, -, -, rfl, -⟩ | ⟨x, -, -, rfl, -⟩ |
    ⟨t, -, hs, rfl, -⟩ | ⟨t, -, hs, rfl, -⟩ | ⟨t, -, -, -, ⟨hv, -, rfl⟩ | ⟨hv, -, rfl⟩⟩ |
    ⟨x, -, rfl, -⟩ | ⟨rfl, -⟩
  · simp [neededCommands]
  · simp [neededCommands]
  · simp [neededCommands]
  · simp [neededCommands, hs]
  · simp [neededCommands, hs]
  · have hfine : s.params.profile.fineVariant ≠ .none := by simp [hv]
    simpa [or_imp, forall_and, fineCommand_needed hfine, stepWord_needed hfine] using resumeWords_needed hfine
  · have hfine : s.params.profile.fineVariant ≠ .none := by simp [hv]
    have hquad : Command.quadSel ∈ neededCommands s.params.profile := by simp [neededCommands, hv]
    simpa [or_imp, forall_and, fineCommand_needed hfine, stepWord_needed hfine, hquad] using resumeWords_needed hfine
  · exact List.forall_mem_nil _
  · exact List.forall_mem_nil _

/-- Settles O33: the plan answers (`hostPlan_answers`); raised or performed, it completes, since the Mode Table of a
configured block has every command the plan emits (`hostPlan_needed`). -/
theorem presentWellFormedCallsComplete : Obligations.PresentWellFormedCallsComplete := by
  intro s i hr hc hi h hw
  cases hp : hostPlan i s with
  | refuse r => exact absurd hp (hostPlan_answers hi h hw r)
  | error c a => exact ⟨_, exec_raises hi hr hp⟩
  | perform words commit result =>
    obtain ⟨ws, he⟩ := encodeWords_isSome fun e hmem =>
      Option.isSome_iff_exists.2 (configured_modeField hc (hostPlan_needed hp e hmem))
    exact ⟨_, exec_performs hi hr hp he⟩

/-! ### RangeError (R261, R262, R264) -/

/-- The reply RangeError comes from a plan that raises it, and is all the call leaves. -/
theorem exec_rangeError {s u : State} {i : Instr} {c : RangeCause} {a : Int} (hr : s.ready) (hx : exec i s = .next u)
    (hraised : u.replies = s.replies ++ [(s.turn, .rangeError c a)]) :
    hostPlan i s = .error c a ∧ u = s.replied (.rangeError c a) := by
  rcases exec_cases hx with ⟨_, _, _, _, -, -, rfl⟩ | ⟨-, hn, -⟩ | ⟨-, -, cause, b, hp, rfl⟩ |
    ⟨-, -, words, commit, result, ws, hp, -, rfl⟩
  · simp at hraised
  · exact absurd hr hn
  · obtain ⟨rfl, rfl⟩ : cause = c ∧ b = a := by simpa using hraised
    exact ⟨hp, rfl⟩
  · obtain ⟨-, -, hresult⟩ := hostPlan_words hp
    rw [performed_replies] at hraised
    exact absurd (by simpa using hraised) (hresult c a)

/-- Settles O34, by `exec_rangeError`. -/
theorem rangeErrorLeavesEverythingElse : Obligations.RangeErrorLeavesEverythingElse :=
  fun _ _ _ _ _ hr hx hraised => (exec_rangeError hr hx hraised).2

theorem directError_eq_some {p : Profile} {t count : Int} {c : RangeCause} (h : directError p t count = some c) :
    c = .fineNegative ∨ c = .fineStep := by
  unfold directError at h
  split at h
  · cases h; exact .inl rfl
  · split at h <;> cases h
    exact .inr rfl

theorem quadError_eq_some {p : Profile} {t count : Int} {c : RangeCause} (h : quadError p t count = some c) :
    c = .fineNegative ∨ c = .quad ∨ c = .fineStep := by
  unfold quadError at h
  split at h
  · cases h; exact .inl rfl
  · split at h
    · cases h; exact .inr (.inl rfl)
    · split at h <;> cases h
      exact .inr (.inr rfl)

/-- Settles O35: the plan raised it (`exec_rangeError`), and `hostPlan_error` lists what each plan can raise. -/
theorem rangeCausesBelongToTheirOperations : Obligations.RangeCausesBelongToTheirOperations := by
  intro s u i c a hr hx hraised
  rcases hostPlan_error (exec_rangeError hr hx hraised).1 with ⟨b, rfl, rfl, -⟩ | ⟨b, rfl, rfl, -⟩ |
    ⟨n, rfl, -, ⟨-, he⟩ | ⟨hv, he⟩⟩
  · exact ⟨b, rfl⟩
  · exact ⟨b, rfl⟩
  · rcases directError_eq_some he with rfl | rfl <;> exact ⟨n, rfl⟩
  · rcases quadError_eq_some he with rfl | rfl | rfl
    · exact ⟨n, rfl⟩
    · exact ⟨⟨n, rfl⟩, hv⟩
    · exact ⟨n, rfl⟩

/-! ### Faults (R260, R265) -/

theorem perform_ne_fault (s : State) (op : Instr) (plan : Plan) (f : Fault) : s.perform op plan ≠ .fault f := by
  unfold State.perform
  split
  · nofun
  · nofun
  · split <;> nofun

theorem transaction_ne_fault (s : State) (op : Instr) (plan : State → Plan) (f : Fault) :
    s.transaction op plan ≠ .fault f := by
  unfold State.transaction
  split
  · exact perform_ne_fault _ _ _ f
  · nofun

theorem busCommand_ne_fault (s : State) (r : Revision) (c : Command) (d : Byte) (f : Fault) :
    s.busCommand r c d ≠ .fault f := by
  unfold State.busCommand
  split
  · split <;> nofun
  · nofun

theorem exec_ne_fault (i : Instr) (s : State) (f : Fault) : exec i s ≠ .fault f := by
  rcases host_or_row i with hi | ⟨r, c, d, hrow⟩
  · rw [exec_host hi]
    exact transaction_ne_fault s i _ f
  · rw [exec_busCommand hrow]
    exact busCommand_ne_fault s r c d f

/-- A free block waits, serves a call, or refuses what is no host operation. -/
theorem fetch_ready_cases {s : State} (hr : s.ready) :
    s.fetch = .wait ∨ (∃ i u, s.fetch = .call i u) ∨ s.fetch = .refuse .notAHostOperation := by
  rw [fetch_ready hr, State.fetchCall]
  split
  next => exact .inl rfl
  next c u _ =>
    split
    next => exact .inr (.inl ⟨c.op, u, rfl⟩)
    next => exact .inr (.inr rfl)

/-- Settles O46: an instruction is a transaction or a bus command, and neither faults; a free block's step waits, serves
a call or refuses (`fetch_ready_cases`). -/
theorem noInstructionFaults : Obligations.NoInstructionFaults := by
  refine ⟨exec_ne_fault, fun s f hr => ?_⟩
  rcases fetch_ready_cases hr with hf | ⟨i, u, hf⟩ | hf
  · simp [step, hf]
  · rw [step_of_fetch_call hf]
    exact exec_ne_fault i u f
  · simp [step, hf]

/-! ### The calls outstanding (R148, R270) -/

/-- Fewer waiting calls, and no new holder of the lock, keep the calls outstanding those of distinct callers. -/
theorem State.CallsOk.of_sublist {s u : State} (h : s.CallsOk) (hparams : u.params = s.params)
    (hpending : u.pending.Sublist s.pending) (hlock : ∀ c, u.lock = .held c → s.lock = .held c) : u.CallsOk where
  distinct := h.distinct.sublist (hpending.map _)
  known w hw := by rw [hparams]; exact h.known w (hpending.subset hw)
  hostOps w hw := h.hostOps w (hpending.subset hw)
  holder c hc hmem := h.holder c (hlock c hc) ((hpending.map _).subset hmem)

theorem takeCall_pending_sublist {s v : State} {c : Call} (h : s.takeCall = some (c, v)) : v.pending.Sublist s.pending := by
  obtain ⟨before, after, _, hp, rfl⟩ := takeCall_eq_some h
  rw [hp]
  exact (List.sublist_cons_self c after).append_left before

/-- A step adds no waiting call. -/
theorem step_pending_sublist {s u : State} (h : step s = .next u) : u.pending.Sublist s.pending := by
  cases stepsTo_of_step h with
  | waits _ _ => exact List.Sublist.refl _
  | raises _ ht _ => simpa [State.replied] using takeCall_pending_sublist ht
  | performs _ ht _ _ => simpa [State.replied] using takeCall_pending_sublist ht
  | continues _ _ _ _ _ => exact List.Sublist.refl _
  | commits _ => rw [finish_pending]; exact List.Sublist.refl _

theorem not_held_of_ready {s : State} (h : s.ready) (c : Nat) : s.lock ≠ .held c := by
  rw [h.1]; nofun

/-- After a step the lock is held only by the caller that held it: a served call has released it again. -/
theorem step_lock_held {s u : State} (h : step s = .next u) (c : Nat) (hc : u.lock = .held c) : s.lock = .held c := by
  cases stepsTo_of_step h with
  | waits _ _ => exact hc
  | raises hr ht _ => exact absurd hc (not_held_of_ready (ready_replied (ready_takeCall hr ht) _) c)
  | performs hr ht _ _ => exact absurd hc (not_held_of_ready (ready_performed (ready_takeCall hr ht) _ _ _) c)
  | continues _ _ _ _ _ => exact hc
  | commits _ => cases hc

theorem outstanding_eq_false {s : State} {c : Nat} :
    s.outstanding c = false ↔ c ∉ s.pending.map Call.caller ∧ s.lock ≠ .held c := by
  simp [State.outstanding]

theorem submit_eq_some {s u : State} {c : Nat} {i : Instr} (h : s.submit c i = some u) :
    c < s.params.nCallers ∧ s.outstanding c = false ∧ i.isHostOp = true ∧
      u = { s with pending := s.pending ++ [⟨c, i⟩] } := by
  unfold State.submit at h
  split at h
  next hc =>
    obtain ⟨hknown, hout, hi⟩ := hc
    exact ⟨hknown, hout, hi, (Option.some.inj h).symm⟩
  next => cases h

/-- One more call, of a known caller with none outstanding, for a host operation. -/
theorem State.CallsOk.submit {s u : State} {c : Nat} {i : Instr} (h : s.CallsOk) (hs : s.submit c i = some u) :
    u.CallsOk := by
  obtain ⟨hknown, hout, hi, rfl⟩ := submit_eq_some hs
  obtain ⟨hnew, hfree⟩ := outstanding_eq_false.1 hout
  constructor
  case distinct =>
    rw [List.map_append]
    exact h.distinct.append (List.nodup_singleton c) (List.disjoint_singleton.2 hnew)
  case known =>
    intro w hw
    rcases List.mem_append.1 hw with hw | hw
    · exact h.known w hw
    · rw [List.mem_singleton.1 hw]; exact hknown
  case hostOps =>
    intro w hw
    rcases List.mem_append.1 hw with hw | hw
    · exact h.hostOps w hw
    · rw [List.mem_singleton.1 hw]; exact hi
  case holder =>
    intro d hd hmem
    rw [List.map_append] at hmem
    rcases List.mem_append.1 hmem with hmem | hmem
    · exact h.holder d hd hmem
    · rw [List.mem_singleton.1 hmem] at hd
      exact hfree hd

/-- Settles O57: a step takes calls away and gives the lock to nobody new (`step_pending_sublist`, `step_lock_held`). -/
theorem callsStayOnePerCaller : Obligations.CallsStayOnePerCaller :=
  ⟨fun _ _ h _ hu => h.of_sublist (step_sameFixed hu).params (step_pending_sublist hu) (step_lock_held hu),
    fun _ _ _ _ h hs => h.submit hs⟩

/-! ### Construction (R269) -/

/-- Parameters without a defect are those that pass the seven checks. -/
theorem configDefect_eq_none {q : Params} : configDefect q = none ↔
    q.pins.dataPins.length = 8 ∧ q.pins.modePins.length = q.profile.modeWidth.bits ∧ q.pins.all.Nodup ∧
      (∀ m ∈ tableCodes q.profile.modeTable, m < 2 ^ q.profile.modeWidth.bits) ∧
      (tableCodes q.profile.modeTable).Nodup ∧
      (∀ c ∈ neededCommands q.profile, (q.profile.modeTable.code c).isSome) ∧ 0 ≤ q.tSettle := by
  simp only [configDefect, ite_some_eq_none, not_not, not_lt, and_true]

theorem construct_completes_iff {q : Params} : (∃ s, construct q = .next s) ↔ configDefect q = none := by
  simp [construct_eq_next]

theorem construct_refuses {q : Params} {d : ConfigDefect} (h : configDefect q = some d) :
    construct q = .refused (.badConfig d) := by
  rw [construct, h]

/-- Settles O58: construction completes exactly without a defect, and no defect is the seven checks. -/
theorem constructionSucceedsExactlyOnSoundParameters : Obligations.ConstructionSucceedsExactlyOnSoundParameters := by
  refine fun q => ⟨construct_completes_iff.trans configDefect_eq_none, ?_⟩
  cases h : configDefect q with
  | none => exact .inl (construct_completes_iff.2 h)
  | some d => exact .inr ⟨d, construct_refuses h⟩

end Sys2Proof.Machine
end

section
/-! The statements of 70_reset_and_hazards.md: the delay table after construction, the last `pause_trig` word latched in
DIRECT without resume, and the waits of a served call. -/

namespace Sys2Proof.Machine

/-! ### The delay table (R291) -/

/-- Settles O6: the constructed state holds the table, and it is among what no instruction and no step changes. -/
theorem delayRomIsBuiltAtConstructionOnly : Obligations.DelayRomIsBuiltAtConstructionOnly := by
  refine ⟨fun q s h => ?_, fun s u i h => (exec_sameFixed h).delayRom, fun s u h => (step_sameFixed h).delayRom⟩
  obtain ⟨-, rfl⟩ := construct_eq_next.1 h
  rfl

/-! ### A served call -/

/-- A free block serves a host operation that answers a next state: it raises the plan's error, or performs the plan. -/
theorem exec_served_cases {i : Instr} {s u : State} (hi : i.isHostOp = true) (hr : s.ready) (hx : exec i s = .next u) :
    (∃ c a, hostPlan i s = .error c a ∧ u = s.replied (.rangeError c a))
    ∨ ∃ words commit result ws, hostPlan i s = .perform words commit result ∧
        encodeWords s.params.profile words = some ws ∧ u = ((s.driven ws).applyWrites commit).replied result := by
  rcases exec_cases hx with ⟨_, _, _, _, hrow, -, -⟩ | ⟨-, hn, -⟩ | ⟨-, -, h⟩ | ⟨-, -, h⟩
  · simp [Instr.isHostOp, hrow] at hi
  · exact absurd hr hn
  · exact .inl h
  · exact .inr h

/-! ### The last `pause_trig` word in DIRECT without resume (R204, R300) -/

theorem stepWord_ne_pauseTrig (delta : Int) : (stepWord delta).2 ≠ .pauseTrig := by
  rcases stepWord_cases delta with ⟨-, h⟩ | ⟨-, h⟩ <;> simp [h]

/-- In DIRECT without resume a performed plan suspends and steps, or it is of an operation other than `set_offset_fine`,
and then it has no `pause_trig` word (R110, R204). -/
theorem hostPlan_pauseWord {i : Instr} {s : State} {words : List (Nat × Command)} {commit : List RegWrite}
    {result : Reply} (hv : s.params.profile.fineVariant = .direct) (hf : s.params.profile.fineResume = false)
    (hp : hostPlan i s = .perform words commit result) :
    (∃ delta, words = [(1, .pauseTrig), stepWord delta])
    ∨ ((∀ e ∈ words, e.2 ≠ .pauseTrig) ∧ ∀ t, result ≠ .okInt t) := by
  rcases hostPlan_perform hp with ⟨b, -, -, -, rfl, -, rfl⟩ | ⟨c, -, -, -, -, rfl, -, rfl⟩ |
    ⟨x, -, -, rfl, -, rfl⟩ | ⟨text, -, -, rfl, -, rfl⟩ | ⟨text, -, -, rfl, -, rfl⟩ |
    ⟨t, -, -, -, ⟨-, -, rfl⟩ | ⟨hq, -, -⟩⟩ | ⟨x, -, rfl, -, rfl⟩ | ⟨rfl, -, hget⟩
  · exact .inr (by simp)
  · exact .inr (by simp)
  · exact .inr (by simp)
  · exact .inr (by simp)
  · exact .inr (by simp)
  · exact .inl ⟨directDelta t s.phaseCnt, by simp [resumeWords, hf]⟩
  · simp [hv] at hq
  · exact .inr (by simp)
  · refine .inr ⟨by simp, ?_⟩
    rcases hget with ⟨-, rfl⟩ | ⟨-, rfl⟩ | ⟨-, rfl⟩ | ⟨-, rfl⟩ | ⟨-, rfl⟩ | ⟨-, rfl⟩ <;> simp

/-- A new word that only words with other mode codes follow is the last latched one with its mode code. -/
theorem lastLatched_append_cons {s u : State} {w : BusWord} {ws : List BusWord}
    (h : u.latched = s.latched ++ (w :: ws).map some) (hws : ∀ v ∈ ws, v.mode ≠ w.mode) :
    u.lastLatched w.mode = some w.data := by
  have hnil : ws.filter (fun v => v.mode = w.mode) = [] := List.filter_eq_nil_iff.2 (by simpa using hws)
  rw [lastLatched_append h, List.filter_cons_of_pos (by simp), hnil]
  rfl

/-- In a configured block, performing suspend and step leaves 1 as the last `pause_trig` word latched. -/
theorem lastLatched_suspend_step {s : State} (hc : s.Configured) {m : Nat}
    (hm : s.params.profile.modeField .pauseTrig = some m) {delta : Int} {ws : List BusWord}
    (he : encodeWords s.params.profile [(1, .pauseTrig), stepWord delta] = some ws) (commit : List RegWrite)
    (result : Reply) : (((s.driven ws).applyWrites commit).replied result).lastLatched m = some 1 := by
  have hl := performed_latched hc he commit result
  obtain ⟨w, ws', hw, hstep, rfl⟩ := encodeWords_cons_eq_some.1 he
  obtain rfl : ⟨1, m⟩ = w := Option.some.inj ((busWord_eq_of_le hm (by decide)).symm.trans hw)
  exact lastLatched_append_cons hl (encodeWords_mode_ne hc hstep (by simpa using stepWord_ne_pauseTrig delta) hm)

/-- Settles O40: a call that raises latches nothing and answers no number; any other either leaves 1 as the last
`pause_trig` word (`lastLatched_suspend_step`), or latches no such word and is no `set_offset_fine`
(`hostPlan_pauseWord`). -/
theorem directNeverResumesTriggering : Obligations.DirectNeverResumesTriggering := by
  intro s u i m hr hc hi hv hf hm hx
  rcases exec_served_cases hi hr hx with ⟨cause, a, -, rfl⟩ | ⟨words, commit, result, ws, hp, he, rfl⟩
  · exact ⟨id, fun t h => by simp at h⟩
  · rcases hostPlan_pauseWord hv hf hp with ⟨delta, rfl⟩ | ⟨hwords, hresult⟩
    · have hone := lastLatched_suspend_step hc hm he commit result
      exact ⟨fun _ => hone, fun _ _ => hone⟩
    · have hsame := lastLatched_append_other (performed_latched hc he commit result)
        (encodeWords_mode_ne hc he hwords hm)
      refine ⟨hsame.trans, fun t h => absurd ?_ (hresult t)⟩
      simpa using (performed_replies s ws commit result).symm.trans h

/-! ### The waits of a served call (R305, R306) -/

/-- Performing a plan adds three settle times for each of its words: neither the commit nor the reply waits. -/
theorem performed_waitTime (s : State) (ws : List BusWord) (commit : List RegWrite) (result : Reply) :
    waitTime (((s.driven ws).applyWrites commit).replied result).trace =
      waitTime s.trace + 3 * ws.length * s.params.tSettle := by
  rw [replied_trace, applyWrites_trace, driven_trace, waitTime_append, waitTime_flatMap]

/-- A performed plan's reply is no RangeError. -/
theorem performed_not_raisedTo {i : Instr} {s : State} {words : List (Nat × Command)} {commit : List RegWrite}
    {result : Reply} (hp : hostPlan i s = .perform words commit result) (ws : List BusWord) :
    ¬ s.RaisedTo (((s.driven ws).applyWrites commit).replied result) := by
  obtain ⟨-, -, hresult⟩ := hostPlan_words hp
  rw [raisedTo_iff (performed_replies s ws commit result)]
  exact fun ⟨c, a, h⟩ => hresult c a h

/-- Settles O42: a call that raises leaves only its reply; any other waits for the words its plan encodes to
(`performed_waitTime`), as many as R112 counts (`hostPlan_words`). -/
theorem servedCallWaitsThreeSettleTimesAWord : Obligations.ServedCallWaitsThreeSettleTimesAWord := by
  intro s u i hr hi hx
  rcases exec_served_cases hi hr hx with ⟨cause, a, -, rfl⟩ | ⟨words, commit, result, ws, hp, he, rfl⟩
  · have hraised : s.RaisedTo (s.replied (.rangeError cause a)) := ⟨cause, a, rfl⟩
    exact ⟨fun _ => rfl, fun h => absurd hraised h⟩
  · refine ⟨fun h => absurd h (performed_not_raisedTo hp ws), fun _ => ?_⟩
    obtain ⟨-, hcount, -⟩ := hostPlan_words hp
    rw [performed_waitTime, encodeWords_length he, hcount]

end Sys2Proof.Machine
end
